-- ==== Sys2Proof/Word.lean ====
section
/-! DEFINITION. The word types of the ecen4593 CORE (spec/00_scope.md R9, R25): every register, address,
data word and instruction word is 32 bits wide, bit 0 the least significant. -/

namespace Sys2Proof

/-- `XLEN = 32` (R9): registers, the program counter, addresses, data words, instruction words. -/
abbrev Word := BitVec 32

/-- One byte of the backing store as a host sees it (R72). -/
abbrev Byte := BitVec 8

/-- A register index: one of the 5-bit fields `rs`, `rt`, `rd` (spec/30_encoding.md R100). -/
abbrev RegIdx := BitVec 5

/-- The 5-bit shift amount field `shamt` (R100, R105). -/
abbrev Shamt := BitVec 5

/-- The 16-bit immediate field `imm16` (R100). -/
abbrev Imm16 := BitVec 16

/-- The 26-bit jump address field `jaddr` (R100). -/
abbrev JAddr := BitVec 26

end Sys2Proof
end

