-- ==== Sys2Proof/Config.lean ====
section
/-! DEFINITION. The implementation parameters (spec/00_scope.md R9 to R24): the "configuration surface", with the
values the spec does not specify kept representable (R8, R11, R14, R16). Which sets are valid is
Machine/Params.lean's `Config.check` (spec/60_exceptions.md R390). -/

namespace Sys2Proof

/-- `ARCH_MODE` (R11): only `pipelined` is specified. -/
inductive ArchMode where
  | pipelined
  | singleCycle
deriving DecidableEq, Repr

/-- `CACHE_MODE` (R13, R14): `disabled` and `data` are specified. -/
inductive CacheMode where
  | disabled
  | data
  | split
  | unified
deriving DecidableEq, Repr

/-- `ASSOC` (R16): a placeholder with one specified value. -/
inductive Assoc where
  | directMapped
  | setAssociative
deriving DecidableEq, Repr

/-- `WRITE_POLICY` (R17). -/
inductive WritePolicy where
  | writeBack
  | writeThrough
deriving DecidableEq, Repr

/-- `BYTE_ORDER` (R24): which byte of a word a host sees first; read by no rule of the CORE (R72). -/
inductive ByteOrder where
  | big
  | little
deriving DecidableEq, Repr

/-- The parameters of one hardware instance. Fixed before reset is released, never changed
(spec/49_cycle_driver.md R359). Sizes are the raw numbers, so that an invalid set can be written down and refused. -/
structure Config where
  /-- R11. -/
  archMode : ArchMode
  /-- R12, in bytes: the window is `[0, MEM_SIZE)`. -/
  memSize : Nat
  /-- R13. -/
  cacheMode : CacheMode
  /-- R15. -/
  numLines : Nat
  /-- R15, in words. -/
  blockWords : Nat
  /-- R16. -/
  assoc : Assoc
  /-- R17. -/
  writePolicy : WritePolicy
  /-- R18. -/
  missPenalty : Nat
  /-- R18. -/
  subseqPenalty : Nat
  /-- R19. -/
  wbCapacity : Nat
  /-- R20. -/
  haltWord : Word
  /-- R20. -/
  haltOnPcZero : Bool
  /-- R21. -/
  resetPc : Word
  /-- R22: entry `i` is the reset value of `x[i + 1]`. -/
  rfReset : Vector Word 31
  /-- R24. -/
  byteOrder : ByteOrder
deriving DecidableEq, Repr

/-- Which constraint of R390 a parameter set breaks, the first in the order of that rule. -/
inductive ConfigError where
  /-- `ARCH_MODE` is not `pipelined` (R11). -/
  | archMode
  /-- `CACHE_MODE` is neither `disabled` nor `data` (R14). -/
  | cacheMode
  /-- `ASSOC` is not `direct_mapped` (R16). -/
  | assoc
  /-- `MEM_SIZE` is not `2^k` with `4 ≤ k ≤ 32` (R12). -/
  | memSize
  /-- `NUM_LINES` is not a power of two (R15). -/
  | numLines
  /-- `BLOCK_WORDS` is not a power of two (R15). -/
  | blockWords
  /-- `log2(NUM_LINES) + log2(BLOCK_WORDS) > 30` (R15). -/
  | geometry
  /-- `4 * BLOCK_WORDS > MEM_SIZE` (R12). -/
  | blockTooLarge
  /-- `MISS_PENALTY = 0` (R18). -/
  | missPenalty
  /-- `SUBSEQ_PENALTY = 0` (R18). -/
  | subseqPenalty
  /-- `WB_CAPACITY = 0` (R19). -/
  | wbCapacity
  /-- `RESET_PC` is not a multiple of 4 (R21). -/
  | resetPcMisaligned
  /-- `RESET_PC ≥ MEM_SIZE` (R21). -/
  | resetPcOutside
  /-- `RESET_PC = 0` with `HALT_ON_PC_ZERO` (R21). -/
  | resetPcZero
deriving DecidableEq, Repr

/-- The default `HALT_WORD` (R20): the word of `jr $zero`. -/
def Config.defaultHaltWord : Word := 0x00000008#32

/-- DESIGN CHOICE (log entry 3): the parameters of `State.reset` are the conventions of spec/95_test_vectors.md
(`RESET_PC`, `MEM_SIZE`, `RF_RESET`, `HALT_WORD`, `HALT_ON_PC_ZERO`, `CACHE_MODE`); the cache geometry, which a disabled
cache does not use, is that file's most used one, (4, 2, 3, 1, write_back) with `WB_CAPACITY = 1`. -/
def Config.standard : Config where
  archMode := .pipelined
  memSize := 0x1000
  cacheMode := .disabled
  numLines := 4
  blockWords := 2
  assoc := .directMapped
  writePolicy := .writeBack
  missPenalty := 3
  subseqPenalty := 1
  wbCapacity := 1
  haltWord := Config.defaultHaltWord
  haltOnPcZero := false
  resetPc := 0x00000100#32
  rfReset := Vector.replicate 31 0#32
  byteOrder := .little

end Sys2Proof
end

