-- ==== Sys2Proof/Syntax.lean ====
section
/-! DEFINITION. The instruction set (spec/30_encoding.md R110): 27 instructions and the halt sentinel, one constructor for
each row of spec/opcode_table.json, in its order. The operands are the fields of the format in the order they stand in the
word (R101 to R103). A field the instruction does not use is kept as an operand too (DEDUCED, log entry 9): it has no effect
(R108), but it tells apart words that decode to the same instruction, `0x00000808` from the sentinel `0x00000008` among them. -/

namespace Sys2Proof

inductive Instr where
  /-- R151, `rs` is don't-care. -/
  | sll (rs rt rd : RegIdx) (shamt : Shamt)
  /-- R152, `rs` is don't-care. -/
  | srl (rs rt rd : RegIdx) (shamt : Shamt)
  /-- R153, `rs` is don't-care. -/
  | sra (rs rt rd : RegIdx) (shamt : Shamt)
  /-- R194, `rt`, `rd`, `shamt` are don't-care. -/
  | jr (rs rt rd : RegIdx) (shamt : Shamt)
  /-- R131, `shamt` is don't-care. -/
  | add (rs rt rd : RegIdx) (shamt : Shamt)
  /-- R132, `shamt` is don't-care. -/
  | addu (rs rt rd : RegIdx) (shamt : Shamt)
  /-- R133, `shamt` is don't-care. -/
  | sub (rs rt rd : RegIdx) (shamt : Shamt)
  /-- R134, `shamt` is don't-care. -/
  | subu (rs rt rd : RegIdx) (shamt : Shamt)
  /-- R135, `shamt` is don't-care. -/
  | and (rs rt rd : RegIdx) (shamt : Shamt)
  /-- R136, `shamt` is don't-care. -/
  | or (rs rt rd : RegIdx) (shamt : Shamt)
  /-- R137, `shamt` is don't-care. -/
  | xor (rs rt rd : RegIdx) (shamt : Shamt)
  /-- R138, `shamt` is don't-care. -/
  | nor (rs rt rd : RegIdx) (shamt : Shamt)
  /-- R139, `shamt` is don't-care. -/
  | slt (rs rt rd : RegIdx) (shamt : Shamt)
  /-- R140, `shamt` is don't-care. -/
  | sltu (rs rt rd : RegIdx) (shamt : Shamt)
  /-- R193. -/
  | j (jaddr : JAddr)
  /-- R191. -/
  | beq (rs rt : RegIdx) (imm : Imm16)
  /-- R192. -/
  | bne (rs rt : RegIdx) (imm : Imm16)
  /-- R161. -/
  | addi (rs rt : RegIdx) (imm : Imm16)
  /-- R162. -/
  | addiu (rs rt : RegIdx) (imm : Imm16)
  /-- R163. -/
  | slti (rs rt : RegIdx) (imm : Imm16)
  /-- R164. -/
  | sltiu (rs rt : RegIdx) (imm : Imm16)
  /-- R165. -/
  | andi (rs rt : RegIdx) (imm : Imm16)
  /-- R166. -/
  | ori (rs rt : RegIdx) (imm : Imm16)
  /-- R167. -/
  | xori (rs rt : RegIdx) (imm : Imm16)
  /-- R168, `rs` is don't-care. -/
  | lui (rs rt : RegIdx) (imm : Imm16)
  /-- R181. -/
  | lw (rs rt : RegIdx) (imm : Imm16)
  /-- R182. -/
  | sw (rs rt : RegIdx) (imm : Imm16)
  /-- R117, R198: the halt sentinel, the exact word `HALT_WORD`, recognised by the Fetch stage. -/
  | halt
deriving DecidableEq, Repr

end Sys2Proof
end

