-- ==== Sys2Proof/Decode.lean ====
section
/-! DEFINITION. The decoder, total on every word and every list of bytes, and the encoder (spec/30_encoding.md). Both are
written from the field table of R100, the formats R101 to R103 and the opcode and funct maps R111 and R112. -/

namespace Sys2Proof

/-- Why the decoder refuses. -/
inductive DecodeError where
  /-- R109, R115: the pair is in neither map; the verdict `unrecognised`. -/
  | unrecognised (opcode funct : BitVec 6)
  /-- Fewer than four bytes were given; every instruction is one 32-bit word (R100, R118). -/
  | truncated
deriving DecidableEq, Repr

/-! ### Fields (R100) -/

/-- `instr[31:26]` (R100). -/
def opcodeOf (w : Word) : BitVec 6 := w.extractLsb' 26 6
/-- `instr[25:21]` (R100). -/
def rsOf (w : Word) : RegIdx := w.extractLsb' 21 5
/-- `instr[20:16]` (R100). -/
def rtOf (w : Word) : RegIdx := w.extractLsb' 16 5
/-- `instr[15:11]` (R100). -/
def rdOf (w : Word) : RegIdx := w.extractLsb' 11 5
/-- `instr[10:6]` (R100). -/
def shamtOf (w : Word) : Shamt := w.extractLsb' 6 5
/-- `instr[5:0]` (R100). -/
def functOf (w : Word) : BitVec 6 := w.extractLsb' 0 6
/-- `instr[15:0]` (R100). -/
def imm16Of (w : Word) : Imm16 := w.extractLsb' 0 16
/-- `instr[25:0]` (R100). -/
def jaddrOf (w : Word) : JAddr := w.extractLsb' 0 26

/-! ### The decoder of the Decode stage -/

/-- The function map for `opcode = 0` (R112); every other `funct` is unrecognised (R115). -/
def decodeFunct (rs rt rd : RegIdx) (shamt : Shamt) (funct : BitVec 6) : Option Instr :=
  match funct.toNat with
  | 0x00 => some (.sll rs rt rd shamt)
  | 0x02 => some (.srl rs rt rd shamt)
  | 0x03 => some (.sra rs rt rd shamt)
  | 0x08 => some (.jr rs rt rd shamt)
  | 0x20 => some (.add rs rt rd shamt)
  | 0x21 => some (.addu rs rt rd shamt)
  | 0x22 => some (.sub rs rt rd shamt)
  | 0x23 => some (.subu rs rt rd shamt)
  | 0x24 => some (.and rs rt rd shamt)
  | 0x25 => some (.or rs rt rd shamt)
  | 0x26 => some (.xor rs rt rd shamt)
  | 0x27 => some (.nor rs rt rd shamt)
  | 0x2A => some (.slt rs rt rd shamt)
  | 0x2B => some (.sltu rs rt rd shamt)
  | _ => none

/-- The primary opcode map for `opcode ≠ 0` (R111); every other opcode is unrecognised (R115). -/
def decodeOpcode (opcode : BitVec 6) (rs rt : RegIdx) (imm : Imm16) (jaddr : JAddr) : Option Instr :=
  match opcode.toNat with
  | 0x02 => some (.j jaddr)
  | 0x04 => some (.beq rs rt imm)
  | 0x05 => some (.bne rs rt imm)
  | 0x08 => some (.addi rs rt imm)
  | 0x09 => some (.addiu rs rt imm)
  | 0x0A => some (.slti rs rt imm)
  | 0x0B => some (.sltiu rs rt imm)
  | 0x0C => some (.andi rs rt imm)
  | 0x0D => some (.ori rs rt imm)
  | 0x0E => some (.xori rs rt imm)
  | 0x0F => some (.lui rs rt imm)
  | 0x23 => some (.lw rs rt imm)
  | 0x2B => some (.sw rs rt imm)
  | _ => none

/-- The decode of one word by the Decode stage (R108, R109, R221): the key is `funct` when the opcode is 0 and the opcode
alone otherwise. It never answers `halt`: the sentinel is recognised at fetch, before decoding (R117). -/
def decode (w : Word) : Except DecodeError Instr :=
  let found :=
    if opcodeOf w = 0 then decodeFunct (rsOf w) (rtOf w) (rdOf w) (shamtOf w) (functOf w)
    else decodeOpcode (opcodeOf w) (rsOf w) (rtOf w) (imm16Of w) (jaddrOf w)
  match found with
  | some i => .ok i
  | none => .error (.unrecognised (opcodeOf w) (functOf w))

/-- What a fetched word stands for (R117, R198): the exact word `HALT_WORD` is the sentinel, before and instead of
decoding; every other word is what `decode` says. -/
def decodeFetched (haltWord w : Word) : Except DecodeError Instr :=
  if w = haltWord then .ok .halt else decode w

/-! ### Bytes -/

/-- A word from its four bytes, first byte at the lowest address (R24, R72). -/
def wordOfBytes (order : ByteOrder) (b0 b1 b2 b3 : Byte) : Word :=
  match order with
  | .little => b3 ++ b2 ++ b1 ++ b0
  | .big => b0 ++ b1 ++ b2 ++ b3

/-- The four bytes of a word, the one at the lowest address first (R24, R72). -/
def bytesOfWord (order : ByteOrder) (w : Word) : List Byte :=
  let lowFirst : List Byte := [w.extractLsb' 0 8, w.extractLsb' 8 8, w.extractLsb' 16 8, w.extractLsb' 24 8]
  match order with
  | .little => lowFirst
  | .big => lowFirst.reverse

/-- The decoder on bytes: one instruction and the bytes that follow it (R118: four bytes, always). -/
def decodeBytes (order : ByteOrder) (haltWord : Word) : List Byte → Except DecodeError (Instr × List Byte)
  | b0 :: b1 :: b2 :: b3 :: rest =>
    match decodeFetched haltWord (wordOfBytes order b0 b1 b2 b3) with
    | .ok i => .ok (i, rest)
    | .error e => .error e
  | _ => .error .truncated

/-- The instruction read from a word of the opcode table: `w`, cut to `nbits`, laid out as the four bytes the hardware
stores, then decoded with the default `HALT_WORD` (R20) and the byte order of `Config.standard`. -/
def decodeTableWord (nbits w : Nat) : Option Instr :=
  let word : Word := BitVec.ofNat 32 (w % 2 ^ nbits)
  match decodeBytes Config.standard.byteOrder Config.defaultHaltWord (bytesOfWord Config.standard.byteOrder word) with
  | .ok (i, _) => some i
  | .error _ => none

/-! ### The encoder -/

/-- An R-format word (R101). -/
def encodeR (rs rt rd : RegIdx) (shamt : Shamt) (funct : BitVec 6) : Word :=
  (0#6 ++ rs ++ rt ++ rd ++ shamt ++ funct : BitVec (6 + 5 + 5 + 5 + 5 + 6))

/-- An I-format word (R102). -/
def encodeI (opcode : BitVec 6) (rs rt : RegIdx) (imm : Imm16) : Word :=
  (opcode ++ rs ++ rt ++ imm : BitVec (6 + 5 + 5 + 16))

/-- A J-format word (R103). -/
def encodeJ (jaddr : JAddr) : Word :=
  (0x02#6 ++ jaddr : BitVec (6 + 26))

/-- The word of an instruction (R101 to R103, R111, R112); the sentinel's word is the parameter `HALT_WORD` (R117). -/
def encode (haltWord : Word) : Instr → Word
  | .sll rs rt rd shamt => encodeR rs rt rd shamt 0x00#6
  | .srl rs rt rd shamt => encodeR rs rt rd shamt 0x02#6
  | .sra rs rt rd shamt => encodeR rs rt rd shamt 0x03#6
  | .jr rs rt rd shamt => encodeR rs rt rd shamt 0x08#6
  | .add rs rt rd shamt => encodeR rs rt rd shamt 0x20#6
  | .addu rs rt rd shamt => encodeR rs rt rd shamt 0x21#6
  | .sub rs rt rd shamt => encodeR rs rt rd shamt 0x22#6
  | .subu rs rt rd shamt => encodeR rs rt rd shamt 0x23#6
  | .and rs rt rd shamt => encodeR rs rt rd shamt 0x24#6
  | .or rs rt rd shamt => encodeR rs rt rd shamt 0x25#6
  | .xor rs rt rd shamt => encodeR rs rt rd shamt 0x26#6
  | .nor rs rt rd shamt => encodeR rs rt rd shamt 0x27#6
  | .slt rs rt rd shamt => encodeR rs rt rd shamt 0x2A#6
  | .sltu rs rt rd shamt => encodeR rs rt rd shamt 0x2B#6
  | .j jaddr => encodeJ jaddr
  | .beq rs rt imm => encodeI 0x04#6 rs rt imm
  | .bne rs rt imm => encodeI 0x05#6 rs rt imm
  | .addi rs rt imm => encodeI 0x08#6 rs rt imm
  | .addiu rs rt imm => encodeI 0x09#6 rs rt imm
  | .slti rs rt imm => encodeI 0x0A#6 rs rt imm
  | .sltiu rs rt imm => encodeI 0x0B#6 rs rt imm
  | .andi rs rt imm => encodeI 0x0C#6 rs rt imm
  | .ori rs rt imm => encodeI 0x0D#6 rs rt imm
  | .xori rs rt imm => encodeI 0x0E#6 rs rt imm
  | .lui rs rt imm => encodeI 0x0F#6 rs rt imm
  | .lw rs rt imm => encodeI 0x23#6 rs rt imm
  | .sw rs rt imm => encodeI 0x2B#6 rs rt imm
  | .halt => haltWord

/-- The four bytes of an instruction in the backing store. -/
def encodeBytes (order : ByteOrder) (haltWord : Word) (i : Instr) : List Byte :=
  bytesOfWord order (encode haltWord i)

end Sys2Proof
end

