-- ==== Sys2Proof/Machine/State.lean ====
section
/-! DEFINITION. The state of the CORE (spec/10_state.md R30 to R56) as plain data, its reset values (R54), and the reasons a
step can stop. -/

namespace Sys2Proof.Machine

open Sys2Proof

/-! ### Why a step stops -/

/-- The model's faults: none. Each of the four stop conditions of spec/60_exceptions.md (R382) is described there as a state:
the fault fields are written and the machine is frozen (R383), so the step answers that next state (log entry 11). Safe: no
step of the model ends outside the state, so nothing is hidden from a statement about next states. -/
inductive Fault
deriving DecidableEq, Repr

/-- Why a step refuses. -/
inductive Refusal where
  /-- Raised by an arm of `exec` for an instruction without a meaning; no arm raises it. Safe: nothing is claimed of it. -/
  | notModelled (mnemonic : String)
  /-- Raised by `step` when the configuration breaks a constraint of R390: there is no CORE for it. Safe: no rule applies. -/
  | configuration (reason : ConfigError)
deriving DecidableEq, Repr

/-! ### Status fields -/

/-- The values of the status field `fault` (R40, R382). -/
inductive FaultCode where
  /-- Code 0: no fault. -/
  | none
  /-- Code 1 (R385). -/
  | busErrorData
  /-- Code 2 (R384). -/
  | illegalInstruction
  /-- Code 3 (R386). -/
  | busErrorFetch
  /-- Code 4 (R387). -/
  | internalInvariant
deriving DecidableEq, Repr

/-- What a fault records (R382): its code, `fault_addr` and `fault_word`. -/
structure FaultInfo where
  code : FaultCode
  addr : Word
  word : Word
deriving DecidableEq, Repr

/-! ### Pipeline latches (R43 to R45) -/

/-- The ALU operation selector `aluOp` (R114), in the order of its codes 0 to 11. -/
inductive AluOp where
  | add
  | sub
  | and
  | or
  | xor
  | nor
  | slt
  | sltu
  | sll
  | srl
  | sra
  | lui
deriving DecidableEq, Repr

/-- The nine control signals (R44), in the source's order. -/
structure Control where
  regDst : Bool
  regWrite : Bool
  aluSrc : Bool
  branch : Bool
  memRead : Bool
  memWrite : Bool
  memToReg : Bool
  aluOp : AluOp
  jump : Bool
deriving DecidableEq, Repr

/-- Every control signal 0 (R45); `aluOp` code 0 is `ADD` (R114). -/
def Control.zero : Control where
  regDst := false
  regWrite := false
  aluSrc := false
  branch := false
  memRead := false
  memWrite := false
  memToReg := false
  aluOp := .add
  jump := false

/-- A pipeline latch: one in-flight instruction (R43). All four latches have this record type. -/
structure Latch where
  valid : Bool
  instr : Word
  pc4 : Word
  opcode : BitVec 6
  rs : RegIdx
  rt : RegIdx
  rd : RegIdx
  shamt : Shamt
  funct : BitVec 6
  imm16 : Imm16
  immext : Word
  jaddr : JAddr
  ctrl : Control
  rsVal : Word
  rtVal : Word
  npc : Word
  aluResult : Word
  memData : Word
deriving DecidableEq, Repr

/-- `BUBBLE`: the latch value with every field zero (R45). -/
def Latch.bubble : Latch where
  valid := false
  instr := 0
  pc4 := 0
  opcode := 0
  rs := 0
  rt := 0
  rd := 0
  shamt := 0
  funct := 0
  imm16 := 0
  immext := 0
  jaddr := 0
  ctrl := Control.zero
  rsVal := 0
  rtVal := 0
  npc := 0
  aluResult := 0
  memData := 0

/-! ### Cache, fill sequencer, write buffer (R49 to R51) -/

/-- A cache line (R49): `BLOCK_WORDS` words, one tag, one valid bit, one dirty bit. The tag's width depends on the
configuration (R291), so it is a number (log entry 14). -/
structure Line where
  valid : Bool
  dirty : Bool
  tag : Nat
  data : List Word
deriving DecidableEq, Repr

/-- A line after reset (R54): invalid, clean, tag and data zero. -/
def Line.reset (blockWords : Nat) : Line where
  valid := false
  dirty := false
  tag := 0
  data := List.replicate blockWords 0

/-- The fill sequencer (R50). -/
structure Fill where
  /-- The source's "fetching" mark. -/
  active : Bool
  /-- The block base address being filled. -/
  base : Word
  /-- The line index. -/
  idx : Nat
  tag : Nat
  /-- How many words have landed; the offset of the next one. -/
  word : Nat
  /-- The penalty counter. -/
  cnt : Nat
  /-- The threshold of `cnt`: `MISS_PENALTY` or `SUBSEQ_PENALTY`. -/
  thr : Nat
deriving DecidableEq, Repr

/-- The fill sequencer after reset (R54). -/
def Fill.reset : Fill where
  active := false
  base := 0
  idx := 0
  tag := 0
  word := 0
  cnt := 0
  thr := 0

/-- A write-buffer entry (R51): one whole evicted line. -/
structure WbEntry where
  /-- The block base address of the line. -/
  addr : Word
  data : List Word
  tag : Nat
  idx : Nat
deriving DecidableEq, Repr

/-! ### Backing store (R53) -/

/-- The backing store's contents, as the bytes a host sees (R72): addresses strictly rising, no entry equal to what an
unlisted address reads as, which is 0 (DESIGN CHOICE, log entry 5). `Memory.Wf` says that the form holds. -/
abbrev Memory := List Host.Cell

/-! ### The machine -/

/-- Which of the spec's two readings of the machine a step takes (DESIGN CHOICE, log entry 1; the model's own, not the
spec's). -/
inductive Driver where
  /-- One step is one rising edge of `clk`: the hardware (spec/49_cycle_driver.md R350). -/
  | clock
  /-- One step is one instruction, executed alone: the sequential meaning (spec/00_scope.md R27). -/
  | sequential
deriving DecidableEq, Repr

structure State where
  /-- The parameters (R9 to R24); no step changes them (R359). Log entry 2. -/
  cfg : Config
  /-- The model's own field. Log entry 1. -/
  driver : Driver
  /-- `x[0]` to `x[31]` (R30); read and written through `State.readReg` and `State.writeReg` (R32). -/
  x : Vector Word 32
  /-- R35. -/
  pc : Word
  /-- Fetch to Decode (R43). -/
  ifid : Latch
  /-- Decode to Execute (R43). -/
  idex : Latch
  /-- Execute to Memory (R43). -/
  exmem : Latch
  /-- Memory to Writeback (R43). -/
  memwb : Latch
  /-- `line[0]` to `line[NUM_LINES-1]` (R49); empty when the cache is disabled (R92). -/
  lines : List Line
  /-- R50. -/
  fill : Fill
  /-- R51, the oldest entry first. -/
  wbuf : List WbEntry
  /-- R41. -/
  fetchStopped : Bool
  /-- R40. -/
  fault : FaultCode
  /-- R40. -/
  faultAddr : Word
  /-- R40. -/
  faultWord : Word
  /-- R53. -/
  back : Memory
deriving DecidableEq, Repr

/-- What a step, and the meaning of an instruction, answers. -/
abbrev Result := Host.Outcome State Fault Refusal

/-- The register file after reset (R54): `x[0] = 0`, `x[i] = RF_RESET[i]`. -/
def resetRegisters (cfg : Config) : Vector Word 32 :=
  (#v[0#32] ++ cfg.rfReset : Vector Word (1 + 31))

/-- The machine with configuration `cfg` right after reset, the loader having left `mem` in the backing store (R54, R420,
R430): every field at the value of R54's table. -/
def State.ofConfig (cfg : Config) (mem : Memory) : State where
  cfg := cfg
  driver := .clock
  x := resetRegisters cfg
  pc := cfg.resetPc
  ifid := Latch.bubble
  idex := Latch.bubble
  exmem := Latch.bubble
  memwb := Latch.bubble
  lines := if cfg.cacheMode = .data then List.replicate cfg.numLines (Line.reset cfg.blockWords) else []
  fill := Fill.reset
  wbuf := []
  fetchStopped := false
  fault := .none
  faultAddr := 0
  faultWord := 0
  back := mem

/-- The machine right after reset, for the one configuration `Config.standard` and with nothing loaded (log entries 3, 4 and
5 name the values that the spec leaves open). -/
def State.reset : State := State.ofConfig Config.standard []

end Sys2Proof.Machine
end

