-- ==== Sys2Proof/Machine/Operands.lean ====
section
/-! DEFINITION. Operand assembly (spec/30_encoding.md R104 to R107, spec/43_load_store.md R180): immediates, effective
addresses, transfer targets. There is one addressing mode, base plus displacement. -/

namespace Sys2Proof.Machine

open Sys2Proof

/-- `sext_32(imm16)` (R26, R104). -/
def sext (imm : Imm16) : Word := imm.signExtend 32

/-- `zext_32(imm16)` (R26, R104). -/
def zext (imm : Imm16) : Word := imm.setWidth 32

/-- The effective address of `LW` and `SW` (R180): `base + sext_32(imm16)` modulo 2^32. -/
def effectiveAddress (base : Word) (imm : Imm16) : Word := base + sext imm

/-- The target of a taken `BEQ` or `BNE` (R107), from the address of the branch plus 4. -/
def branchTarget (pc4 : Word) (imm : Imm16) : Word := pc4 + sext imm <<< 2

/-- The target of `J` (R106), from the address of the jump plus 4. -/
def jumpTarget (pc4 : Word) (jaddr : JAddr) : Word :=
  (pc4.extractLsb' 28 4 ++ jaddr ++ 0#2 : BitVec (4 + 26 + 2))

end Sys2Proof.Machine
end

