-- ==== Sys2Proof/Machine/Control.lean ====
section
/-! DEFINITION. What the Decode stage derives from the instruction (spec/30_encoding.md R104, R113, R114; spec/46_hazard_unit.md
R261; spec/45_pipeline_stages.md R224 to R226). -/

namespace Sys2Proof.Machine

open Sys2Proof

/-- The control bundle of a register-register instruction (R113): `regDst = regWrite = 1`. -/
def Control.register (op : AluOp) : Control :=
  { Control.zero with regDst := true, regWrite := true, aluOp := op }

/-- The control bundle of a register-immediate instruction (R113): `regWrite = aluSrc = 1`. -/
def Control.immediate (op : AluOp) : Control :=
  { Control.zero with regWrite := true, aluSrc := true, aluOp := op }

/-- The control bundle of each instruction (R113), a total mapping. `branch` is 0 here: Decode sets it when it resolves the
transfer as taken (R225). The sentinel is never decoded (R117) and has no row; it gets the bubble's bundle. -/
def controlOf : Instr → Control
  | .add _ _ _ _ => Control.register .add
  | .addu _ _ _ _ => Control.register .add
  | .sub _ _ _ _ => Control.register .sub
  | .subu _ _ _ _ => Control.register .sub
  | .and _ _ _ _ => Control.register .and
  | .or _ _ _ _ => Control.register .or
  | .xor _ _ _ _ => Control.register .xor
  | .nor _ _ _ _ => Control.register .nor
  | .slt _ _ _ _ => Control.register .slt
  | .sltu _ _ _ _ => Control.register .sltu
  | .sll _ _ _ _ => Control.register .sll
  | .srl _ _ _ _ => Control.register .srl
  | .sra _ _ _ _ => Control.register .sra
  | .addi _ _ _ => Control.immediate .add
  | .addiu _ _ _ => Control.immediate .add
  | .slti _ _ _ => Control.immediate .slt
  | .sltiu _ _ _ => Control.immediate .sltu
  | .andi _ _ _ => Control.immediate .and
  | .ori _ _ _ => Control.immediate .or
  | .xori _ _ _ => Control.immediate .xor
  | .lui _ _ _ => Control.immediate .lui
  | .lw _ _ _ => { Control.immediate .add with memRead := true, memToReg := true }
  | .sw _ _ _ => { Control.zero with aluSrc := true, memWrite := true }
  | .beq _ _ _ => { Control.zero with aluOp := .sub }
  | .bne _ _ _ => { Control.zero with aluOp := .sub }
  | .j _ => { Control.zero with jump := true }
  | .jr _ _ _ _ => { Control.zero with jump := true }
  | .halt => Control.zero

/-- The register fields an instruction uses as operands (R113 last column, R261). -/
def readSet : Instr → List RegIdx
  | .add rs rt _ _ => [rs, rt]
  | .addu rs rt _ _ => [rs, rt]
  | .sub rs rt _ _ => [rs, rt]
  | .subu rs rt _ _ => [rs, rt]
  | .and rs rt _ _ => [rs, rt]
  | .or rs rt _ _ => [rs, rt]
  | .xor rs rt _ _ => [rs, rt]
  | .nor rs rt _ _ => [rs, rt]
  | .slt rs rt _ _ => [rs, rt]
  | .sltu rs rt _ _ => [rs, rt]
  | .sw rs rt _ => [rs, rt]
  | .beq rs rt _ => [rs, rt]
  | .bne rs rt _ => [rs, rt]
  | .sll _ rt _ _ => [rt]
  | .srl _ rt _ _ => [rt]
  | .sra _ rt _ _ => [rt]
  | .addi rs _ _ => [rs]
  | .addiu rs _ _ => [rs]
  | .slti rs _ _ => [rs]
  | .sltiu rs _ _ => [rs]
  | .andi rs _ _ => [rs]
  | .ori rs _ _ => [rs]
  | .xori rs _ _ => [rs]
  | .lw rs _ _ => [rs]
  | .jr rs _ _ _ => [rs]
  | .lui _ _ _ => []
  | .j _ => []
  | .halt => []

/-- `readsreg(i, r)` (R261): register 0 is never a hazard. -/
def readsReg (i : Instr) (r : RegIdx) : Bool := r != 0 && (readSet i).contains r

/-- The extended immediate (R104, R222). -/
def immextOf : Instr → Word
  | .addi _ _ imm => sext imm
  | .addiu _ _ imm => sext imm
  | .slti _ _ imm => sext imm
  | .sltiu _ _ imm => sext imm
  | .lw _ _ imm => sext imm
  | .sw _ _ imm => sext imm
  | .beq _ _ imm => sext imm
  | .bne _ _ imm => sext imm
  | .andi _ _ imm => zext imm
  | .ori _ _ imm => zext imm
  | .xori _ _ imm => zext imm
  | .lui _ _ imm => zext imm
  | .sll _ _ _ _ => 0
  | .srl _ _ _ _ => 0
  | .sra _ _ _ _ => 0
  | .jr _ _ _ _ => 0
  | .add _ _ _ _ => 0
  | .addu _ _ _ _ => 0
  | .sub _ _ _ _ => 0
  | .subu _ _ _ _ => 0
  | .and _ _ _ _ => 0
  | .or _ _ _ _ => 0
  | .xor _ _ _ _ => 0
  | .nor _ _ _ _ => 0
  | .slt _ _ _ _ => 0
  | .sltu _ _ _ _ => 0
  | .j _ => 0
  | .halt => 0

/-- The registers a transfer needs in Decode (R224): `rs` and `rt` for `BEQ` and `BNE`, `rs` for `JR`. -/
def transferSources : Instr → List RegIdx
  | .beq rs rt _ => [rs, rt]
  | .bne rs rt _ => [rs, rt]
  | .jr rs _ _ _ => [rs]
  | _ => []

/-- `BEQ` or `BNE`. -/
def isBranch : Instr → Bool
  | .beq _ _ _ => true
  | .bne _ _ _ => true
  | _ => false

/-- `cond` (R225): whether the transfer in Decode is taken, from its operands. -/
def transferCond (i : Instr) (a b : Word) : Bool :=
  match i with
  | .j _ => true
  | .jr _ _ _ _ => true
  | .beq _ _ _ => a == b
  | .bne _ _ _ => a != b
  | _ => false

/-- `target` (R226). It is read only when the transfer is taken. -/
def transferTarget (i : Instr) (pc4 a : Word) : Word :=
  match i with
  | .j jaddr => jumpTarget pc4 jaddr
  | .jr _ _ _ _ => a
  | .beq _ _ imm => branchTarget pc4 imm
  | .bne _ _ imm => branchTarget pc4 imm
  | _ => pc4

/-- The code of an ALU operation (R114); codes 12 to 15 are never generated. -/
def AluOp.code : AluOp → BitVec 4
  | .add => 0
  | .sub => 1
  | .and => 2
  | .or => 3
  | .xor => 4
  | .nor => 5
  | .slt => 6
  | .sltu => 7
  | .sll => 8
  | .srl => 9
  | .sra => 10
  | .lui => 11

end Sys2Proof.Machine
end

