-- ==== Sys2Proof/Machine/Flags.lean ====
section
/-! DEFINITION. Comparison results. The hardware has no flags and no condition codes (spec/10_state.md R38): a comparison
gives the word 0 or 1 (spec/40_alu_register.md R139 to R141), or decides a branch. -/

namespace Sys2Proof.Machine

open Sys2Proof

/-- The result words of the comparisons: `b ? 1 : 0` (R141). -/
def flagWord (b : Bool) : Word := if b then 1 else 0

/-- `signed(a) < signed(b)`, exact (R139). -/
def lessSigned (a b : Word) : Bool := a.toInt < b.toInt

/-- `a <u b` (R140). -/
def lessUnsigned (a b : Word) : Bool := a.toNat < b.toNat

end Sys2Proof.Machine
end

