-- ==== Sys2Proof/Machine/Params.lean ====
section
/-! DEFINITION. Which configurations are valid (spec/60_exceptions.md R390), construction, and the cache geometry
(spec/47_cache_controller.md R291 to R295). -/

namespace Sys2Proof

/-- A power of two, `≥ 1`. -/
def isPowerOfTwo (n : Nat) : Bool := n != 0 && 2 ^ n.log2 == n

/-- The first constraint of R390 that the parameters break, if any. The cache parameters are checked only when the cache is
on. -/
def Config.check (c : Config) : Option ConfigError :=
  if c.archMode ≠ .pipelined then some .archMode
  else if c.cacheMode ≠ .disabled ∧ c.cacheMode ≠ .data then some .cacheMode
  else if c.assoc ≠ .directMapped then some .assoc
  else if ¬ (isPowerOfTwo c.memSize ∧ 2 ^ 4 ≤ c.memSize ∧ c.memSize ≤ 2 ^ 32) then some .memSize
  else if c.cacheMode = .data ∧ ¬ isPowerOfTwo c.numLines then some .numLines
  else if c.cacheMode = .data ∧ ¬ isPowerOfTwo c.blockWords then some .blockWords
  else if c.cacheMode = .data ∧ 30 < c.numLines.log2 + c.blockWords.log2 then some .geometry
  else if c.cacheMode = .data ∧ c.memSize < 4 * c.blockWords then some .blockTooLarge
  else if c.cacheMode = .data ∧ c.missPenalty = 0 then some .missPenalty
  else if c.cacheMode = .data ∧ c.subseqPenalty = 0 then some .subseqPenalty
  else if c.cacheMode = .data ∧ c.wbCapacity = 0 then some .wbCapacity
  else if c.resetPc.toNat % 4 ≠ 0 then some .resetPcMisaligned
  else if c.memSize ≤ c.resetPc.toNat then some .resetPcOutside
  else if c.haltOnPcZero ∧ c.resetPc = 0 then some .resetPcZero
  else none

/-- A valid parameter set (R390). -/
def Config.valid (c : Config) : Bool := c.check.isNone

/-- The cache is on (R13). -/
def Config.cached (c : Config) : Bool := c.cacheMode = .data

/-! ### Geometry -/

/-- `index_bits` (R291). -/
def Config.indexBits (c : Config) : Nat := c.numLines.log2

/-- `offset_bits` (R291). -/
def Config.offsetBits (c : Config) : Nat := c.blockWords.log2

/-- `tag_bits` (R291); `geometry` of `Config.check` keeps the difference from being cut off at 0. -/
def Config.tagBits (c : Config) : Nat := 32 - c.indexBits - c.offsetBits - 2

/-- The field of `a` that is `width` bits wide with its lowest bit at `lo`; 0 when the width is 0 (R291). -/
def field (a : Word) (lo width : Nat) : Nat := (a.toNat >>> lo) % 2 ^ width

/-- `byte(a) = a[1:0]` (R292). -/
def byteField (a : Word) : Nat := field a 0 2

/-- `offset(a)` (R292): the word within the block. -/
def Config.offset (c : Config) (a : Word) : Nat := field a 2 c.offsetBits

/-- `index(a)` (R292): the line. -/
def Config.index (c : Config) (a : Word) : Nat := field a (c.offsetBits + 2) c.indexBits

/-- `tag(a)` (R292). -/
def Config.tag (c : Config) (a : Word) : Nat := field a (c.indexBits + c.offsetBits + 2) c.tagBits

/-- `offset_mask` (R293). -/
def Config.offsetMask (c : Config) : Word := BitVec.ofNat 32 (c.blockWords - 1) <<< 2

/-- `index_mask` (R293). -/
def Config.indexMask (c : Config) : Word := BitVec.ofNat 32 (c.numLines - 1) <<< (c.offsetBits + 2)

/-- `tag_mask` (R293): all ones with the low `index_bits + offset_bits + 2` bits cleared. -/
def Config.tagMask (c : Config) : Word := BitVec.allOnes 32 <<< (c.indexBits + c.offsetBits + 2)

/-- `blockbase(a) = a & ~(4*BLOCK_WORDS - 1)` (R294). -/
def Config.blockBase (c : Config) (a : Word) : Word := a &&& ~~~ BitVec.ofNat 32 (4 * c.blockWords - 1)

/-- `lineaddr(t, i)` (R294): the block base of the block with tag `t` in line `i`. -/
def Config.lineAddr (c : Config) (t i : Nat) : Word :=
  BitVec.ofNat 32 t <<< (c.indexBits + c.offsetBits + 2) ||| BitVec.ofNat 32 i <<< (c.offsetBits + 2)

namespace Machine

/-- Construction (R390, R430): an invalid parameter set yields the reason and no state; a valid one yields the machine after
reset, with the loaded backing store. -/
def State.construct (cfg : Config) (mem : Memory) : Except ConfigError State :=
  match cfg.check with
  | some e => .error e
  | none => .ok (State.ofConfig cfg mem)

end Machine

end Sys2Proof
end

