-- ==== Sys2Proof/Machine/Memory.lean ====
section
/-! DEFINITION. The backing store as data: bytes, and the aligned words that are the only access unit
(spec/20_memory.md R71 to R73, spec/10_state.md R53). -/

namespace Sys2Proof.Machine

open Sys2Proof

/-- What an address that the list does not hold reads as (DESIGN CHOICE, log entry 5). -/
def unlistedByte : Byte := 0#8

/-- The byte at address `a`. -/
def Memory.readByte : Memory → Nat → Byte
  | [], _ => unlistedByte
  | (b, v) :: m, a => if a = b then v else Memory.readByte m a

/-- Store one byte, keeping the canonical form: an entry equal to what an unlisted address reads as is dropped. -/
def Memory.writeByte : Memory → Nat → Byte → Memory
  | [], a, v => if v = unlistedByte then [] else [(a, v)]
  | (b, u) :: m, a, v =>
    if a < b then (if v = unlistedByte then (b, u) :: m else (a, v) :: (b, u) :: m)
    else if a = b then (if v = unlistedByte then m else (a, v) :: m)
    else (b, u) :: Memory.writeByte m a v

/-- The canonical form: addresses strictly rising, no entry equal to what an unlisted address reads as. -/
abbrev Memory.Wf (m : Memory) : Prop :=
  m.Pairwise (fun c d => c.1 < d.1) ∧ ∀ c ∈ m, c.2 ≠ unlistedByte

/-- Every listed address lies in the window `[0, memSize)` (R53, R84). -/
abbrev Memory.Within (memSize : Nat) (m : Memory) : Prop := ∀ c ∈ m, c.1 < memSize

/-- `a[31:2]`: the word index of a byte address; the two low bits are ignored (R53, R73). -/
def wordIndex (a : Word) : Nat := a.toNat / 4

/-- `back[w]` (R53). -/
def Memory.readWord (order : ByteOrder) (m : Memory) (w : Nat) : Word :=
  wordOfBytes order (m.readByte (4 * w)) (m.readByte (4 * w + 1)) (m.readByte (4 * w + 2)) (m.readByte (4 * w + 3))

/-- Store bytes at rising addresses from `a` on. -/
def Memory.writeBytes (m : Memory) (a : Nat) : List Byte → Memory
  | [] => m
  | v :: vs => Memory.writeBytes (m.writeByte a v) (a + 1) vs

/-- `back[w] <- v` (R53). -/
def Memory.writeWord (order : ByteOrder) (m : Memory) (w : Nat) (v : Word) : Memory :=
  m.writeBytes (4 * w) (bytesOfWord order v)

end Sys2Proof.Machine
end

