-- ==== Sys2Proof/Machine/Ops.lean ====
section
/-! DEFINITION. The named operations on the state: registers (spec/10_state.md R30 to R34), the backing-store ports
(spec/20_memory.md R77 to R79), the architectural memory (R74 to R76), raising a fault and leaving it by reset
(spec/60_exceptions.md R383, R393), and the outputs (R55, spec/49_cycle_driver.md R358). -/

namespace Sys2Proof.Machine

open Sys2Proof

/-! ### Registers -/

/-- `x[i]` (R27, R32): a read of index 0 returns 0. -/
def State.readReg (s : State) (i : RegIdx) : Word :=
  if i = 0 then 0 else s.x[i.toNat]'i.isLt

/-- `x[i] <- v` (R27, R32): a write with index 0 changes nothing. -/
def State.writeReg (s : State) (i : RegIdx) (v : Word) : State :=
  if i = 0 then s else { s with x := s.x.set i.toNat v i.isLt }

/-- `pc <- t`. -/
def State.setPc (s : State) (t : Word) : State := { s with pc := t }

/-- The address of the next instruction in sequence, modulo 2^32 (R27, R37). -/
def State.pc4 (s : State) : Word := s.pc + 4

/-- The end of an instruction that writes one register and goes on in sequence (R27): `x[d] <- v`, next address `pc + 4`. -/
def State.writeResult (s : State) (d : RegIdx) (v : Word) : State := (s.writeReg d v).setPc s.pc4

/-! ### Backing-store ports -/

/-- `BackRead(a)` (R77). -/
def State.backRead (s : State) (a : Word) : Word := s.back.readWord s.cfg.byteOrder (wordIndex a)

/-- `BackWrite(a, v)` (R78). -/
def State.backWrite (s : State) (a : Word) (v : Word) : State :=
  { s with back := s.back.writeWord s.cfg.byteOrder (wordIndex a) v }

/-- `IFetchRead(a)` (R79): from the backing store, never from the cache or the write buffer. -/
def State.ifetchRead (s : State) (a : Word) : Word := s.backRead a

/-- `a < MEM_SIZE` (R80), on the full 32-bit address. -/
def State.inWindow (s : State) (a : Word) : Bool := a.toNat < s.cfg.memSize

/-! ### Cache lookup (spec/47_cache_controller.md R300) -/

/-- `ready` (R300): the word at `a` is not masked by a fill in progress. -/
def State.wordReady (s : State) (a : Word) : Bool :=
  !(s.fill.active && s.fill.idx == s.cfg.index a) || s.cfg.offset a < s.fill.word

/-- The line that holds the word at `a`: valid, tag equal, word ready (R300). -/
def State.hitLine (s : State) (a : Word) : Option Line :=
  match s.lines[s.cfg.index a]? with
  | some l => if l.valid && l.tag == s.cfg.tag a && s.wordReady a then some l else none
  | none => none

/-- A word of a line or of a write-buffer entry. A line of a reachable state has `BLOCK_WORDS` words; outside, 0 (log entry
15). -/
def wordAt (data : List Word) (k : Nat) : Word := data.getD k 0

/-- The store of a write hit into its line (R302, R303): the word is updated; the line becomes dirty under `write_back`, and
under `write_through` the word also goes to the backing store. -/
def State.storeHit (s : State) (a : Word) (l : Line) (v : Word) : State :=
  let data := l.data.set (s.cfg.offset a) v
  match s.cfg.writePolicy with
  | .writeBack => { s with lines := s.lines.set (s.cfg.index a) { l with data := data, dirty := true } }
  | .writeThrough =>
    { s with
      lines := s.lines.set (s.cfg.index a) { l with data := data }
      back := s.back.writeWord s.cfg.byteOrder (wordIndex a) v }

/-! ### Architectural memory -/

/-- The newest write-buffer entry of the block at `base` (R76): the queue has its oldest entry first. -/
def newestEntry : List WbEntry → Word → Option WbEntry
  | [], _ => none
  | e :: es, base =>
    match newestEntry es base with
    | some f => some f
    | none => if e.addr = base then some e else none

/-- Store a word into the newest entry of the block at `base`. -/
def setNewestEntry : List WbEntry → Word → Nat → Word → List WbEntry
  | [], _, _, _ => []
  | e :: es, base, k, v =>
    if (newestEntry es base).isSome then e :: setNewestEntry es base k v
    else if e.addr = base then { e with data := e.data.set k v } :: es
    else e :: es

/-- `ArchMem[a[31:2]]` (R76): cache over write buffer over backing store; with the cache disabled, the backing store (R92). -/
def State.archRead (s : State) (a : Word) : Word :=
  if s.cfg.cached then
    match s.hitLine a with
    | some l => wordAt l.data (s.cfg.offset a)
    | none =>
      match newestEntry s.wbuf (s.cfg.blockBase a) with
      | some e => wordAt e.data (s.cfg.offset a)
      | none => s.backRead a
  else s.backRead a

/-- `ArchMem[a[31:2]] <- v` (R75). `ArchMem` is a view (R76); the store goes where the view reads the word: the line, as a
write hit does, else the write-buffer entry, else the backing store (DESIGN CHOICE, log entry 7). -/
def State.archWrite (s : State) (a : Word) (v : Word) : State :=
  if s.cfg.cached then
    match s.hitLine a with
    | some l => s.storeHit a l v
    | none =>
      if (newestEntry s.wbuf (s.cfg.blockBase a)).isSome then
        { s with wbuf := setNewestEntry s.wbuf (s.cfg.blockBase a) (s.cfg.offset a) v }
      else s.backWrite a v
  else s.backWrite a v

/-! ### Faults -/

/-- The number of a fault (R382). -/
def FaultCode.code : FaultCode → Nat
  | .none => 0
  | .busErrorData => 1
  | .illegalInstruction => 2
  | .busErrorFetch => 3
  | .internalInvariant => 4

/-- `raise F(addr, word)` (R383): nothing changes but the three fault fields, and they are written once (R40). There is no
handler, no saved pc and no mode: control goes nowhere. -/
def State.raise (s : State) (f : FaultInfo) : State :=
  if s.fault = .none then { s with fault := f.code, faultAddr := f.addr, faultWord := f.word } else s

/-- The state is frozen (R383, R350 step 0). -/
def State.faulted (s : State) : Bool := s.fault ≠ .none

/-- Reset (spec/70_reset_and_hazards.md R420), the only way out of a fault and out of `halted` (R393): every state element
takes its reset value, the backing store keeps its contents. Lines and buffered entries are lost, not written back. The
reading of the machine, which is not state of the hardware, stays. -/
def State.applyReset (s : State) : State := { State.ofConfig s.cfg s.back with driver := s.driver }

/-! ### Loader and outputs -/

/-- The loader writes one word of the backing store before reset is released (R430). -/
def State.loadWord (s : State) (a : Word) (v : Word) : State := s.backWrite a v

/-- The loader writes consecutive words (R430). -/
def State.loadWords (s : State) (a : Word) : List Word → State
  | [] => s
  | v :: vs => (s.loadWord a v).loadWords (a + 4) vs

/-- `halted` (R55). -/
def State.halted (s : State) : Bool :=
  s.fetchStopped && !s.ifid.valid && !s.idex.valid && !s.exmem.valid && !s.memwb.valid && !s.fill.active
    && s.wbuf.isEmpty && s.fault = .none

/-- The output ports (R358). -/
structure Outputs where
  halted : Bool
  fault : Nat
  faultAddr : Word
  faultWord : Word
deriving DecidableEq, Repr

/-- The outputs are functions of the state (R55, R40); the debug observation (R355) is the state itself. -/
def State.outputs (s : State) : Outputs where
  halted := s.halted
  fault := s.fault.code
  faultAddr := s.faultAddr
  faultWord := s.faultWord

end Sys2Proof.Machine
end

