-- ==== Sys2Proof/Machine/Stages.lean ====
section
/-! DEFINITION. The stages as functions of the latches of the previous edge (spec/45_pipeline_stages.md): Writeback, the Memory
request, Execute, and the proposal of Fetch. Decode, which needs the hazard signals, is in Machine/Hazard.lean. -/

namespace Sys2Proof.Machine

open Sys2Proof

/-! ### Latch selections (spec/00_scope.md, glossary) -/

/-- `dest(L) = L.regDst ? L.rd : L.rt`. -/
def Latch.dest (l : Latch) : RegIdx := if l.ctrl.regDst then l.rd else l.rt

/-- `wbval(L) = L.memToReg ? L.memData : L.aluResult`. -/
def Latch.wbval (l : Latch) : Word := if l.ctrl.memToReg then l.memData else l.aluResult

/-- `L` holds an instruction that writes register `r`. -/
def Latch.writes (l : Latch) (r : RegIdx) : Bool := l.valid && l.ctrl.regWrite && l.dest == r

/-! ### Writeback -/

/-- `wb_en` (R250). -/
def wbEn (s : State) : Bool := s.memwb.valid && s.memwb.ctrl.regWrite

/-- The register write of Writeback at the clock edge (R250); register 0 is the register file's affair (R32). -/
def writeback (s : State) : State := if wbEn s then s.writeReg s.memwb.dest s.memwb.wbval else s

/-- `rf_w[i]` (R33): the register file as Decode sees it, this cycle's write applied. -/
def rfw (s : State) (i : RegIdx) : Word :=
  if wbEn s && s.memwb.dest == i && i != 0 then s.memwb.wbval else s.readReg i

/-! ### Memory -/

/-- What the Memory stage asks of the cache controller (R240, R290). -/
inductive Request where
  | none
  | read (a : Word)
  | write (a v : Word)
deriving DecidableEq, Repr

/-- The address of a request. -/
def Request.addr : Request → Option Word
  | .none => Option.none
  | .read a => some a
  | .write a _ => some a

/-- What the cache controller answers (R290, R297): `noAnswer` to `None`. The word of a write hit is not used. -/
inductive Answer where
  | noAnswer
  | hit (d : Word)
  | miss
deriving DecidableEq, Repr

/-- The request formed from `EXMEM` (R240), or `BusErrorData` (R385). No decoded instruction sets both enables (R113); a
latch that did would read (log entry 16). -/
def memRequest (s : State) : Except FaultInfo Request :=
  let l := s.exmem
  if l.valid && (l.ctrl.memRead || l.ctrl.memWrite) then
    if s.inWindow l.aluResult then
      .ok (if l.ctrl.memRead then .read l.aluResult else .write l.aluResult l.rtVal)
    else .error { code := .busErrorData, addr := l.aluResult, word := l.instr }
  else .ok .none

/-- `MEM_prop` (R241 to R243). -/
def memProposal (l : Latch) : Answer → Latch
  | .noAnswer => l
  | .hit d => if l.ctrl.memRead then { l with memData := d } else l
  | .miss => Latch.bubble

/-! ### Execute -/

/-- The forwarded value of a register operand of the instruction in EX (R230, R268): register 0 keeps its latch value;
else the instruction one older, if it writes `r` and is no load; else the one two older; else the latch value. -/
def forward (s : State) (r : RegIdx) (old : Word) : Word :=
  if r = 0 then old
  else if s.exmem.writes r && !s.exmem.ctrl.memRead then s.exmem.aluResult
  else if s.memwb.writes r then s.memwb.wbval
  else old

/-- `A` (R230). -/
def operandA (s : State) : Word := forward s s.idex.rs s.idex.rsVal

/-- `B` (R230). -/
def operandB (s : State) : Word := forward s s.idex.rt s.idex.rtVal

/-- The ALU (R232). -/
def alu (op : AluOp) (a op2 : Word) (sh : Shamt) : Word :=
  match op with
  | .add => a + op2
  | .sub => a - op2
  | .and => a &&& op2
  | .or => a ||| op2
  | .xor => a ^^^ op2
  | .nor => ~~~ (a ||| op2)
  | .slt => flagWord (lessSigned a op2)
  | .sltu => flagWord (lessUnsigned a op2)
  | .sll => op2 <<< sh
  | .srl => op2 >>> sh
  | .sra => op2.sshiftRight sh.toNat
  | .lui => op2 <<< 16

/-- The latch in EX with its operands as forwarded (R233, and the operand capture of R270). -/
def captured (s : State) : Latch := { s.idex with rsVal := operandA s, rtVal := operandB s }

/-- `op2` (R231). -/
def operand2 (s : State) : Word := if s.idex.ctrl.aluSrc then s.idex.immext else operandB s

/-- `EX_prop` (R233). -/
def exProposal (s : State) : Latch :=
  if s.idex.valid then
    { captured s with aluResult := alu s.idex.ctrl.aluOp (operandA s) (operand2 s) s.idex.shamt }
  else Latch.bubble

/-! ### Fetch -/

/-- `IF_prop` (R212) for the word fetched at `pc`. -/
def ifProposal (s : State) (word : Word) : Latch :=
  { Latch.bubble with valid := true, instr := word, pc4 := s.pc4, npc := s.pc4 }

/-- The fetched word is the sentinel, or the fetch is at 0 with `HALT_ON_PC_ZERO` (R214), for an accepted fetch. -/
def haltCondition (s : State) (word : Word) : Bool :=
  word == s.cfg.haltWord || (s.cfg.haltOnPcZero && s.pc == 0)

end Sys2Proof.Machine
end

