-- ==== Sys2Proof/Machine/WriteBuffer.lean ====
section
/-! DEFINITION. The write-buffer FIFO (spec/48_write_buffer.md R340 to R347). It is owned by the cache controller; no pipeline stage
sees it. -/

namespace Sys2Proof.Machine

open Sys2Proof

/-- `enqueue(e)` (R341, R342): appended at the end, or `none` when the buffer is full, which leaves it unchanged. -/
def enqueue (capacity : Nat) (buf : List WbEntry) (e : WbEntry) : Option (List WbEntry) :=
  if buf.length < capacity then some (buf ++ [e]) else none

/-- The backing-store writes of a drain: the words of one line from its block base on (R343). -/
def State.writeBlock (s : State) (a : Word) : List Word → State
  | [] => s
  | v :: vs => (s.backWrite a v).writeBlock (a + 4) vs

/-- `drain-one()` (R343): the oldest entry is written back, whole, and removed; an empty buffer does nothing. -/
def drainOne (s : State) : State :=
  match s.wbuf with
  | [] => s
  | e :: rest => { s.writeBlock e.addr e.data with wbuf := rest }

end Sys2Proof.Machine
end

