-- ==== Sys2Proof/Machine/Cache.lean ====
section
/-! DEFINITION. The direct-mapped cache controller (spec/47_cache_controller.md R290 to R321): its four steps in each cycle. -/

namespace Sys2Proof.Machine

open Sys2Proof

/-! ### Fill tick (R310 to R313) -/

/-- The address of the next word to land (R310). -/
def Fill.nextAddr (f : Fill) : Word := f.base + BitVec.ofNat 32 (4 * f.word)

/-- A fault of the controller's checks (R295, R313, R382). -/
def invariantFault (a : Word) : FaultInfo where
  code := .internalInvariant
  addr := a
  word := 0

/-- The line after word `k` of the fill landed with value `v` (R310): the first landing sets tag and validity. -/
def landedLine (l : Line) (f : Fill) (v : Word) : Line :=
  let data := l.data.set f.word v
  if f.word = 0 then { valid := true, dirty := false, tag := f.tag, data := data } else { l with data := data }

/-- The sequencer after a landing (R311, R312). -/
def Fill.afterLanding (c : Config) (f : Fill) : Fill :=
  if f.word + 1 < c.blockWords then { f with word := f.word + 1, cnt := 0, thr := c.subseqPenalty }
  else { f with word := f.word + 1, active := false }

/-- One word lands (R310 to R312); the landing check (R313), and the check that the line exists (R295). The argument's counter
has already advanced. -/
def landWord (s : State) : Except FaultInfo State :=
  match s.lines[s.fill.idx]? with
  | none => .error (invariantFault s.fill.nextAddr)
  | some l =>
    if s.fill.word ≠ 0 ∧ ¬ (l.valid ∧ l.tag = s.fill.tag) then .error (invariantFault s.fill.nextAddr)
    else .ok { s with
      lines := s.lines.set s.fill.idx (landedLine l s.fill (s.backRead s.fill.nextAddr))
      fill := s.fill.afterLanding s.cfg }

/-- The fill tick (R298 step 2, R310): the counter runs on the clock, with or without a request. -/
def fillTick (s : State) : Except FaultInfo State :=
  if s.fill.active then
    let ticked : State := { s with fill := { s.fill with cnt := s.fill.cnt + 1 } }
    if ticked.fill.cnt = ticked.fill.thr then landWord ticked else .ok ticked
  else .ok s

/-! ### Lookup (R300 to R305) -/

/-- The classification of a request (R297). -/
inductive AccessClass where
  | hit (l : Line)
  | missIdle
  | missPending
deriving DecidableEq, Repr

/-- R297, on the state after the fill tick. -/
def classify (s : State) (a : Word) : AccessClass :=
  match s.hitLine a with
  | some l => .hit l
  | none => if s.fill.active then .missPending else .missIdle

/-! ### Fill start (R306 to R309) -/

/-- The record of a fill that begins for the block of `a` (R306). -/
def Fill.start (c : Config) (a : Word) : Fill where
  active := true
  base := c.blockBase a
  idx := c.index a
  tag := c.tag a
  word := 0
  cnt := 0
  thr := c.missPenalty

/-- The write-buffer entry of a victim line (R307). -/
def victimEntry (c : Config) (idx : Nat) (l : Line) : WbEntry where
  addr := c.lineAddr l.tag idx
  data := l.data
  tag := l.tag
  idx := idx

/-- The write buffer after the eviction of `l` (R307): a valid dirty victim is enqueued, any other is discarded; `none` when
it must be enqueued and the buffer is full (R308). -/
def evict (s : State) (idx : Nat) (l : Line) : Option (List WbEntry) :=
  if l.valid && l.dirty then enqueue s.cfg.wbCapacity s.wbuf (victimEntry s.cfg idx l) else some s.wbuf

/-- A fill begins for the block of `a` (R306, R307, R309), the victim being evicted and invalidated; with the write buffer
full and the victim dirty nothing changes (R308). -/
def startFill (s : State) (a : Word) (victim : Line) : State :=
  match evict s (s.cfg.index a) victim with
  | none => s
  | some buf =>
    { s with
      wbuf := buf
      lines := s.lines.set (s.cfg.index a) { victim with valid := false, dirty := false }
      fill := Fill.start s.cfg a }

/-! ### The controller's cycle (R298) -/

/-- Steps 3 and 4 for one request (R298): `store` is the value of a write. The index is checked against the lines there are
(R295). -/
def access (s : State) (a : Word) (store : Option Word) : Except FaultInfo (State × Answer) :=
  match s.lines[s.cfg.index a]? with
  | none => .error (invariantFault a)
  | some victim =>
    match classify s a with
    | .hit l =>
      match store with
      | none => .ok (s, .hit (wordAt l.data (s.cfg.offset a)))
      | some v => .ok (s.storeHit a l v, .hit v)
    | .missPending => .ok (s, .miss)
    | .missIdle => .ok (startFill s a victim, .miss)

/-- Steps 3 and 4 (R298), nothing without a request (R299). -/
def lookup (s : State) : Request → Except FaultInfo (State × Answer)
  | .none => .ok (s, .noAnswer)
  | .read a => access s a none
  | .write a v => access s a (some v)

/-- The cache controller's cycle (R298): drain, fill tick, lookup, fill start. -/
def cacheCycle (s : State) (req : Request) : Except FaultInfo (State × Answer) :=
  match fillTick (drainOne s) with
  | .error f => .error f
  | .ok t => lookup t req

/-- The uncached data path (R92): every access hits in its own cycle, on the backing store. -/
def uncachedCycle (s : State) : Request → State × Answer
  | .none => (s, .noAnswer)
  | .read a => (s, .hit (s.backRead a))
  | .write a v => (s.backWrite a v, .hit v)

/-- The memory side of a cycle (R350 step 3). -/
def memorySide (s : State) (req : Request) : Except FaultInfo (State × Answer) :=
  if s.cfg.cached then cacheCycle s req else .ok (uncachedCycle s req)

end Sys2Proof.Machine
end

