-- ==== Sys2Proof/Machine/Hazard.lean ====
section
/-! DEFINITION. The Decode stage and the hazard unit (spec/45_pipeline_stages.md R220 to R229, spec/46_hazard_unit.md): detection,
operands of a transfer, resolution, and the total latch-update policy. -/

namespace Sys2Proof.Machine

open Sys2Proof

/-! ### Decode -/

/-- A register operand of a transfer in Decode (R224): `none` while it is not ready. -/
def transferOperand (s : State) (r : RegIdx) : Option Word :=
  if r = 0 then some 0
  else if s.idex.writes r then none
  else if s.exmem.writes r then (if s.exmem.ctrl.memRead then none else some s.exmem.aluResult)
  else some (rfw s r)

/-- The instruction needs its operands in Decode (R223, R224). -/
def needsOperand (i : Instr) (r : RegIdx) : Bool := (transferSources i).contains r

/-- The operand Decode latches for register field `r` of instruction `i`: for a source of a transfer the true value, else
`rf_w[r]` (R223, R224). While an operand is not ready Decode is stalled and the value is not used. DESIGN CHOICE (log entry
19): the `rtVal` of a `JR`, which neither rule gives, is `rf_w[rt]`, but the true value of `rs` where the `rt` field names
the same register. -/
def decodeOperand (s : State) (i : Instr) (r : RegIdx) : Word :=
  if needsOperand i r then (transferOperand s r).getD (rfw s r) else rfw s r

/-- `ops_ready` (R224). -/
def opsReady (s : State) (i : Instr) : Bool := (transferSources i).all fun r => (transferOperand s r).isSome

/-- `loaduse` (R262), for the instruction Decode found in `IFID`. -/
def loadUse (s : State) (i : Instr) : Bool :=
  s.idex.valid && s.idex.ctrl.memRead && readsReg i s.idex.dest

/-- `br_wait` (R263). -/
def brWait (s : State) (i : Instr) : Bool := !opsReady s i

/-- What Decode hands to the hazard unit. -/
structure DecodeOut where
  /-- `ID_prop` (R227, R228). -/
  prop : Latch
  /-- `id_stall` (R264). -/
  idStall : Bool
  /-- `taken` (R225). -/
  taken : Bool
  /-- `target` (R226). -/
  target : Word
deriving DecidableEq, Repr

/-- `ID_prop` for a recognised instruction (R220 to R227). -/
def idProposal (s : State) (i : Instr) (taken : Bool) : Latch :=
  let w := s.ifid.instr
  let a := decodeOperand s i (rsOf w)
  let b := decodeOperand s i (rtOf w)
  { valid := true
    instr := w
    pc4 := s.ifid.pc4
    opcode := opcodeOf w
    rs := rsOf w
    rt := rtOf w
    rd := rdOf w
    shamt := shamtOf w
    funct := functOf w
    imm16 := imm16Of w
    immext := immextOf i
    jaddr := jaddrOf w
    ctrl := { controlOf i with branch := taken && isBranch i }
    rsVal := a
    rtVal := b
    npc := if taken then transferTarget i s.ifid.pc4 a else s.ifid.pc4
    aluResult := 0
    memData := 0 }

/-- The Decode stage (R220 to R229) with the signals `id_stall` and `taken`. An unrecognised word in a valid latch is
`IllegalInstruction`, whatever stalls are active (R229, R384). -/
def decodeStage (s : State) (memStall : Bool) : Except FaultInfo DecodeOut :=
  if s.ifid.valid then
    match decode s.ifid.instr with
    | .error _ => .error { code := .illegalInstruction, addr := s.ifid.pc4 - 4, word := s.ifid.instr }
    | .ok i =>
      let a := decodeOperand s i (rsOf s.ifid.instr)
      let b := decodeOperand s i (rtOf s.ifid.instr)
      let idStall := loadUse s i || brWait s i
      let taken := !memStall && !idStall && transferCond i a b
      .ok { prop := idProposal s i taken, idStall := idStall, taken := taken, target := transferTarget i s.ifid.pc4 a }
  else .ok { prop := Latch.bubble, idStall := false, taken := false, target := 0 }

/-! ### Fetch -/

/-- What Fetch hands to the hazard unit. -/
structure FetchOut where
  /-- `is_halt` (R214). -/
  isHalt : Bool
  /-- `IF_prop` (R212, R215). -/
  prop : Latch
deriving DecidableEq, Repr

/-- `accept` (R213), in a cycle that raises no older fault. -/
def acceptFetch (s : State) (memStall idStall taken : Bool) : Bool :=
  !s.fetchStopped && !memStall && !idStall && !taken

/-- The Fetch stage (R211 to R215), reading the backing store as the memory side left it (R81, R350 step 6). An accepted
fetch outside the window is `BusErrorFetch` (R386); a fetch that is not accepted has no effect at all. -/
def fetchStage (s : State) (after : State) (accept : Bool) : Except FaultInfo FetchOut :=
  if accept then
    if s.inWindow s.pc then
      let word := after.ifetchRead s.pc
      .ok { isHalt := haltCondition s word, prop := ifProposal s word }
    else .error { code := .busErrorFetch, addr := s.pc, word := 0 }
  else .ok { isHalt := false, prop := Latch.bubble }

/-! ### The total policy (R271) -/

/-- The hazard signals of a cycle that raises no fault (R260). -/
structure Signals where
  memStall : Bool
  idStall : Bool
  taken : Bool
  fetchStopped : Bool
  isHalt : Bool
deriving DecidableEq, Repr

/-- `pc'` (R272). -/
def nextPc (g : Signals) (pc target : Word) : Word :=
  if g.memStall then pc
  else if g.idStall then pc
  else if g.taken then target
  else if g.fetchStopped || g.isHalt then pc
  else pc + 4

/-- `IFID'` (R273). -/
def nextIfid (g : Signals) (ifid ifProp : Latch) : Latch :=
  if g.memStall || g.idStall then ifid
  else if g.taken || g.fetchStopped || g.isHalt then Latch.bubble
  else ifProp

/-- `IDEX'` (R274): with operand capture during a memory stall (R270). -/
def nextIdex (g : Signals) (capture idProp : Latch) : Latch :=
  if g.memStall then capture
  else if g.idStall then Latch.bubble
  else idProp

/-- `EXMEM'` (R275). -/
def nextExmem (g : Signals) (exmem exProp : Latch) : Latch := if g.memStall then exmem else exProp

/-- `MEMWB'` (R276): the bubble of a stall goes downstream. -/
def nextMemwb (g : Signals) (memProp : Latch) : Latch := if g.memStall then Latch.bubble else memProp

end Sys2Proof.Machine
end

