-- ==== Sys2Proof/Machine/Cycle.lean ====
section
/-! DEFINITION. The clock edge (spec/49_cycle_driver.md R350): the state after a rising edge of `clk` with `rst = 0`, as a function
of the state before it. -/

namespace Sys2Proof.Machine

open Sys2Proof

/-- The commit of a cycle that raises no fault (R350 step 7, R271): the register file, `pc`, the latches and `fetch_stopped`
from the state before the edge; cache, fill, write buffer and backing store as the memory side left them in `after`. -/
def commit (s after : State) (answer : Answer) (id : DecodeOut) (fetch : FetchOut) : State :=
  let g : Signals :=
    { memStall := answer = .miss
      idStall := id.idStall
      taken := id.taken
      fetchStopped := s.fetchStopped
      isHalt := fetch.isHalt }
  { after with
    x := (writeback s).x
    pc := nextPc g s.pc id.target
    ifid := nextIfid g s.ifid fetch.prop
    idex := nextIdex g (captured s) id.prop
    exmem := nextExmem g s.exmem (exProposal s)
    memwb := nextMemwb g (memProposal s.exmem answer)
    fetchStopped := s.fetchStopped || g.isHalt }

/-- Steps 1 to 7 of R350, in that order, so that the fault met first is the one recorded (R361, R389). -/
def cycle (s : State) : Except FaultInfo State :=
  match memRequest s with
  | .error f => .error f
  | .ok req =>
    match memorySide s req with
    | .error f => .error f
    | .ok (after, answer) =>
      let memStall := decide (answer = .miss)
      match decodeStage s memStall with
      | .error f => .error f
      | .ok id =>
        match fetchStage s after (acceptFetch s memStall id.idStall id.taken) with
        | .error f => .error f
        | .ok fetch => .ok (commit s after answer id fetch)

/-- `step` of R350: a faulted or halted state is a fixed point (step 0); a cycle that meets a fault discards its every effect
and records the fault (step 8, R383). DESIGN CHOICE (log entry 20): the cycle counts are those that R350 gives, also for a
program whose last executed instruction is a taken transfer, where the formula of spec/70_reset_and_hazards.md R442 gives one
cycle more. -/
def clockEdge (s : State) : State :=
  if s.faulted || s.halted then s
  else
    match cycle s with
    | .ok t => t
    | .error f => s.raise f

end Sys2Proof.Machine
end

