-- ==== Sys2Proof/Machine/AluImmediate.lean ====
section
/-! DEFINITION. Register-immediate arithmetic, logic, comparison and load-upper (spec/42_alu_immediate.md R160 to R168): the
sequential meanings. The arithmetic and comparison immediates are sign-extended, the logical ones zero-extended (R104). -/

namespace Sys2Proof.Machine

open Sys2Proof

/-- `ADDI rt, rs, imm` (R161): `x[rt] <- x[rs] + sext_32(imm16)` modulo 2^32; signed overflow wraps (R142). -/
def execAddi (rs rt : RegIdx) (imm : Imm16) (s : State) : Result :=
  .next (s.writeResult rt (s.readReg rs + sext imm))

/-- `ADDIU rt, rs, imm` (R162): `x[rt] <- x[rs] + sext_32(imm16)` modulo 2^32. -/
def execAddiu (rs rt : RegIdx) (imm : Imm16) (s : State) : Result :=
  .next (s.writeResult rt (s.readReg rs + sext imm))

/-- `SLTI rt, rs, imm` (R163): `x[rt] <- (signed(x[rs]) < signed(sext_32(imm16))) ? 1 : 0`. -/
def execSlti (rs rt : RegIdx) (imm : Imm16) (s : State) : Result :=
  .next (s.writeResult rt (flagWord (lessSigned (s.readReg rs) (sext imm))))

/-- `SLTIU rt, rs, imm` (R164): `x[rt] <- (x[rs] <u sext_32(imm16)) ? 1 : 0`. -/
def execSltiu (rs rt : RegIdx) (imm : Imm16) (s : State) : Result :=
  .next (s.writeResult rt (flagWord (lessUnsigned (s.readReg rs) (sext imm))))

/-- `ANDI rt, rs, imm` (R165): `x[rt] <- x[rs] & zext_32(imm16)`. -/
def execAndi (rs rt : RegIdx) (imm : Imm16) (s : State) : Result :=
  .next (s.writeResult rt (s.readReg rs &&& zext imm))

/-- `ORI rt, rs, imm` (R166): `x[rt] <- x[rs] | zext_32(imm16)`. -/
def execOri (rs rt : RegIdx) (imm : Imm16) (s : State) : Result :=
  .next (s.writeResult rt (s.readReg rs ||| zext imm))

/-- `XORI rt, rs, imm` (R167): `x[rt] <- x[rs] ^ zext_32(imm16)`. -/
def execXori (rs rt : RegIdx) (imm : Imm16) (s : State) : Result :=
  .next (s.writeResult rt (s.readReg rs ^^^ zext imm))

/-- `LUI rt, imm` (R168): `x[rt] <- {imm16, 0x0000}`; no register is read. -/
def execLui (rt : RegIdx) (imm : Imm16) (s : State) : Result :=
  .next (s.writeResult rt (zext imm <<< 16))


end Sys2Proof.Machine
end

