-- ==== Sys2Proof/Machine/AluRegister.lean ====
section
/-! DEFINITION. Register-register arithmetic, logic and comparison (spec/40_alu_register.md R130 to R142): the sequential meanings.
None writes a flag, accesses memory or traps; both sources are read before the destination is written (R130). -/

namespace Sys2Proof.Machine

open Sys2Proof

/-- `ADD rd, rs, rt` (R131): `x[rd] <- x[rs] + x[rt]` modulo 2^32; signed overflow wraps (R142). -/
def execAdd (rs rt rd : RegIdx) (s : State) : Result :=
  .next (s.writeResult rd (s.readReg rs + s.readReg rt))

/-- `ADDU rd, rs, rt` (R132): `x[rd] <- x[rs] + x[rt]` modulo 2^32. -/
def execAddu (rs rt rd : RegIdx) (s : State) : Result :=
  .next (s.writeResult rd (s.readReg rs + s.readReg rt))

/-- `SUB rd, rs, rt` (R133): `x[rd] <- x[rs] - x[rt]` modulo 2^32; signed overflow wraps (R142). -/
def execSub (rs rt rd : RegIdx) (s : State) : Result :=
  .next (s.writeResult rd (s.readReg rs - s.readReg rt))

/-- `SUBU rd, rs, rt` (R134): `x[rd] <- x[rs] - x[rt]` modulo 2^32. -/
def execSubu (rs rt rd : RegIdx) (s : State) : Result :=
  .next (s.writeResult rd (s.readReg rs - s.readReg rt))

/-- `AND rd, rs, rt` (R135): `x[rd] <- x[rs] & x[rt]`. -/
def execAnd (rs rt rd : RegIdx) (s : State) : Result :=
  .next (s.writeResult rd (s.readReg rs &&& s.readReg rt))

/-- `OR rd, rs, rt` (R136): `x[rd] <- x[rs] | x[rt]`. -/
def execOr (rs rt rd : RegIdx) (s : State) : Result :=
  .next (s.writeResult rd (s.readReg rs ||| s.readReg rt))

/-- `XOR rd, rs, rt` (R137): `x[rd] <- x[rs] ^ x[rt]`. -/
def execXor (rs rt rd : RegIdx) (s : State) : Result :=
  .next (s.writeResult rd (s.readReg rs ^^^ s.readReg rt))

/-- `NOR rd, rs, rt` (R138): `x[rd] <- ~(x[rs] | x[rt])`. -/
def execNor (rs rt rd : RegIdx) (s : State) : Result :=
  .next (s.writeResult rd (~~~ (s.readReg rs ||| s.readReg rt)))

/-- `SLT rd, rs, rt` (R139): `x[rd] <- (signed(x[rs]) < signed(x[rt])) ? 1 : 0`, exact. -/
def execSlt (rs rt rd : RegIdx) (s : State) : Result :=
  .next (s.writeResult rd (flagWord (lessSigned (s.readReg rs) (s.readReg rt))))

/-- `SLTU rd, rs, rt` (R140): `x[rd] <- (x[rs] <u x[rt]) ? 1 : 0`. -/
def execSltu (rs rt rd : RegIdx) (s : State) : Result :=
  .next (s.writeResult rd (flagWord (lessUnsigned (s.readReg rs) (s.readReg rt))))


end Sys2Proof.Machine
end

