-- ==== Sys2Proof/Machine/LoadStore.lean ====
section
/-! DEFINITION. Loads and stores (spec/43_load_store.md R180 to R183): the sequential meanings, over `MemRead` and `MemWrite`
(spec/20_memory.md R74, R75). -/

namespace Sys2Proof.Machine

open Sys2Proof

/-- The fault of a data access outside the window (R74, R75, R382): the effective address with its low bits, and the
instruction's own word. -/
def dataFault (ea word : Word) : FaultInfo where
  code := .busErrorData
  addr := ea
  word := word

/-- `LW rt, offset(rs)` (R181): `x[rt] <- MemRead(EA, 4)`; outside the window, `BusErrorData(EA)` and no register is
written. -/
def execLw (rs rt : RegIdx) (imm : Imm16) (s : State) : Result :=
  let ea := effectiveAddress (s.readReg rs) imm
  if s.inWindow ea then .next (s.writeResult rt (s.archRead ea))
  else .next (s.raise (dataFault ea (encode s.cfg.haltWord (.lw rs rt imm))))

/-- `SW rt, offset(rs)` (R182): `MemWrite(EA, 4, x[rt])`; outside the window, `BusErrorData(EA)` and nothing is stored. -/
def execSw (rs rt : RegIdx) (imm : Imm16) (s : State) : Result :=
  let ea := effectiveAddress (s.readReg rs) imm
  if s.inWindow ea then .next ((s.archWrite ea (s.readReg rt)).setPc s.pc4)
  else .next (s.raise (dataFault ea (encode s.cfg.haltWord (.sw rs rt imm))))

end Sys2Proof.Machine
end

