-- ==== Sys2Proof/Machine/Shift.lean ====
section
/-! DEFINITION. Shifts by a constant amount 0 to 31 (spec/41_shift.md R150 to R154): the sequential meanings. The `rs` field is
ignored (R150). -/

namespace Sys2Proof.Machine

open Sys2Proof

/-- `SLL rd, rt, shamt` (R151): `x[rd] <- x[rt] << shamt` modulo 2^32. -/
def execSll (rt rd : RegIdx) (shamt : Shamt) (s : State) : Result :=
  .next (s.writeResult rd (s.readReg rt <<< shamt))

/-- `SRL rd, rt, shamt` (R152): `x[rd] <- x[rt] >>u shamt`. -/
def execSrl (rt rd : RegIdx) (shamt : Shamt) (s : State) : Result :=
  .next (s.writeResult rd (s.readReg rt >>> shamt))

/-- `SRA rd, rt, shamt` (R153): `x[rd] <- x[rt] >>s shamt`: copies of the old bit 31 enter. -/
def execSra (rt rd : RegIdx) (shamt : Shamt) (s : State) : Result :=
  .next (s.writeResult rd ((s.readReg rt).sshiftRight shamt.toNat))


end Sys2Proof.Machine
end

