-- ==== Sys2Proof/Machine/Transfer.lean ====
section
/-! DEFINITION. Control transfer and the halt sentinel (spec/44_control_transfer.md R190 to R199): the sequential meanings. There
is no delay slot (R195); no target is checked for alignment (R197). -/

namespace Sys2Proof.Machine

open Sys2Proof

/-- `BEQ rs, rt, label` (R191). -/
def execBeq (rs rt : RegIdx) (imm : Imm16) (s : State) : Result :=
  .next (s.setPc (if s.readReg rs = s.readReg rt then branchTarget s.pc4 imm else s.pc4))

/-- `BNE rs, rt, label` (R192). -/
def execBne (rs rt : RegIdx) (imm : Imm16) (s : State) : Result :=
  .next (s.setPc (if s.readReg rs ≠ s.readReg rt then branchTarget s.pc4 imm else s.pc4))

/-- `J label` (R193): the upper four bits come from the address after the jump. -/
def execJ (jaddr : JAddr) (s : State) : Result :=
  .next (s.setPc (jumpTarget s.pc4 jaddr))

/-- `JR rs` (R194): a target that is not a multiple of 4 is accepted and its low bits stay in `pc` (R37). -/
def execJr (rs : RegIdx) (s : State) : Result :=
  .next (s.setPc (s.readReg rs))

/-- `HALT` (R198): execution ends before the sentinel: fetch stops, `pc` keeps the sentinel's address, nothing else
changes. -/
def execHalt (s : State) : Result :=
  .next { s with fetchStopped := true }

end Sys2Proof.Machine
end

