-- ==== Sys2Proof/Machine/Sequential.lean ====
section
/-! DEFINITION. The sequential reading (spec/00_scope.md R27): one instruction at a time, from fetch to its meaning. It looks at the
architectural state only: `x`, `pc`, `ArchMem`, `fetch_stopped`, `fault` (log entry 8). -/

namespace Sys2Proof.Machine

open Sys2Proof

/-- What the sequential reading finds at `pc`. -/
inductive Fetched where
  /-- An instruction, the sentinel among them (R117, R198). -/
  | instr (i : Instr)
  /-- A fault: `BusErrorFetch` (R386) or `IllegalInstruction` (R384). -/
  | fault (f : FaultInfo)
deriving DecidableEq, Repr

/-- Fetch and decode at `pc` (R79, R108, R109, R198): the word of the backing store; with `HALT_ON_PC_ZERO` a fetch at 0 is
the halt, whatever word is there (R20, R198). -/
def fetchInstr (s : State) : Fetched :=
  if s.inWindow s.pc then
    let word := s.ifetchRead s.pc
    if haltCondition s word then .instr .halt
    else
      match decode word with
      | .ok i => .instr i
      | .error _ => .fault { code := .illegalInstruction, addr := s.pc, word := word }
  else .fault { code := .busErrorFetch, addr := s.pc, word := 0 }

/-- One step of the sequential reading: nothing after a fault or after the sentinel; else the meaning of the instruction at
`pc`. -/
def sequentialStep (s : State) : Result :=
  if s.faulted || s.fetchStopped then .next s
  else
    match fetchInstr s with
    | .instr i => exec i s
    | .fault f => .next (s.raise f)

end Sys2Proof.Machine
end

