-- ==== Sys2Proof/Machine/Step.lean ====
section
/-! DEFINITION. One step of the machine. -/

namespace Sys2Proof.Machine

open Sys2Proof

/-- One step. For a configuration that breaks R390 there is no machine: refused, with the reason. Else one rising clock edge
(spec/49_cycle_driver.md R350), or one instruction of the sequential reading (spec/00_scope.md R27), as the model's field
`driver` says (log entry 1). -/
def step (s : State) : Host.Outcome State Fault Refusal :=
  match s.cfg.check with
  | some reason => .refused (.configuration reason)
  | none =>
    match s.driver with
    | .clock => .next (clockEdge s)
    | .sequential => sequentialStep s

/-- `s` with an instruction word where the next step fetches, and with the sequential reading selected, so that the very next
step runs that whole instruction: a clock edge runs one stage of it (log entry 12). The word stands for what the loader puts
into the backing store (spec/70_reset_and_hazards.md R430). -/
def State.withFetchWord (s : State) (nbits w : Nat) : State :=
  { s.loadWord s.pc (BitVec.ofNat 32 (w % 2 ^ nbits)) with driver := .sequential }

end Sys2Proof.Machine
end

