-- ==== Sys2Proof/Safety.lean ====
section
/-! DEFINITION. What claims are stated in: runs, the invariants of the state (spec/10_state.md R32, R43 to R46;
spec/47_cache_controller.md R316, R317; spec/48_write_buffer.md R344), and the two traces that R285 compares
(spec/46_hazard_unit.md), with the software rule R441 (spec/70_reset_and_hazards.md). -/

namespace Sys2Proof.Machine

open Sys2Proof

/-! ### Runs -/

/-- `n` steps, stopping at the first refusal. -/
def runSteps : Nat → State → Result
  | 0, s => .next s
  | n + 1, s =>
    match step s with
    | .next t => runSteps n t
    | .fault r => .fault r
    | .refused r => .refused r

/-- The state after `n` clock edges (R350). -/
def clockEdges : Nat → State → State
  | 0, s => s
  | n + 1, s => clockEdges n (clockEdge s)

/-! ### Registers and latches -/

/-- R32: the register file's entry 0 holds 0. -/
def RegistersOk (s : State) : Prop := s.x[0] = 0

/-- R45: a latch whose `valid` is 0 is `BUBBLE`, all fields zero; so its enables are zero (R46). -/
def Latch.BubbleOk (l : Latch) : Prop := l.valid = false → l = Latch.bubble

/-- R45, R46 for the four latches. -/
structure BubblesOk (s : State) : Prop where
  ifid : s.ifid.BubbleOk
  idex : s.idex.BubbleOk
  exmem : s.exmem.BubbleOk
  memwb : s.memwb.BubbleOk

/-- A latch downstream of Decode that holds an instruction holds the fields, the extended immediate and the control signals
that Decode derived from its word (R43, R220 to R222, R277); `branch` alone depends on more than the word (R225). -/
def Latch.Decoded (l : Latch) : Prop :=
  l.valid = true →
    ∃ i, decode l.instr = .ok i ∧
      l.opcode = opcodeOf l.instr ∧ l.rs = rsOf l.instr ∧ l.rt = rtOf l.instr ∧ l.rd = rdOf l.instr ∧
      l.shamt = shamtOf l.instr ∧ l.funct = functOf l.instr ∧ l.imm16 = imm16Of l.instr ∧ l.jaddr = jaddrOf l.instr ∧
      l.immext = immextOf i ∧ l.ctrl = { controlOf i with branch := l.ctrl.branch } ∧
      (l.ctrl.branch = true → isBranch i = true)

/-- R43: what each latch holds, a field being 0 upstream of the stage that produces it. -/
structure LatchesOk (s : State) : Prop where
  ifid : s.ifid = { Latch.bubble with
    valid := s.ifid.valid, instr := s.ifid.instr, pc4 := s.ifid.pc4, npc := s.ifid.pc4 }
  idex : s.idex.Decoded
  idexUpstream : s.idex.aluResult = 0 ∧ s.idex.memData = 0
  exmem : s.exmem.Decoded
  exmemUpstream : s.exmem.memData = 0
  memwb : s.memwb.Decoded

/-! ### Cache (R317) -/

/-- `line[i]` (R49). -/
def State.line (s : State) (i : Nat) : Line := s.lines.getD i (Line.reset s.cfg.blockWords)

/-- Word `k` of line `i` is real: no fill is active on the line, or the word has landed (R300). -/
def State.landed (s : State) (i k : Nat) : Bool := !(s.fill.active && s.fill.idx == i) || k < s.fill.word

/-- The address of word `k` of the block that line `i` holds. -/
def State.lineWordAddr (s : State) (i k : Nat) : Word :=
  s.cfg.lineAddr (s.line i).tag i + BitVec.ofNat 32 (4 * k)

/-- The fill record of an active fill (R50, R306, R317 e). -/
structure FillOk (s : State) : Prop where
  idx : s.fill.idx < s.cfg.numLines
  tag : s.fill.tag < 2 ^ s.cfg.tagBits
  base : s.fill.base = s.cfg.lineAddr s.fill.tag s.fill.idx
  inWindow : s.inWindow s.fill.base = true
  cnt : s.fill.cnt < s.fill.thr
  word : s.fill.word < s.cfg.blockWords
  /-- R317 c. -/
  notLanded : s.fill.word = 0 → (s.line s.fill.idx).valid = false
  /-- R317 d. -/
  landing : 0 < s.fill.word → (s.line s.fill.idx).valid = true ∧ (s.line s.fill.idx).tag = s.fill.tag

/-- A write-buffer entry (R51, R307): a whole line, at its block base, inside the window. -/
structure EntryOk (c : Config) (e : WbEntry) : Prop where
  idx : e.idx < c.numLines
  tag : e.tag < 2 ^ c.tagBits
  addr : e.addr = c.lineAddr e.tag e.idx
  inWindow : e.addr.toNat < c.memSize
  data : e.data.length = c.blockWords

/-- The invariants of the cache side when the cache is on (R49, R51, R317, R344). -/
structure CacheOk (s : State) : Prop where
  lineCount : s.lines.length = s.cfg.numLines
  lineWords : ∀ i < s.cfg.numLines, (s.line i).data.length = s.cfg.blockWords
  lineTags : ∀ i < s.cfg.numLines, (s.line i).tag < 2 ^ s.cfg.tagBits
  lineInWindow : ∀ i < s.cfg.numLines, (s.line i).valid = true → s.inWindow (s.cfg.lineAddr (s.line i).tag i) = true
  /-- R317 a. -/
  dirtyIsValid : ∀ i < s.cfg.numLines, (s.line i).dirty = true → (s.line i).valid = true
  /-- R317 c, d, e. -/
  fill : s.fill.active = true → FillOk s
  /-- R317 f, first half. -/
  cleanWords : ∀ i < s.cfg.numLines, (s.line i).valid = true → (s.line i).dirty = false →
    ∀ k < s.cfg.blockWords, s.landed i k = true → wordAt (s.line i).data k = s.backRead (s.lineWordAddr i k)
  entries : ∀ e ∈ s.wbuf, EntryOk s.cfg e
  /-- R317 f, second half. -/
  noEntryOfLine : ∀ e ∈ s.wbuf, ¬ ((s.line e.idx).valid = true ∧ (s.line e.idx).tag = e.tag)
  /-- R344. -/
  occupancy : s.wbuf.length ≤ 1

/-- R316: under `write_through` no line is dirty and the write buffer is empty. -/
def WriteThroughOk (s : State) : Prop :=
  s.cfg.writePolicy = .writeThrough → (∀ l ∈ s.lines, l.dirty = false) ∧ s.wbuf = []

/-- R92: with the cache disabled there is no line, no fill and no buffered entry. -/
def UncachedOk (s : State) : Prop :=
  s.cfg.cached = false → s.lines = [] ∧ s.fill.active = false ∧ s.wbuf = []

/-! ### All of it -/

/-- The backing store's data form, inside the window (R53, R80). -/
structure MemoryOk (s : State) : Prop where
  wf : s.back.Wf
  within : s.back.Within s.cfg.memSize

/-- The invariant of the machine. -/
structure MachineOk (s : State) : Prop where
  registers : RegistersOk s
  bubbles : BubblesOk s
  latches : LatchesOk s
  memory : MemoryOk s
  cache : s.cfg.cached = true → CacheOk s
  writeThrough : WriteThroughOk s
  uncached : UncachedOk s

/-! ### Traces (R285) -/

/-- A register write: index and value. A write to register 0 changes nothing (R32) and is not listed (log entry 17). -/
abbrev RegWrite := RegIdx × Word

/-- A data access that was performed: kind, address, value (R285). -/
inductive DataAccess where
  | load (a v : Word)
  | store (a v : Word)
deriving DecidableEq, Repr

/-- The register write that Writeback makes at this clock edge (R250): none in a frozen or halted state, none in a cycle that
raises a fault (R383). -/
def clockRegWrites (s : State) : List RegWrite :=
  if s.faulted || s.halted then []
  else
    match cycle s with
    | .error _ => []
    | .ok _ => if wbEn s && s.memwb.dest != 0 then [(s.memwb.dest, s.memwb.wbval)] else []

/-- The data access that hits in the Memory stage at this clock edge (R241). -/
def clockAccesses (s : State) : List DataAccess :=
  if s.faulted || s.halted then []
  else
    match cycle s, memRequest s with
    | .ok _, .ok req =>
      match memorySide s req, req with
      | .ok (_, .hit d), .read a => [.load a d]
      | .ok (_, .hit _), .write a v => [.store a v]
      | _, _ => []
    | _, _ => []

/-- The register that an instruction writes (R34). -/
def destOf (i : Instr) : Option RegIdx :=
  match i with
  | .sll _ _ rd _ | .srl _ _ rd _ | .sra _ _ rd _ => some rd
  | .add _ _ rd _ | .addu _ _ rd _ | .sub _ _ rd _ | .subu _ _ rd _ | .and _ _ rd _ | .or _ _ rd _
  | .xor _ _ rd _ | .nor _ _ rd _ | .slt _ _ rd _ | .sltu _ _ rd _ => some rd
  | .addi _ rt _ | .addiu _ rt _ | .slti _ rt _ | .sltiu _ rt _ | .andi _ rt _ | .ori _ rt _ | .xori _ rt _
  | .lui _ rt _ | .lw _ rt _ => some rt
  | .sw _ _ _ | .beq _ _ _ | .bne _ _ _ | .j _ | .jr _ _ _ _ | .halt => none

/-- The instruction that the sequential reading executes at `s`, if it executes one. -/
def seqInstr (s : State) : Option Instr :=
  if s.faulted || s.fetchStopped then none
  else
    match fetchInstr s with
    | .instr i => some i
    | .fault _ => none

/-- The register write of the instruction at `s` in the sequential reading: its destination, with the value it has after the
instruction. -/
def seqRegWrites (s : State) : List RegWrite :=
  match seqInstr s with
  | none => []
  | some i =>
    match destOf i, exec i s with
    | some d, .next t => if d != 0 && !t.faulted then [(d, t.readReg d)] else []
    | _, _ => []

/-- The data access of the instruction at `s` in the sequential reading. -/
def seqAccesses (s : State) : List DataAccess :=
  match seqInstr s with
  | some (.lw rs _ imm) =>
    let ea := effectiveAddress (s.readReg rs) imm
    if s.inWindow ea then [.load ea (s.archRead ea)] else []
  | some (.sw rs rt imm) =>
    let ea := effectiveAddress (s.readReg rs) imm
    if s.inWindow ea then [.store ea (s.readReg rt)] else []
  | _ => []

/-- What `f` says at each of the first `n` states of the run from `s`, joined. -/
def traceOf {α : Type} (f : State → List α) : Nat → State → List α
  | 0, _ => []
  | n + 1, s =>
    f s ++
      match step s with
      | .next t => traceOf f n t
      | .fault _ => []
      | .refused _ => []

/-- The word indices that a list of accesses stored to. -/
def storedWords (as : List DataAccess) : List Nat :=
  as.filterMap fun
    | .store a _ => some (wordIndex a)
    | .load _ _ => none

/-- The software rule R441 along the sequential run from `s`: no instruction is fetched from a word that the program has
stored to before. -/
def NeverFetchesStored (s : State) : Prop :=
  ∀ n t, runSteps n s = .next t → t.fetchStopped = false → wordIndex t.pc ∉ storedWords (traceOf seqAccesses n s)

/-- The state after reset with configuration `cfg`, loaded with `mem`, in the sequential reading. -/
def seqStart (cfg : Config) (mem : Memory) : State := { State.ofConfig cfg mem with driver := .sequential }

/-- The sequential run is over: the sentinel was reached and nothing faulted. -/
def State.ended (s : State) : Bool := s.fetchStopped && s.fault = .none

/-! ### Readings of a word (spec/00_scope.md R26) -/

/-- `signed(v)`: the two's-complement reading of a word. -/
def signedValue (w : Word) : Int := if w.toNat < 2 ^ 31 then w.toNat else (w.toNat : Int) - 2 ^ 32

/-- The two's-complement reading of a 16-bit immediate. -/
def immSigned (imm : Imm16) : Int := if imm.toNat < 2 ^ 15 then imm.toNat else (imm.toNat : Int) - 2 ^ 16

/-! ### Frames -/

/-- From `s` to `t` an instruction wrote `v` to register `d` (nothing when `d` is 0) and went on to `pc + 4`: no other
register, no byte of the backing store, no word of `ArchMem` and no other field of the state changed. -/
structure WritesRegister (s t : State) (d : RegIdx) (v : Word) : Prop where
  dest : d ≠ 0 → t.readReg d = v
  others : ∀ r, r ≠ d → t.readReg r = s.readReg r
  zero : t.x[0] = s.x[0]
  pc : t.pc = s.pc + 4
  bytes : ∀ a, t.back.readByte a = s.back.readByte a
  archMem : ∀ a, t.archRead a = s.archRead a
  rest : t = { s with x := t.x, pc := t.pc }

/-- From `s` to `t` at most the pc changed: no register, no byte of the backing store, no word of `ArchMem` and no other field
of the state. -/
structure ChangesPcOnly (s t : State) : Prop where
  registers : ∀ r, t.readReg r = s.readReg r
  bytes : ∀ a, t.back.readByte a = s.back.readByte a
  archMem : ∀ a, t.archRead a = s.archRead a
  rest : t = { s with pc := t.pc }

/-- From `s` to `t` an instruction stored `v` in the word at `ea` of `ArchMem` and went on to `pc + 4`: no other word of
`ArchMem`, no byte of the backing store outside that word, no register and no other field of the state changed but the place
the word is kept in. -/
structure StoresWord (s t : State) (ea v : Word) : Prop where
  stored : ∀ a, wordIndex a = wordIndex ea → t.archRead a = v
  others : ∀ a, wordIndex a ≠ wordIndex ea → t.archRead a = s.archRead a
  bytes : ∀ n, n / 4 ≠ wordIndex ea → t.back.readByte n = s.back.readByte n
  registers : ∀ r, t.readReg r = s.readReg r
  pc : t.pc = s.pc + 4
  rest : t = { s with pc := t.pc, lines := t.lines, wbuf := t.wbuf, back := t.back }

/-! ### The meaning of an instruction form -/

/-- An R-format instruction `mk` (R101, R113, R130, R150): the words that decode to it are those with `opcode = 0` and its
`funct` (mask `0xFC00003F`); its control bundle and read set; and what it does, in every state and for every value of its
fields: a next state in which `rd` holds the value that `value` relates to `x[rs]`, `x[rt]` and `shamt`. -/
def RegisterForm (mk : RegIdx → RegIdx → RegIdx → Shamt → Instr) (funct : Word) (op : AluOp)
    (reads : RegIdx → RegIdx → List RegIdx) (value : Word → Word → Shamt → Word → Prop) : Prop :=
  (∀ w : Word, w &&& 0xFC00003F#32 = funct ↔ decode w = .ok (mk (rsOf w) (rtOf w) (rdOf w) (shamtOf w))) ∧
  (∀ rs rt rd shamt, controlOf (mk rs rt rd shamt) = ⟨true, true, false, false, false, false, false, op, false⟩ ∧
    readSet (mk rs rt rd shamt) = reads rs rt) ∧
  ∀ rs rt rd shamt s, ∃ t v, exec (mk rs rt rd shamt) s = .next t ∧
    value (s.readReg rs) (s.readReg rt) shamt v ∧ WritesRegister s t rd v

/-- An I-format instruction `mk` that writes `rt` (R102, R113, R160), as `RegisterForm`: the words that decode to it are those
with its `opcode` (mask `0xFC000000`). -/
def ImmediateForm (mk : RegIdx → RegIdx → Imm16 → Instr) (opcode : Word) (op : AluOp)
    (reads : RegIdx → List RegIdx) (value : Word → Imm16 → Word → Prop) : Prop :=
  (∀ w : Word, w &&& 0xFC000000#32 = opcode ↔ decode w = .ok (mk (rsOf w) (rtOf w) (imm16Of w))) ∧
  (∀ rs rt imm, controlOf (mk rs rt imm) = ⟨false, true, true, false, false, false, false, op, false⟩ ∧
    readSet (mk rs rt imm) = reads rs) ∧
  ∀ rs rt imm s, ∃ t v, exec (mk rs rt imm) s = .next t ∧ value (s.readReg rs) imm v ∧ WritesRegister s t rt v

/-- `w` is a bit-by-bit combination of `a` and `b`. -/
def BitByBit (f : Bool → Bool → Bool) (a b w : Word) : Prop := ∀ k < 32, w.getLsbD k = f (a.getLsbD k) (b.getLsbD k)

/-! ### The memory side over several cycles (R298, R318) -/

/-- The state of the memory side after `n` cycles in which the Memory stage presents `reqs 0`, `reqs 1`, ...; `none` after a
fault. -/
def memoryAfter (reqs : Nat → Request) : Nat → State → Option State
  | 0, s => some s
  | n + 1, s =>
    match memoryAfter reqs n s with
    | none => none
    | some t =>
      match memorySide t (reqs n) with
      | .ok (u, _) => some u
      | .error _ => none

/-- The answer in cycle `n`, the first being cycle 0. -/
def memoryAnswer (reqs : Nat → Request) (n : Nat) (s : State) : Option Answer :=
  match memoryAfter reqs n s with
  | none => none
  | some t =>
    match memorySide t (reqs n) with
    | .ok (_, ans) => some ans
    | .error _ => none

/-- A request inside the window (R290). -/
def Request.inWindow (c : Config) : Request → Prop
  | .none => True
  | .read a => a.toNat < c.memSize
  | .write a _ => a.toNat < c.memSize

/-- A request at `a` presented to the memory side at `s` is classified `MISS-IDLE` (R297): the cache is on and, after the drain
and the fill tick, the word does not hit and no fill is active. -/
def MissIdle (s : State) (a : Word) : Prop :=
  s.cfg.cached = true ∧ ∃ m, fillTick (drainOne s) = .ok m ∧ classify m a = .missIdle

end Sys2Proof.Machine
end

