-- ==== Sys2Proof/WellFormed.lean ====
section
/-! DEFINITION. Which instruction terms stand for an instruction of this hardware. The operand widths are in the types; the
one check left is R117: the word `HALT_WORD` is the sentinel, so a term of another constructor whose word it would be
(`JR $zero` with all other fields zero, with the default `HALT_WORD`) can never be fetched as that instruction. -/

namespace Sys2Proof

/-- `i` is the sentinel, or its word is not the sentinel's (spec/30_encoding.md R117, spec/44_control_transfer.md R194). -/
def Instr.wellFormed (haltWord : Word) (i : Instr) : Bool :=
  i = .halt || encode haltWord i != haltWord

end Sys2Proof
end

