-- ==== Sys2Proof/Certificates/Slice0/Obligations.lean ====
section
/-! DEFINITION. The statements for the provers. The parameters of a state are its field `cfg`, so a statement about every state
is about every parameter set; `s.cfg.check = none` says that the set is valid (spec/60_exceptions.md R390). `MachineOk`
(Safety.lean) is the invariant that `MachineInvariantKept` and `ResetSatisfiesInvariant` state of every run. -/

section Statements

open Sys2Proof Sys2Proof.Machine

/-! ### Encoding -/

/-- spec/30_encoding.md R111, R112 (derived): four words written out bit by bit from the layouts R101 to R103 decode to the
instruction they stand for; the fields stand in the word as `000000 rs rt rd shamt funct`, `opcode rs rt imm`, `000010 jaddr`.
-/
def Obligations.WrittenOutWordsDecode : Prop :=
  decode 0b000000_01000_01001_01010_00000_100000#32 = .ok (.add 8 9 10 0) ∧
  decode 0b000000_00000_01000_01001_00100_000011#32 = .ok (.sra 0 8 9 4) ∧
  decode 0b101011_00000_01001_0000000000000000#32 = .ok (.sw 0 9 0) ∧
  decode 0b000010_00000000000000000001001001#32 = .ok (.j 0x49)

/-- spec/30_encoding.md R100 to R103, R111, R112, R117 (derived): every well-formed instruction, with every value of every
field, is read back from its word, and from its four bytes in either byte order with whatever follows them. -/
def Obligations.DecodeAfterEncode : Prop :=
  ∀ (haltWord : Word) (i : Instr), i.wellFormed haltWord = true →
    decodeFetched haltWord (encode haltWord i) = .ok i ∧
    ∀ (order : ByteOrder) (rest : List Byte),
      decodeBytes order haltWord (encodeBytes order haltWord i ++ rest) = .ok (i, rest)

/-- spec/30_encoding.md R100 to R103, R111, R112, R117 (derived): what a word decodes to is well-formed and encodes to that
very word: no bit of a word is lost. -/
def Obligations.EncodeAfterDecode : Prop :=
  ∀ (haltWord w : Word) (i : Instr), decodeFetched haltWord w = .ok i →
    encode haltWord i = w ∧ i.wellFormed haltWord = true

/-- spec/30_encoding.md R115: the illegal encodings are the words with `opcode = 0` and a `funct` outside R112 (50 of the 64)
and the words with one of 50 opcodes; every other word is one of the 27 instructions; an illegal word in Decode makes the
clock edge fault. -/
def Obligations.IllegalEncodings : Prop :=
  (∀ w : Word, (∀ i, decode w ≠ .ok i) ↔
    (opcodeOf w = 0 ∧
      (functOf w).toNat ∉ [0x00, 0x02, 0x03, 0x08, 0x20, 0x21, 0x22, 0x23, 0x24, 0x25, 0x26, 0x27, 0x2A, 0x2B]) ∨
    (opcodeOf w).toNat ∈ [1, 3, 6, 7] ++ List.range' 16 19 ++ List.range' 36 7 ++ List.range' 44 20) ∧
  ((List.range 64).filter fun f => [0x00, 0x02, 0x03, 0x08, 0x20, 0x21, 0x22, 0x23, 0x24, 0x25, 0x26, 0x27, 0x2A,
    0x2B].contains f = false).length = 50 ∧
  ([1, 3, 6, 7] ++ List.range' 16 19 ++ List.range' 36 7 ++ List.range' 44 20).length = 50 ∧
  (∀ s : State, s.fault = .none → s.ifid.valid = true → (∀ i, decode s.ifid.instr ≠ .ok i) →
    (clockEdge s).fault ≠ .none)

/-- spec/30_encoding.md R104: the extended immediate: `sext_32(imm16)` for the arithmetic, comparison, memory and branch
forms, `zext_32(imm16)` for the logical ones and `LUI`, and 0 for every R-format and J-format instruction. -/
def Obligations.ImmediateExtension : Prop :=
  (∀ rs rt imm, ∀ i ∈ [Instr.addi rs rt imm, .addiu rs rt imm, .slti rs rt imm, .sltiu rs rt imm, .lw rs rt imm,
      .sw rs rt imm, .beq rs rt imm, .bne rs rt imm], signedValue (immextOf i) = immSigned imm) ∧
  (∀ rs rt imm, ∀ i ∈ [Instr.andi rs rt imm, .ori rs rt imm, .xori rs rt imm, .lui rs rt imm],
    (immextOf i).toNat = imm.toNat) ∧
  (∀ rs rt rd shamt jaddr, ∀ i ∈ [Instr.sll rs rt rd shamt, .srl rs rt rd shamt, .sra rs rt rd shamt, .jr rs rt rd shamt,
      .add rs rt rd shamt, .addu rs rt rd shamt, .sub rs rt rd shamt, .subu rs rt rd shamt, .and rs rt rd shamt,
      .or rs rt rd shamt, .xor rs rt rd shamt, .nor rs rt rd shamt, .slt rs rt rd shamt, .sltu rs rt rd shamt, .j jaddr],
    immextOf i = 0)

/-! ### Register-register instructions (spec/40_alu_register.md) -/

/-- R131, R132: `ADD` and `ADDU`: the sum modulo 2^32; overflow wraps, so the two behave alike. -/
def Obligations.AddAdduWrap : Prop :=
  RegisterForm .add 0x00000020#32 .add (fun rs rt => [rs, rt])
    (fun a b _ v => v.toNat = (a.toNat + b.toNat) % 2 ^ 32) ∧
  RegisterForm .addu 0x00000021#32 .add (fun rs rt => [rs, rt])
    (fun a b _ v => v.toNat = (a.toNat + b.toNat) % 2 ^ 32) ∧
  ∀ rs rt rd shamt s, exec (.add rs rt rd shamt) s = exec (.addu rs rt rd shamt) s

/-- R133, R134: `SUB` and `SUBU`: the difference modulo 2^32, which is `x[rs] + ~x[rt] + 1`; the two behave alike. -/
def Obligations.SubSubuWrap : Prop :=
  RegisterForm .sub 0x00000022#32 .sub (fun rs rt => [rs, rt])
    (fun a b _ v => (v.toNat : Int) = ((a.toNat : Int) - b.toNat) % 2 ^ 32 ∧ v = a + ~~~b + 1) ∧
  RegisterForm .subu 0x00000023#32 .sub (fun rs rt => [rs, rt])
    (fun a b _ v => (v.toNat : Int) = ((a.toNat : Int) - b.toNat) % 2 ^ 32 ∧ v = a + ~~~b + 1) ∧
  ∀ rs rt rd shamt s, exec (.sub rs rt rd shamt) s = exec (.subu rs rt rd shamt) s

/-- R135 to R138: `AND`, `OR`, `XOR`, `NOR`, bit by bit. -/
def Obligations.RegisterLogicBitByBit : Prop :=
  RegisterForm .and 0x00000024#32 .and (fun rs rt => [rs, rt]) (fun a b _ v => BitByBit (fun p q => p && q) a b v) ∧
  RegisterForm .or 0x00000025#32 .or (fun rs rt => [rs, rt]) (fun a b _ v => BitByBit (fun p q => p || q) a b v) ∧
  RegisterForm .xor 0x00000026#32 .xor (fun rs rt => [rs, rt]) (fun a b _ v => BitByBit (fun p q => p != q) a b v) ∧
  RegisterForm .nor 0x00000027#32 .nor (fun rs rt => [rs, rt]) (fun a b _ v => BitByBit (fun p q => !(p || q)) a b v)

/-- R139, R140: `SLT` compares the signed readings exactly, `SLTU` the unsigned ones; the result is the word 1 or 0. -/
def Obligations.RegisterCompare : Prop :=
  RegisterForm .slt 0x0000002A#32 .slt (fun rs rt => [rs, rt])
    (fun a b _ v => (signedValue a < signedValue b → v = 1) ∧ (signedValue b ≤ signedValue a → v = 0)) ∧
  RegisterForm .sltu 0x0000002B#32 .sltu (fun rs rt => [rs, rt])
    (fun a b _ v => (a.toNat < b.toNat → v = 1) ∧ (b.toNat ≤ a.toNat → v = 0))

/-- R151 to R154: `SLL` multiplies `x[rt]` by `2^shamt` modulo 2^32, `SRL` divides its unsigned reading and `SRA` its signed
reading by `2^shamt`, rounding down. -/
def Obligations.ShiftsMultiplyAndDivide : Prop :=
  RegisterForm .sll 0x00000000#32 .sll (fun _ rt => [rt])
    (fun _ b n v => v.toNat = b.toNat * 2 ^ n.toNat % 2 ^ 32) ∧
  RegisterForm .srl 0x00000002#32 .srl (fun _ rt => [rt]) (fun _ b n v => v.toNat = b.toNat / 2 ^ n.toNat) ∧
  RegisterForm .sra 0x00000003#32 .sra (fun _ rt => [rt])
    (fun _ b n v => signedValue v = Int.fdiv (signedValue b) (2 ^ n.toNat))

/-! ### Register-immediate instructions (spec/42_alu_immediate.md) -/

/-- R161, R162: `ADDI` and `ADDIU`: the sum with the sign-extended immediate modulo 2^32; the two behave alike. -/
def Obligations.AddImmediateWrap : Prop :=
  ImmediateForm .addi 0x20000000#32 .add (fun rs => [rs])
    (fun a imm v => (v.toNat : Int) = ((a.toNat : Int) + immSigned imm) % 2 ^ 32) ∧
  ImmediateForm .addiu 0x24000000#32 .add (fun rs => [rs])
    (fun a imm v => (v.toNat : Int) = ((a.toNat : Int) + immSigned imm) % 2 ^ 32) ∧
  ∀ rs rt imm s, exec (.addi rs rt imm) s = exec (.addiu rs rt imm) s

/-- R163, R164: `SLTI` compares signed with the sign-extended immediate; `SLTIU` sign-extends first and then compares
unsigned. -/
def Obligations.CompareImmediate : Prop :=
  ImmediateForm .slti 0x28000000#32 .slt (fun rs => [rs])
    (fun a imm v => (signedValue a < immSigned imm → v = 1) ∧ (immSigned imm ≤ signedValue a → v = 0)) ∧
  ImmediateForm .sltiu 0x2C000000#32 .sltu (fun rs => [rs])
    (fun a imm v => ((a.toNat : Int) < immSigned imm % 2 ^ 32 → v = 1) ∧ (immSigned imm % 2 ^ 32 ≤ (a.toNat : Int) → v = 0))

/-- R165 to R167: `ANDI`, `ORI`, `XORI` with the zero-extended immediate: `ANDI` clears the upper half, `ORI` and `XORI` leave
it. -/
def Obligations.LogicImmediate : Prop :=
  ImmediateForm .andi 0x30000000#32 .and (fun rs => [rs])
    (fun a imm v => ∀ k < 32, v.getLsbD k = (a.getLsbD k && (decide (k < 16) && imm.getLsbD k))) ∧
  ImmediateForm .ori 0x34000000#32 .or (fun rs => [rs])
    (fun a imm v => ∀ k < 32, v.getLsbD k = (a.getLsbD k || (decide (k < 16) && imm.getLsbD k))) ∧
  ImmediateForm .xori 0x38000000#32 .xor (fun rs => [rs])
    (fun a imm v => ∀ k < 32, v.getLsbD k = (a.getLsbD k != (decide (k < 16) && imm.getLsbD k)))

/-- R168: `LUI`: the immediate in the upper half, zeros in the lower; no register is read. -/
def Obligations.LoadUpperImmediate : Prop :=
  ImmediateForm .lui 0x3C000000#32 .lui (fun _ => []) (fun _ imm v => v.toNat = imm.toNat * 2 ^ 16)

/-- spec/30_encoding.md R108 (derived): the fields an instruction does not use have no effect. -/
def Obligations.UnusedFieldsIgnored : Prop :=
  (∀ rs rt rd n m s, ∀ p ∈ [(Instr.add rs rt rd n, Instr.add rs rt rd m), (.addu rs rt rd n, .addu rs rt rd m),
      (.sub rs rt rd n, .sub rs rt rd m), (.subu rs rt rd n, .subu rs rt rd m), (.and rs rt rd n, .and rs rt rd m),
      (.or rs rt rd n, .or rs rt rd m), (.xor rs rt rd n, .xor rs rt rd m), (.nor rs rt rd n, .nor rs rt rd m),
      (.slt rs rt rd n, .slt rs rt rd m), (.sltu rs rt rd n, .sltu rs rt rd m)], exec p.1 s = exec p.2 s) ∧
  (∀ a b rt rd n imm s, ∀ p ∈ [(Instr.sll a rt rd n, Instr.sll b rt rd n), (.srl a rt rd n, .srl b rt rd n),
      (.sra a rt rd n, .sra b rt rd n), (.lui a rt imm, .lui b rt imm)], exec p.1 s = exec p.2 s) ∧
  (∀ rs rt rd n rt' rd' n' s, exec (.jr rs rt rd n) s = exec (.jr rs rt' rd' n') s)

/-! ### Loads and stores (spec/43_load_store.md) -/

/-- R181, R74 (derived): `LW` with its effective address `x[rs] + sext_32(imm16)` modulo 2^32 inside the window: `rt` receives
the word of `ArchMem` at that address, whose two low bits are ignored; with `rt = 0` nothing is written. -/
def Obligations.LoadWord : Prop :=
  (∀ w : Word, w &&& 0xFC000000#32 = 0x8C000000#32 ↔ decode w = .ok (.lw (rsOf w) (rtOf w) (imm16Of w))) ∧
  (∀ rs rt imm, controlOf (.lw rs rt imm) = ⟨false, true, true, false, true, false, true, .add, false⟩ ∧
    readSet (.lw rs rt imm) = [rs]) ∧
  ∀ rs rt imm (s : State) (ea : Word),
    (ea.toNat : Int) = (((s.readReg rs).toNat : Int) + immSigned imm) % 2 ^ 32 → ea.toNat < s.cfg.memSize →
    ∃ t, exec (.lw rs rt imm) s = .next t ∧ WritesRegister s t rt (s.archRead ea)

/-- R182, R75 (derived): `SW` with its effective address inside the window: the word of `ArchMem` at that address becomes
`x[rt]`, and a later `LW` of the same address loads it (R183). -/
def Obligations.StoreWord : Prop :=
  (∀ w : Word, w &&& 0xFC000000#32 = 0xAC000000#32 ↔ decode w = .ok (.sw (rsOf w) (rtOf w) (imm16Of w))) ∧
  (∀ rs rt imm, controlOf (.sw rs rt imm) = ⟨false, false, true, false, false, true, false, .add, false⟩ ∧
    readSet (.sw rs rt imm) = [rs, rt]) ∧
  ∀ rs rt imm (s : State) (ea : Word), s.cfg.check = none → MachineOk s →
    (ea.toNat : Int) = (((s.readReg rs).toNat : Int) + immSigned imm) % 2 ^ 32 → ea.toNat < s.cfg.memSize →
    ∃ t, exec (.sw rs rt imm) s = .next t ∧ StoresWord s t ea (s.readReg rt) ∧
      ∀ rd, rd ≠ 0 → ∃ u, exec (.lw rs rd imm) t = .next u ∧ u.readReg rd = s.readReg rt

/-- R181, R182, R74, R75, R383 (derived): outside the window both raise `BusErrorData` with the effective address, low bits
included, and the instruction's word: the three fault fields are written and nothing else changes. -/
def Obligations.DataAccessOutsideWindowFaults : Prop :=
  ∀ rs rt imm (s : State) (ea : Word), s.fault = .none →
    (ea.toNat : Int) = (((s.readReg rs).toNat : Int) + immSigned imm) % 2 ^ 32 → s.cfg.memSize ≤ ea.toNat →
    exec (.lw rs rt imm) s = .next { s with
      fault := .busErrorData, faultAddr := ea, faultWord := encode s.cfg.haltWord (.lw rs rt imm) } ∧
    exec (.sw rs rt imm) s = .next { s with
      fault := .busErrorData, faultAddr := ea, faultWord := encode s.cfg.haltWord (.sw rs rt imm) }

/-! ### Control transfer (spec/44_control_transfer.md) -/

/-- R191, R192 (derived; the timing is stated elsewhere): `BEQ` and `BNE`: the target `pc + 4 + 4 * imm` modulo 2^32 when
taken, `pc + 4` when not. -/
def Obligations.BranchesChoosePc : Prop :=
  (∀ w : Word, (w &&& 0xFC000000#32 = 0x10000000#32 ↔ decode w = .ok (.beq (rsOf w) (rtOf w) (imm16Of w))) ∧
    (w &&& 0xFC000000#32 = 0x14000000#32 ↔ decode w = .ok (.bne (rsOf w) (rtOf w) (imm16Of w)))) ∧
  ∀ rs rt imm (s : State),
    (∃ t, exec (.beq rs rt imm) s = .next t ∧ ChangesPcOnly s t ∧
      (s.readReg rs = s.readReg rt → (t.pc.toNat : Int) = ((s.pc.toNat : Int) + 4 + 4 * immSigned imm) % 2 ^ 32) ∧
      (s.readReg rs ≠ s.readReg rt → t.pc.toNat = (s.pc.toNat + 4) % 2 ^ 32)) ∧
    (∃ t, exec (.bne rs rt imm) s = .next t ∧ ChangesPcOnly s t ∧
      (s.readReg rs ≠ s.readReg rt → (t.pc.toNat : Int) = ((s.pc.toNat : Int) + 4 + 4 * immSigned imm) % 2 ^ 32) ∧
      (s.readReg rs = s.readReg rt → t.pc.toNat = (s.pc.toNat + 4) % 2 ^ 32))

/-- R193, R194 (derived; the timing is stated elsewhere): `J` goes to the word `jaddr` of the 256 MiB region of `pc + 4`; `JR`
goes to the value of `x[rs]`, whatever its low bits; and R197: the `BEQ`, `BNE` and `J` targets of an aligned instruction are
aligned. -/
def Obligations.JumpsSetPc : Prop :=
  (∀ w : Word, (w &&& 0xFC000000#32 = 0x08000000#32 ↔ decode w = .ok (.j (jaddrOf w))) ∧
    (w &&& 0xFC00003F#32 = 0x00000008#32 ↔ decode w = .ok (.jr (rsOf w) (rtOf w) (rdOf w) (shamtOf w)))) ∧
  (∀ jaddr (s : State), ∃ t, exec (.j jaddr) s = .next t ∧ ChangesPcOnly s t ∧
    t.pc.toNat = (s.pc.toNat + 4) % 2 ^ 32 / 2 ^ 28 * 2 ^ 28 + jaddr.toNat * 4) ∧
  (∀ rs rt rd shamt (s : State), ∃ t, exec (.jr rs rt rd shamt) s = .next t ∧ ChangesPcOnly s t ∧ t.pc = s.readReg rs) ∧
  (∀ rs rt imm jaddr (s t : State), s.pc.toNat % 4 = 0 →
    (exec (.beq rs rt imm) s = .next t ∨ exec (.bne rs rt imm) s = .next t ∨ exec (.j jaddr) s = .next t) →
    t.pc.toNat % 4 = 0)

/-- R198 (derived): the sentinel: fetch stops, the pc keeps the sentinel's address, nothing else changes; from then on the
sequential reading stays where it is. -/
def Obligations.HaltStopsFetch : Prop :=
  ∀ s : State, ∃ t, exec .halt s = .next t ∧ t = { s with fetchStopped := true } ∧ t.pc = s.pc ∧
    (∀ r, t.readReg r = s.readReg r) ∧ (∀ a, t.archRead a = s.archRead a) ∧
    (∀ n, t.back.readByte n = s.back.readByte n) ∧ sequentialStep t = .next t

/-! ### The step -/

/-- spec/00_scope.md R27, spec/44_control_transfer.md R198 (derived; log entry 1): a step of the sequential reading runs
exactly the instruction that the four bytes at the pc decode to, and adds nothing to its meaning. -/
def Obligations.StepRunsTheDecodedInstruction : Prop :=
  ∀ (s : State) (i : Instr), s.cfg.check = none → s.driver = .sequential → s.fault = .none → s.fetchStopped = false →
    s.pc.toNat < s.cfg.memSize → ¬ (s.cfg.haltOnPcZero = true ∧ s.pc = 0) →
    decodeBytes s.cfg.byteOrder s.cfg.haltWord
      [s.back.readByte (s.pc.toNat / 4 * 4), s.back.readByte (s.pc.toNat / 4 * 4 + 1),
        s.back.readByte (s.pc.toNat / 4 * 4 + 2), s.back.readByte (s.pc.toNat / 4 * 4 + 3)] = .ok (i, []) →
    step s = exec i s

/-- R198, R384, R386 (derived; log entry 8): what the sequential reading does where it runs no decoded instruction:
`HALT_ON_PC_ZERO` at 0 is the sentinel; outside the window `BusErrorFetch`; an unrecognised word `IllegalInstruction`; after a
fault or the sentinel nothing. -/
def Obligations.SequentialFetchOutcomes : Prop :=
  ∀ s : State, s.cfg.check = none → s.driver = .sequential →
    ((s.fault ≠ .none ∨ s.fetchStopped = true) → step s = .next s) ∧
    (s.fault = .none → s.fetchStopped = false → s.cfg.memSize ≤ s.pc.toNat →
      step s = .next { s with fault := .busErrorFetch, faultAddr := s.pc, faultWord := 0 }) ∧
    (s.fault = .none → s.fetchStopped = false → s.pc.toNat < s.cfg.memSize → s.cfg.haltOnPcZero = true → s.pc = 0 →
      step s = exec .halt s) ∧
    (s.fault = .none → s.fetchStopped = false → s.pc.toNat < s.cfg.memSize → ¬ (s.cfg.haltOnPcZero = true ∧ s.pc = 0) →
      (∀ i, decodeFetched s.cfg.haltWord (s.ifetchRead s.pc) ≠ .ok i) →
      step s = .next { s with fault := .illegalInstruction, faultAddr := s.pc, faultWord := s.ifetchRead s.pc })

/-- R390 (derived; log entry 2): the valid parameter sets, and for an invalid one there is no CORE: construction gives the
reason and no state. That a step of a state with such a set is refused is the model's choice. -/
def Obligations.InvalidConfigurationRefused : Prop :=
  ∀ (c : Config) (mem : Memory),
    (c.check = none ↔
      c.archMode = .pipelined ∧ (c.cacheMode = .disabled ∨ c.cacheMode = .data) ∧ c.assoc = .directMapped ∧
      (∃ k, 4 ≤ k ∧ k ≤ 32 ∧ c.memSize = 2 ^ k) ∧
      (c.cacheMode = .data →
        (∃ n o, c.numLines = 2 ^ n ∧ c.blockWords = 2 ^ o ∧ n + o ≤ 30) ∧ 4 * c.blockWords ≤ c.memSize ∧
        1 ≤ c.missPenalty ∧ 1 ≤ c.subseqPenalty ∧ 1 ≤ c.wbCapacity) ∧
      c.resetPc.toNat % 4 = 0 ∧ c.resetPc.toNat < c.memSize ∧ (c.haltOnPcZero = true → c.resetPc ≠ 0)) ∧
    (c.check = none → State.construct c mem = .ok (State.ofConfig c mem)) ∧
    (∀ e, c.check = some e → State.construct c mem = .error e ∧
      ∀ s : State, s.cfg = c → step s = .refused (.configuration e))

/-- R359, R40, R41, R393 (derived): no step changes the parameters; after a fault no step changes anything; a stopped fetch
stays stopped. The clause on `driver`, that no step changes the reading of the machine, is no rule of the spec: it is the
model's choice (log entry 1). -/
def Obligations.StickyFields : Prop :=
  ∀ s t : State, step s = .next t →
    t.cfg = s.cfg ∧ t.driver = s.driver ∧ (s.fault ≠ .none → t = s) ∧ (s.fetchStopped = true → t.fetchStopped = true)

/-! ### Reset -/

/-- R420 (as an operation, log entry 13): at reset every state element takes its reset value of R54, whatever its value before; the backing store keeps its
contents; `State.reset` is such a state. -/
def Obligations.ResetValues : Prop :=
  (∀ s : State,
    s.applyReset.readReg 0 = 0 ∧ s.applyReset.x[0] = 0 ∧
    (∀ i : Fin 31, s.applyReset.readReg (BitVec.ofNat 5 (i.val + 1)) = s.cfg.rfReset[i]) ∧
    s.applyReset.pc = s.cfg.resetPc ∧
    s.applyReset.ifid = Latch.bubble ∧ s.applyReset.idex = Latch.bubble ∧
    s.applyReset.exmem = Latch.bubble ∧ s.applyReset.memwb = Latch.bubble ∧
    (s.cfg.cacheMode = .data → s.applyReset.lines.length = s.cfg.numLines) ∧
    (∀ l ∈ s.applyReset.lines, l.valid = false ∧ l.dirty = false ∧ l.tag = 0 ∧ l.data.length = s.cfg.blockWords ∧
      ∀ v ∈ l.data, v = 0) ∧
    s.applyReset.fill = ⟨false, 0, 0, 0, 0, 0, 0⟩ ∧ s.applyReset.wbuf = [] ∧ s.applyReset.fetchStopped = false ∧
    s.applyReset.fault = .none ∧ s.applyReset.faultAddr = 0 ∧ s.applyReset.faultWord = 0 ∧
    s.applyReset.back = s.back) ∧
  State.reset = State.reset.applyReset

/-- R32, R46, R54, R317 (derived): the invariant of the machine holds right after reset, for every valid parameter set and
every loaded memory inside the window, and at `State.reset`. -/
def Obligations.ResetSatisfiesInvariant : Prop :=
  (∀ (c : Config) (mem : Memory), c.check = none → mem.Wf → mem.Within c.memSize → MachineOk (State.ofConfig c mem)) ∧
  MachineOk State.reset

/-- R32, R46, R277, R316, R317, R344, R80 (derived): every step, of either reading, keeps the invariant of the machine, from
every state that has it. -/
def Obligations.MachineInvariantKept : Prop :=
  ∀ s t : State, MachineOk s → step s = .next t → MachineOk t

/-- R32, R45, R46, R277 (derived): alone of the rest of the invariant, register 0 and the bubbles: entry 0 of the register
file keeps its value and a latch with `valid = 0` stays `BUBBLE`, at every step. -/
def Obligations.RegisterZeroAndBubblesKept : Prop :=
  ∀ s t : State, step s = .next t →
    t.x[0] = s.x[0] ∧ t.readReg 0 = 0 ∧ (BubblesOk s → BubblesOk t)

/-! ### Registers and Writeback -/

/-- R32: a read of register 0 gives 0, a write with index 0 changes nothing, a write elsewhere changes that register
alone; Decode reads the register file with this cycle's write applied. -/
def Obligations.RegisterFilePorts : Prop :=
  (∀ s : State, s.readReg 0 = 0 ∧ ∀ v, s.writeReg 0 v = s) ∧
  (∀ (s : State) (i : RegIdx) (v : Word), i ≠ 0 →
    (s.writeReg i v).readReg i = v ∧ (∀ r, r ≠ i → (s.writeReg i v).readReg r = s.readReg r) ∧
    s.writeReg i v = { s with x := (s.writeReg i v).x }) ∧
  (∀ (s : State) (r : RegIdx), rfw s r = (writeback s).readReg r) ∧
  (∀ (s : State) (r : RegIdx), s.memwb.valid = true → s.memwb.ctrl.regWrite = true → s.memwb.dest = r → r ≠ 0 →
    rfw s r = s.memwb.wbval)

/-- R250: at a clock edge of a cycle that raises no fault, `wb_dest` receives `wb_val` if `wb_en` and `wb_dest ≠ 0`; every
other register keeps its value; stalls do not matter. In a cycle that raises a fault, and in a frozen or halted state, no
register changes. -/
def Obligations.WritebackIsTheOnlyRegisterWriter : Prop :=
  ∀ s : State,
    (∀ t, s.fault = .none → s.halted = false → cycle s = .ok t → clockEdge s = t ∧
      ∀ r, t.readReg r =
        if s.memwb.valid = true ∧ s.memwb.ctrl.regWrite = true ∧ r ≠ 0 ∧
            r = (if s.memwb.ctrl.regDst then s.memwb.rd else s.memwb.rt)
        then (if s.memwb.ctrl.memToReg then s.memwb.memData else s.memwb.aluResult)
        else s.readReg r) ∧
    ((s.fault ≠ .none ∨ s.halted = true ∨ ∃ f, cycle s = .error f) → (clockEdge s).x = s.x)

/-! ### The pipeline (spec/45_pipeline_stages.md, spec/46_hazard_unit.md) -/

/-- R225, R226: what Decode resolves, and where to: `J` and `JR` always, `BEQ` and `BNE` by their operands, nothing else;
never in a stalled cycle, and never for a bubble. -/
def Obligations.TransfersResolveInDecode : Prop :=
  (∀ (s : State) (memStall : Bool) (o : DecodeOut), s.ifid.valid = false → decodeStage s memStall = .ok o →
    o.taken = false) ∧
  ∀ (s : State) (memStall : Bool) (o : DecodeOut) (i : Instr), s.ifid.valid = true → decode s.ifid.instr = .ok i →
    decodeStage s memStall = .ok o →
    (o.taken = true → memStall = false ∧ o.idStall = false) ∧
    (memStall = false → o.idStall = false →
      match i with
      | .j jaddr => o.taken = true ∧
          o.target.toNat = s.ifid.pc4.toNat / 2 ^ 28 * 2 ^ 28 + jaddr.toNat * 4
      | .jr rs _ _ _ => o.taken = true ∧ some o.target = transferOperand s rs
      | .beq rs rt imm => (o.taken = true ↔ transferOperand s rs = transferOperand s rt) ∧
          (o.taken = true → (o.target.toNat : Int) = ((s.ifid.pc4.toNat : Int) + 4 * immSigned imm) % 2 ^ 32)
      | .bne rs rt imm => (o.taken = true ↔ transferOperand s rs ≠ transferOperand s rt) ∧
          (o.taken = true → (o.target.toNat : Int) = ((s.ifid.pc4.toNat : Int) + 4 * immSigned imm) % 2 ^ 32)
      | _ => o.taken = false) ∧
    (o.prop.ctrl.branch = true ↔ o.taken = true ∧ isBranch i = true)

/-- R264: Decode stalls exactly for a load in Execute whose register the instruction reads, and for a
transfer one of whose source registers is still being produced in Execute, or is being loaded in Memory; and while it stalls
(with no memory stall) `pc` and `IFID` hold and a bubble enters Execute. -/
def Obligations.DecodeStalls : Prop :=
  ∀ (s : State) (i : Instr), s.ifid.valid = true → decode s.ifid.instr = .ok i →
    (∀ memStall o, decodeStage s memStall = .ok o →
      (o.idStall = true ↔
        (s.idex.valid = true ∧ s.idex.ctrl.memRead = true ∧ s.idex.dest ≠ 0 ∧ s.idex.dest ∈ readSet i) ∨
        (∃ r ∈ transferSources i, r ≠ 0 ∧
          ((s.idex.valid = true ∧ s.idex.ctrl.regWrite = true ∧ s.idex.dest = r) ∨
           (s.exmem.valid = true ∧ s.exmem.ctrl.regWrite = true ∧ s.exmem.dest = r ∧ s.exmem.ctrl.memRead = true))))) ∧
    (∀ req after ans o, s.fault = .none → memRequest s = .ok req → memorySide s req = .ok (after, ans) → ans ≠ .miss →
      decodeStage s false = .ok o → o.idStall = true →
      (clockEdge s).pc = s.pc ∧ (clockEdge s).ifid = s.ifid ∧ (clockEdge s).idex = Latch.bubble ∧
      (clockEdge s).exmem = exProposal s ∧ (clockEdge s).memwb = memProposal s.exmem ans)

/-- R265, R286 (derived): when Decode takes a transfer, the pc becomes the target and the word fetched behind it is dropped
before it is latched, whatever it is: a sentinel does not halt, an address outside the window does not fault; the transfer
goes on into Execute. -/
def Obligations.TakenTransferSquashes : Prop :=
  ∀ (s after : State) (req : Request) (ans : Answer) (o : DecodeOut),
    s.fault = .none → memRequest s = .ok req → memorySide s req = .ok (after, ans) →
    decodeStage s (decide (ans = .miss)) = .ok o → o.taken = true →
    (clockEdge s).pc = o.target ∧ (clockEdge s).ifid = Latch.bubble ∧ (clockEdge s).idex = o.prop ∧
    (clockEdge s).idex.instr = s.ifid.instr ∧ (clockEdge s).idex.valid = true ∧
    (clockEdge s).exmem = exProposal s ∧ (clockEdge s).memwb = memProposal s.exmem ans ∧
    (clockEdge s).fetchStopped = s.fetchStopped ∧ (clockEdge s).fault = .none

/-- R214, R212, R213 (derived): an accepted fetch inside the window either recognises the sentinel (fetch stops, a bubble enters Decode,
the pc holds) or latches the word with its `pc + 4` and moves the pc on. The word is read from the backing store as the memory
side left it. -/
def Obligations.AcceptedFetch : Prop :=
  ∀ (s after : State) (req : Request) (ans : Answer) (o : DecodeOut),
    s.fault = .none → memRequest s = .ok req → memorySide s req = .ok (after, ans) → ans ≠ .miss →
    decodeStage s false = .ok o → o.idStall = false → o.taken = false → s.fetchStopped = false →
    s.pc.toNat < s.cfg.memSize →
    ((after.backRead s.pc = s.cfg.haltWord ∨ (s.cfg.haltOnPcZero = true ∧ s.pc = 0)) →
      (clockEdge s).fetchStopped = true ∧ (clockEdge s).ifid = Latch.bubble ∧ (clockEdge s).pc = s.pc) ∧
    (¬ (after.backRead s.pc = s.cfg.haltWord ∨ (s.cfg.haltOnPcZero = true ∧ s.pc = 0)) →
      (clockEdge s).fetchStopped = false ∧ (clockEdge s).pc = s.pc + 4 ∧
      (clockEdge s).ifid = { Latch.bubble with
        valid := true, instr := after.backRead s.pc, pc4 := s.pc + 4, npc := s.pc + 4 })

/-- R266, R270: a memory stall: `pc`, `IFID` and `EXMEM` hold, so the same request is presented again; the
instruction in Execute keeps its fields but captures what forwarding gives it, which can only be Writeback's value; a bubble
goes to Writeback; the cache side has made its step. -/
def Obligations.MemoryStallHolds : Prop :=
  ∀ (s after : State) (req : Request) (o : DecodeOut), MachineOk s → s.fault = .none →
    memRequest s = .ok req → memorySide s req = .ok (after, .miss) → decodeStage s true = .ok o →
    (clockEdge s).pc = s.pc ∧ (clockEdge s).ifid = s.ifid ∧ (clockEdge s).exmem = s.exmem ∧
    (clockEdge s).memwb = Latch.bubble ∧
    (clockEdge s).idex = { s.idex with rsVal := operandA s, rtVal := operandB s } ∧
    (∀ r old, forward s r old =
      if r ≠ 0 ∧ s.memwb.valid = true ∧ s.memwb.ctrl.regWrite = true ∧ s.memwb.dest = r then s.memwb.wbval else old) ∧
    memRequest (clockEdge s) = .ok req ∧ (clockEdge s).x = (writeback s).x ∧
    (clockEdge s).lines = after.lines ∧ (clockEdge s).fill = after.fill ∧ (clockEdge s).wbuf = after.wbuf ∧
    (clockEdge s).back = after.back

/-- R230, R231, R232, R233 (derived): the Execute stage computes, on the operands forwarded from the youngest older writer,
the same values as the sequential meanings: for every instruction that writes a register without loading, what Execute puts
into `aluResult` is what `exec` writes, in a state whose registers read as the operands Execute sees. -/
def Obligations.ExecuteAgreesWithMeaning : Prop :=
  ∀ (s u : State) (i : Instr) (d : RegIdx), s.idex.valid = true → s.idex.Decoded → decode s.idex.instr = .ok i →
    destOf i = some d → d ≠ 0 → (∀ rs rt imm, i ≠ .lw rs rt imm) →
    (∀ r ∈ readSet i, (r = rsOf s.idex.instr → u.readReg r = operandA s) ∧ (r = rtOf s.idex.instr → u.readReg r = operandB s)) →
    ∃ t, exec i u = .next t ∧ t.readReg d = (exProposal s).aluResult ∧ (exProposal s).dest = d

/-! ### Halting and faults -/

/-- R357 (derived): in a halted state the cycle is the identity, even without step 0 of R350, and so is every number of clock edges. -/
def Obligations.HaltedIsAFixedPoint : Prop :=
  ∀ s : State, MachineOk s → s.halted = true → cycle s = .ok s ∧ ∀ n, clockEdges n s = s

/-- R383: in the cycle that raises a fault only the three fault fields change; in every later cycle nothing does; `halted`
stays 0. -/
def Obligations.FaultFreezesTheMachine : Prop :=
  ∀ (s : State) (f : FaultInfo), s.fault = .none → s.halted = false → cycle s = .error f →
    clockEdge s = { s with fault := f.code, faultAddr := f.addr, faultWord := f.word } ∧
    f.code ≠ .none ∧ (∀ n, clockEdges n (clockEdge s) = clockEdge s) ∧ (clockEdge s).halted = false

/-- R385: a data access at or above `MEM_SIZE` in the Memory stage freezes the machine with `BusErrorData`, the full address
and the instruction's word, before anything of the cycle takes effect; with `MEM_SIZE = 2^32` it cannot occur. -/
def Obligations.BusErrorDataRaised : Prop :=
  ∀ s : State, s.fault = .none →
    (s.exmem.valid = true → (s.exmem.ctrl.memRead = true ∨ s.exmem.ctrl.memWrite = true) →
      s.cfg.memSize ≤ s.exmem.aluResult.toNat →
      clockEdge s = { s with fault := .busErrorData, faultAddr := s.exmem.aluResult, faultWord := s.exmem.instr }) ∧
    ((clockEdge s).fault = .busErrorData →
      s.exmem.valid = true ∧ (s.exmem.ctrl.memRead = true ∨ s.exmem.ctrl.memWrite = true) ∧
      s.cfg.memSize ≤ s.exmem.aluResult.toNat) ∧
    (s.cfg.memSize = 2 ^ 32 → (clockEdge s).fault ≠ .busErrorData)

/-- R384, R389 (derived): an unrecognised word in a valid `IFID` raises `IllegalInstruction` with its address and the word,
whatever stalls are active and whatever the fetch of the same cycle would raise, unless an older `BusErrorData` holds; nothing
else raises it. -/
def Obligations.IllegalInstructionRaised : Prop :=
  ∀ s : State, s.cfg.check = none → MachineOk s → s.fault = .none →
    (s.ifid.valid = true → (∀ i, decode s.ifid.instr ≠ .ok i) →
      ¬ (s.exmem.valid = true ∧ (s.exmem.ctrl.memRead = true ∨ s.exmem.ctrl.memWrite = true) ∧
        s.cfg.memSize ≤ s.exmem.aluResult.toNat) →
      clockEdge s = { s with
        fault := .illegalInstruction, faultAddr := s.ifid.pc4 - 4, faultWord := s.ifid.instr }) ∧
    ((clockEdge s).fault = .illegalInstruction → s.ifid.valid = true ∧ ∀ i, decode s.ifid.instr ≠ .ok i)

/-- R386, R213 (derived): an accepted fetch at or above `MEM_SIZE` raises `BusErrorFetch` with the pc; a fetch that is not
accepted (fetch stopped, a stall, a taken transfer) raises nothing. -/
def Obligations.BusErrorFetchRaised : Prop :=
  ∀ (s after : State) (req : Request) (ans : Answer) (o : DecodeOut), s.fault = .none → s.halted = false →
    memRequest s = .ok req → memorySide s req = .ok (after, ans) → decodeStage s (decide (ans = .miss)) = .ok o →
    ((s.fetchStopped = false ∧ ans ≠ .miss ∧ o.idStall = false ∧ o.taken = false ∧ s.cfg.memSize ≤ s.pc.toNat) →
      clockEdge s = { s with fault := .busErrorFetch, faultAddr := s.pc, faultWord := 0 }) ∧
    (¬ (s.fetchStopped = false ∧ ans ≠ .miss ∧ o.idStall = false ∧ o.taken = false ∧ s.cfg.memSize ≤ s.pc.toNat) →
      (clockEdge s).fault = .none)

/-- R387, R295, R313 (derived): the cache controller's checks never fail: `InternalInvariant` is raised from no state that has
the invariant. -/
def Obligations.InternalInvariantUnreachable : Prop :=
  ∀ s : State, s.cfg.check = none → MachineOk s →
    (∀ req, req.inWindow s.cfg → ∃ t ans, memorySide s req = .ok (t, ans)) ∧
    (s.fault = .none → (clockEdge s).fault ≠ .internalInvariant)

/-! ### Cache (spec/47_cache_controller.md, spec/48_write_buffer.md) -/

/-- R292, R294: the address decomposition rebuilds the address, its fields stay in their ranges, and the block base is
the line address of its tag and index. -/
def Obligations.AddressDecomposition : Prop :=
  ∀ (c : Config) (a : Word), c.check = none → c.cacheMode = .data →
    c.tag a * 2 ^ (c.indexBits + c.offsetBits + 2) + c.index a * 2 ^ (c.offsetBits + 2) + c.offset a * 4 + byteField a =
      a.toNat ∧
    c.index a < c.numLines ∧ c.offset a < c.blockWords ∧ c.tag a < 2 ^ c.tagBits ∧
    (BitVec.ofNat 32 (c.tag a) <<< (c.indexBits + c.offsetBits + 2) |||
      BitVec.ofNat 32 (c.index a) <<< (c.offsetBits + 2) ||| BitVec.ofNat 32 (c.offset a) <<< 2 |||
      BitVec.ofNat 32 (byteField a)) = a ∧
    c.blockBase a = c.lineAddr (c.tag a) (c.index a)

/-- R293: the masks cover every bit with the two byte bits, and are pairwise disjoint. -/
def Obligations.GeometryMasks : Prop :=
  ∀ c : Config, c.check = none → c.cacheMode = .data →
    c.tagMask ||| c.indexMask ||| c.offsetMask ||| 0b11#32 = 0xFFFFFFFF#32 ∧
    c.tagMask &&& c.indexMask = 0 ∧ c.tagMask &&& c.offsetMask = 0 ∧ c.indexMask &&& c.offsetMask = 0 ∧
    c.offsetMask.toNat = (c.blockWords - 1) * 4 ∧ c.indexMask.toNat = (c.numLines - 1) * 2 ^ (c.offsetBits + 2) ∧
    (∀ k < 32, c.tagMask.getLsbD k = decide (c.indexBits + c.offsetBits + 2 ≤ k))

/-- R73: every access ignores the two low address bits, of the cache, of the uncached path and of the fetch alike. -/
def Obligations.LowAddressBitsIgnored : Prop :=
  ∀ (s : State) (a b v : Word), s.cfg.check = none → MachineOk s → wordIndex a = wordIndex b →
    s.archRead a = s.archRead b ∧ s.archWrite a v = s.archWrite b v ∧ s.ifetchRead a = s.ifetchRead b ∧
    memorySide s (.read a) = memorySide s (.read b) ∧ memorySide s (.write a v) = memorySide s (.write b v)

/-- R320: right after reset every address misses. -/
def Obligations.FreshCacheMisses : Prop :=
  ∀ (c : Config) (mem : Memory) (a v : Word), c.check = none → c.cacheMode = .data → a.toNat < c.memSize →
    (∃ t, memorySide (State.ofConfig c mem) (.read a) = .ok (t, .miss)) ∧
    (∃ t, memorySide (State.ofConfig c mem) (.write a v) = .ok (t, .miss))

/-- R301, R302, R303: a hit, on the state `m` after the drain and the fill tick. A read hit gives the line's word and
changes nothing. A write hit stores the word in the line and nothing else under `write_back`, which marks the line dirty;
under `write_through` the dirty bit stays and the same word of the backing store is written. -/
def Obligations.CacheHits : Prop :=
  ∀ (m : State) (a v : Word) (l : Line), m.lines[m.cfg.index a]? = some l → l.valid = true → l.tag = m.cfg.tag a →
    m.wordReady a = true →
    access m a none = .ok (m, .hit (wordAt l.data (m.cfg.offset a))) ∧
    (m.cfg.writePolicy = .writeBack → access m a (some v) = .ok ({ m with
      lines := m.lines.set (m.cfg.index a) { l with data := l.data.set (m.cfg.offset a) v, dirty := true } }, .hit v)) ∧
    (m.cfg.writePolicy = .writeThrough → m.back.Wf →
      ∃ t, access m a (some v) = .ok (t, .hit v) ∧
        t.lines = m.lines.set (m.cfg.index a) { l with data := l.data.set (m.cfg.offset a) v } ∧
        t.backRead a = v ∧ (∀ b, wordIndex b ≠ wordIndex a → t.backRead b = m.backRead b) ∧
        t = { m with lines := t.lines, back := t.back })

/-- R306, R307: a miss with no fill active begins a fill of the whole block, whatever the access; a valid dirty victim
goes to the write buffer once, another is dropped; the victim line becomes invalid and clean and keeps its tag and data. -/
def Obligations.MissEvictsAndStartsFill : Prop :=
  ∀ (s m : State) (a : Word) (store : Option Word) (l : Line), s.cfg.check = none → s.cfg.cached = true → MachineOk s →
    fillTick (drainOne s) = .ok m → classify m a = .missIdle → m.lines[m.cfg.index a]? = some l →
    ∃ t, access m a store = .ok (t, .miss) ∧
      t.fill = ⟨true, s.cfg.blockBase a, s.cfg.index a, s.cfg.tag a, 0, 0, s.cfg.missPenalty⟩ ∧
      t.wbuf = (if l.valid = true ∧ l.dirty = true then
        [⟨s.cfg.lineAddr l.tag (s.cfg.index a), l.data, l.tag, s.cfg.index a⟩] else []) ∧
      t.lines[s.cfg.index a]? = some { l with valid := false, dirty := false } ∧
      (∀ k, k ≠ s.cfg.index a → t.lines[k]? = m.lines[k]?) ∧
      t.back = m.back

/-- R342: a full buffer refuses and keeps its contents, and a controller that must evict into it changes nothing
and answers `MISS`; a buffer with room takes the entry at its end. -/
def Obligations.FullWriteBuffer : Prop :=
  (∀ n buf e, buf.length < n → enqueue n buf e = some (buf ++ [e])) ∧
  (∀ n buf e, n ≤ buf.length → enqueue n buf e = none) ∧
  (∀ (m : State) (a : Word) (store : Option Word) (l : Line), m.lines[m.cfg.index a]? = some l → l.valid = true →
    l.dirty = true → l.tag ≠ m.cfg.tag a → m.fill.active = false → m.wbuf.length = m.cfg.wbCapacity →
    access m a store = .ok (m, .miss))

/-- R343: the drain writes the whole oldest entry to its block of the backing store, word by word, nothing else there, and
removes it; an empty buffer does nothing. -/
def Obligations.DrainWritesOldestLine : Prop :=
  ∀ s : State, s.back.Wf →
    (s.wbuf = [] → drainOne s = s) ∧
    (∀ e rest, s.wbuf = e :: rest → e.addr.toNat % 4 = 0 → e.addr.toNat + 4 * e.data.length ≤ 2 ^ 32 →
      (drainOne s).wbuf = rest ∧ drainOne s = { s with wbuf := rest, back := (drainOne s).back } ∧
      (∀ k (h : k < e.data.length), (drainOne s).backRead (e.addr + BitVec.ofNat 32 (4 * k)) = e.data[k]) ∧
      (∀ n, (n < e.addr.toNat ∨ e.addr.toNat + 4 * e.data.length ≤ n) →
        (drainOne s).back.readByte n = s.back.readByte n))

/-- R344 (derived): from every state with at most one buffered entry the eviction of the cycle finds room, and at most one entry is
buffered after the cycle, for every capacity. -/
def Obligations.WriteBufferOccupancy : Prop :=
  ∀ (s t : State) (req : Request) (ans : Answer), s.cfg.cached = true → 1 ≤ s.cfg.wbCapacity → s.wbuf.length ≤ 1 →
    memorySide s req = .ok (t, ans) →
    t.wbuf.length ≤ 1 ∧
    (∀ m a l, fillTick (drainOne s) = .ok m → evict m (m.cfg.index a) l ≠ none)

/-- R345 (derived): no stale read: whatever a read hit returns is the word of `ArchMem` before the cycle. -/
def Obligations.ReadHitReturnsArchMem : Prop :=
  ∀ (s t : State) (a d : Word), s.cfg.check = none → MachineOk s → a.toNat < s.cfg.memSize →
    memorySide s (.read a) = .ok (t, .hit d) → d = s.archRead a

/-- R76, R86, R305, R345 (derived): the memory side changes `ArchMem` only by a write that hits, and only that word: draining,
filling, evicting and reading leave it as it is. -/
def Obligations.ArchMemChangesOnlyByWriteHits : Prop :=
  ∀ (s t : State) (req : Request) (ans : Answer), s.cfg.check = none → MachineOk s → req.inWindow s.cfg →
    memorySide s req = .ok (t, ans) →
    (∀ a v, req = .write a v → (∃ d, ans = .hit d) →
      ∀ b, t.archRead b = if wordIndex b = wordIndex a then v else s.archRead b) ∧
    ((ans = .miss ∨ ∀ a v, req ≠ .write a v) → ∀ b, t.archRead b = s.archRead b)

/-- R310 to R312, R318 item 1 (derived): the fill that a missing request starts in cycle 0 runs on the clock, whatever is
presented meanwhile: word `j` lands in cycle `P + j*S`, and it is active until the last word has landed. -/
def Obligations.FillTimeline : Prop :=
  ∀ (s : State) (a : Word) (reqs : Nat → Request), s.cfg.check = none → MachineOk s → (∀ n, (reqs n).inWindow s.cfg) →
    (reqs 0).addr = some a → MissIdle s a →
    ∀ n, n < s.cfg.missPenalty + (s.cfg.blockWords - 1) * s.cfg.subseqPenalty →
      ∃ t, memoryAfter reqs (n + 1) s = some t ∧ t.fill.active = true ∧ t.fill.base = s.cfg.blockBase a ∧
        t.fill.word = (if n < s.cfg.missPenalty then 0 else (n - s.cfg.missPenalty) / s.cfg.subseqPenalty + 1)

/-- R318 items 2 and 3 (derived): a request classified `MISS-IDLE` in cycle 0 and presented again until it hits misses in
cycles 0 to `P + k*S - 1` and hits in cycle `P + k*S`, a read with the word of `ArchMem`; after `P + (W - 1)*S` cycles of the
same request no fill is active. -/
def Obligations.MissTakesExactlyItsPenalty : Prop :=
  ∀ (s : State) (a : Word) (req : Request), s.cfg.check = none → MachineOk s → a.toNat < s.cfg.memSize →
    (req = .read a ∨ ∃ v, req = .write a v) → MissIdle s a →
    (∀ n, n < s.cfg.missPenalty + s.cfg.offset a * s.cfg.subseqPenalty → memoryAnswer (fun _ => req) n s = some .miss) ∧
    (∃ d, memoryAnswer (fun _ => req) (s.cfg.missPenalty + s.cfg.offset a * s.cfg.subseqPenalty) s = some (.hit d) ∧
      (req = .read a → d = s.archRead a)) ∧
    (∃ t, memoryAfter (fun _ => req) (s.cfg.missPenalty + (s.cfg.blockWords - 1) * s.cfg.subseqPenalty + 1) s = some t ∧
      t.fill.active = false)

/-! ### Backing store -/

/-- R53, R77, R78, R72 (derived; log entries 5 and 6): a word read from the backing store is the last word written there, in
either byte order, other words keep their values, and a write keeps the canonical form of the list and stays in the window. -/
def Obligations.BackingStoreWords : Prop :=
  ∀ (s : State) (a b v : Word), s.back.Wf →
    (s.backWrite a v).backRead b = (if wordIndex b = wordIndex a then v else s.backRead b) ∧
    (s.backWrite a v).back.Wf ∧
    (s.back.Within s.cfg.memSize → s.cfg.check = none → a.toNat < s.cfg.memSize →
      (s.backWrite a v).back.Within s.cfg.memSize) ∧
    (s.backWrite a (s.backRead a)).back = s.back

/-- R92 (derived): with the cache disabled every access hits in its own cycle, on the backing store, and `ArchMem` is the
backing store. -/
def Obligations.UncachedPath : Prop :=
  ∀ (s : State) (a v : Word), s.cfg.cacheMode = .disabled →
    memorySide s (.read a) = .ok (s, .hit (s.backRead a)) ∧
    memorySide s (.write a v) = .ok (s.backWrite a v, .hit v) ∧
    s.archRead a = s.backRead a ∧
    (∀ req t, memorySide s req ≠ .ok (t, .miss))

/-! ### Whole programs -/

/-- R198 (derived): a program that is the sentinel alone, for every valid parameter set: after one clock edge the machine is
halted, the pc is the sentinel's address, and no register and no word of memory has changed. -/
def Obligations.SentinelAloneHaltsInOneCycle : Prop :=
  ∀ (c : Config) (mem : Memory), c.check = none → mem.readWord c.byteOrder (wordIndex c.resetPc) = c.haltWord →
    (clockEdge (State.ofConfig c mem)).halted = true ∧
    clockEdge (State.ofConfig c mem) = { State.ofConfig c mem with fetchStopped := true }

/-- R285 (derived; a write with index 0 is no register write, log entry 17): let a program run from reset until `halted`,
raising no fault and obeying R441 (the sequential run fetches no word it has stored to). Then the register writes of Writeback and the data accesses that hit are those of the instructions executed
one at a time, and at `halted` the registers and `ArchMem` are the sequential end state. -/
def Obligations.PipelineAgreesWithSequentialMeaning : Prop :=
  ∀ (c : Config) (mem : Memory) (n : Nat), c.check = none → mem.Wf → mem.Within c.memSize →
    (clockEdges n (State.ofConfig c mem)).halted = true → NeverFetchesStored (seqStart c mem) →
    ∃ k t, runSteps k (seqStart c mem) = .next t ∧ t.ended = true ∧
      traceOf clockRegWrites n (State.ofConfig c mem) = traceOf seqRegWrites k (seqStart c mem) ∧
      traceOf clockAccesses n (State.ofConfig c mem) = traceOf seqAccesses k (seqStart c mem) ∧
      (∀ r, (clockEdges n (State.ofConfig c mem)).readReg r = t.readReg r) ∧
      (∀ a, (clockEdges n (State.ofConfig c mem)).archRead a = t.archRead a) ∧
      (clockEdges n (State.ofConfig c mem)).pc = t.pc

end Statements
end

