-- ==== Sys2Proof/Laws/State.lean ====
section
/-! SUPPORT. One lemma for each field of the state under each shared update, so that no proof unfolds a record update. -/

namespace Sys2Proof.Machine

open Sys2Proof

variable (s : State)

/-! ### setPc -/

@[simp] theorem State.setPc_cfg (t : Word) : (s.setPc t).cfg = s.cfg := rfl
@[simp] theorem State.setPc_driver (t : Word) : (s.setPc t).driver = s.driver := rfl
@[simp] theorem State.setPc_x (t : Word) : (s.setPc t).x = s.x := rfl
@[simp] theorem State.setPc_pc (t : Word) : (s.setPc t).pc = t := rfl
@[simp] theorem State.setPc_ifid (t : Word) : (s.setPc t).ifid = s.ifid := rfl
@[simp] theorem State.setPc_idex (t : Word) : (s.setPc t).idex = s.idex := rfl
@[simp] theorem State.setPc_exmem (t : Word) : (s.setPc t).exmem = s.exmem := rfl
@[simp] theorem State.setPc_memwb (t : Word) : (s.setPc t).memwb = s.memwb := rfl
@[simp] theorem State.setPc_lines (t : Word) : (s.setPc t).lines = s.lines := rfl
@[simp] theorem State.setPc_fill (t : Word) : (s.setPc t).fill = s.fill := rfl
@[simp] theorem State.setPc_wbuf (t : Word) : (s.setPc t).wbuf = s.wbuf := rfl
@[simp] theorem State.setPc_fetchStopped (t : Word) : (s.setPc t).fetchStopped = s.fetchStopped := rfl
@[simp] theorem State.setPc_fault (t : Word) : (s.setPc t).fault = s.fault := rfl
@[simp] theorem State.setPc_faultAddr (t : Word) : (s.setPc t).faultAddr = s.faultAddr := rfl
@[simp] theorem State.setPc_faultWord (t : Word) : (s.setPc t).faultWord = s.faultWord := rfl
@[simp] theorem State.setPc_back (t : Word) : (s.setPc t).back = s.back := rfl

/-! ### writeReg -/

@[simp] theorem State.writeReg_cfg (i : RegIdx) (v : Word) : (s.writeReg i v).cfg = s.cfg := by
  unfold State.writeReg; split <;> rfl
@[simp] theorem State.writeReg_driver (i : RegIdx) (v : Word) : (s.writeReg i v).driver = s.driver := by
  unfold State.writeReg; split <;> rfl
@[simp] theorem State.writeReg_pc (i : RegIdx) (v : Word) : (s.writeReg i v).pc = s.pc := by
  unfold State.writeReg; split <;> rfl
@[simp] theorem State.writeReg_ifid (i : RegIdx) (v : Word) : (s.writeReg i v).ifid = s.ifid := by
  unfold State.writeReg; split <;> rfl
@[simp] theorem State.writeReg_idex (i : RegIdx) (v : Word) : (s.writeReg i v).idex = s.idex := by
  unfold State.writeReg; split <;> rfl
@[simp] theorem State.writeReg_exmem (i : RegIdx) (v : Word) : (s.writeReg i v).exmem = s.exmem := by
  unfold State.writeReg; split <;> rfl
@[simp] theorem State.writeReg_memwb (i : RegIdx) (v : Word) : (s.writeReg i v).memwb = s.memwb := by
  unfold State.writeReg; split <;> rfl
@[simp] theorem State.writeReg_lines (i : RegIdx) (v : Word) : (s.writeReg i v).lines = s.lines := by
  unfold State.writeReg; split <;> rfl
@[simp] theorem State.writeReg_fill (i : RegIdx) (v : Word) : (s.writeReg i v).fill = s.fill := by
  unfold State.writeReg; split <;> rfl
@[simp] theorem State.writeReg_wbuf (i : RegIdx) (v : Word) : (s.writeReg i v).wbuf = s.wbuf := by
  unfold State.writeReg; split <;> rfl
@[simp] theorem State.writeReg_fetchStopped (i : RegIdx) (v : Word) : (s.writeReg i v).fetchStopped = s.fetchStopped := by
  unfold State.writeReg; split <;> rfl
@[simp] theorem State.writeReg_fault (i : RegIdx) (v : Word) : (s.writeReg i v).fault = s.fault := by
  unfold State.writeReg; split <;> rfl
@[simp] theorem State.writeReg_faultAddr (i : RegIdx) (v : Word) : (s.writeReg i v).faultAddr = s.faultAddr := by
  unfold State.writeReg; split <;> rfl
@[simp] theorem State.writeReg_faultWord (i : RegIdx) (v : Word) : (s.writeReg i v).faultWord = s.faultWord := by
  unfold State.writeReg; split <;> rfl
@[simp] theorem State.writeReg_back (i : RegIdx) (v : Word) : (s.writeReg i v).back = s.back := by
  unfold State.writeReg; split <;> rfl

/-! ### writeResult -/

@[simp] theorem State.writeResult_cfg (i : RegIdx) (v : Word) : (s.writeResult i v).cfg = s.cfg := by
  simp [State.writeResult]
@[simp] theorem State.writeResult_driver (i : RegIdx) (v : Word) : (s.writeResult i v).driver = s.driver := by
  simp [State.writeResult]
@[simp] theorem State.writeResult_x (i : RegIdx) (v : Word) : (s.writeResult i v).x = (s.writeReg i v).x := by
  simp [State.writeResult]
@[simp] theorem State.writeResult_pc (i : RegIdx) (v : Word) : (s.writeResult i v).pc = s.pc4 := by
  simp [State.writeResult]
@[simp] theorem State.writeResult_ifid (i : RegIdx) (v : Word) : (s.writeResult i v).ifid = s.ifid := by
  simp [State.writeResult]
@[simp] theorem State.writeResult_idex (i : RegIdx) (v : Word) : (s.writeResult i v).idex = s.idex := by
  simp [State.writeResult]
@[simp] theorem State.writeResult_exmem (i : RegIdx) (v : Word) : (s.writeResult i v).exmem = s.exmem := by
  simp [State.writeResult]
@[simp] theorem State.writeResult_memwb (i : RegIdx) (v : Word) : (s.writeResult i v).memwb = s.memwb := by
  simp [State.writeResult]
@[simp] theorem State.writeResult_lines (i : RegIdx) (v : Word) : (s.writeResult i v).lines = s.lines := by
  simp [State.writeResult]
@[simp] theorem State.writeResult_fill (i : RegIdx) (v : Word) : (s.writeResult i v).fill = s.fill := by
  simp [State.writeResult]
@[simp] theorem State.writeResult_wbuf (i : RegIdx) (v : Word) : (s.writeResult i v).wbuf = s.wbuf := by
  simp [State.writeResult]
@[simp] theorem State.writeResult_fetchStopped (i : RegIdx) (v : Word) : (s.writeResult i v).fetchStopped = s.fetchStopped := by
  simp [State.writeResult]
@[simp] theorem State.writeResult_fault (i : RegIdx) (v : Word) : (s.writeResult i v).fault = s.fault := by
  simp [State.writeResult]
@[simp] theorem State.writeResult_faultAddr (i : RegIdx) (v : Word) : (s.writeResult i v).faultAddr = s.faultAddr := by
  simp [State.writeResult]
@[simp] theorem State.writeResult_faultWord (i : RegIdx) (v : Word) : (s.writeResult i v).faultWord = s.faultWord := by
  simp [State.writeResult]
@[simp] theorem State.writeResult_back (i : RegIdx) (v : Word) : (s.writeResult i v).back = s.back := by
  simp [State.writeResult]

/-! ### backWrite -/

@[simp] theorem State.backWrite_cfg (a v : Word) : (s.backWrite a v).cfg = s.cfg := rfl
@[simp] theorem State.backWrite_driver (a v : Word) : (s.backWrite a v).driver = s.driver := rfl
@[simp] theorem State.backWrite_x (a v : Word) : (s.backWrite a v).x = s.x := rfl
@[simp] theorem State.backWrite_pc (a v : Word) : (s.backWrite a v).pc = s.pc := rfl
@[simp] theorem State.backWrite_ifid (a v : Word) : (s.backWrite a v).ifid = s.ifid := rfl
@[simp] theorem State.backWrite_idex (a v : Word) : (s.backWrite a v).idex = s.idex := rfl
@[simp] theorem State.backWrite_exmem (a v : Word) : (s.backWrite a v).exmem = s.exmem := rfl
@[simp] theorem State.backWrite_memwb (a v : Word) : (s.backWrite a v).memwb = s.memwb := rfl
@[simp] theorem State.backWrite_lines (a v : Word) : (s.backWrite a v).lines = s.lines := rfl
@[simp] theorem State.backWrite_fill (a v : Word) : (s.backWrite a v).fill = s.fill := rfl
@[simp] theorem State.backWrite_wbuf (a v : Word) : (s.backWrite a v).wbuf = s.wbuf := rfl
@[simp] theorem State.backWrite_fetchStopped (a v : Word) : (s.backWrite a v).fetchStopped = s.fetchStopped := rfl
@[simp] theorem State.backWrite_fault (a v : Word) : (s.backWrite a v).fault = s.fault := rfl
@[simp] theorem State.backWrite_faultAddr (a v : Word) : (s.backWrite a v).faultAddr = s.faultAddr := rfl
@[simp] theorem State.backWrite_faultWord (a v : Word) : (s.backWrite a v).faultWord = s.faultWord := rfl
@[simp] theorem State.backWrite_back (a v : Word) : (s.backWrite a v).back = s.back.writeWord s.cfg.byteOrder (wordIndex a) v := rfl

/-! ### raise -/

@[simp] theorem State.raise_cfg (f : FaultInfo) : (s.raise f).cfg = s.cfg := by
  unfold State.raise; split <;> rfl
@[simp] theorem State.raise_driver (f : FaultInfo) : (s.raise f).driver = s.driver := by
  unfold State.raise; split <;> rfl
@[simp] theorem State.raise_x (f : FaultInfo) : (s.raise f).x = s.x := by
  unfold State.raise; split <;> rfl
@[simp] theorem State.raise_pc (f : FaultInfo) : (s.raise f).pc = s.pc := by
  unfold State.raise; split <;> rfl
@[simp] theorem State.raise_ifid (f : FaultInfo) : (s.raise f).ifid = s.ifid := by
  unfold State.raise; split <;> rfl
@[simp] theorem State.raise_idex (f : FaultInfo) : (s.raise f).idex = s.idex := by
  unfold State.raise; split <;> rfl
@[simp] theorem State.raise_exmem (f : FaultInfo) : (s.raise f).exmem = s.exmem := by
  unfold State.raise; split <;> rfl
@[simp] theorem State.raise_memwb (f : FaultInfo) : (s.raise f).memwb = s.memwb := by
  unfold State.raise; split <;> rfl
@[simp] theorem State.raise_lines (f : FaultInfo) : (s.raise f).lines = s.lines := by
  unfold State.raise; split <;> rfl
@[simp] theorem State.raise_fill (f : FaultInfo) : (s.raise f).fill = s.fill := by
  unfold State.raise; split <;> rfl
@[simp] theorem State.raise_wbuf (f : FaultInfo) : (s.raise f).wbuf = s.wbuf := by
  unfold State.raise; split <;> rfl
@[simp] theorem State.raise_fetchStopped (f : FaultInfo) : (s.raise f).fetchStopped = s.fetchStopped := by
  unfold State.raise; split <;> rfl
@[simp] theorem State.raise_fault (f : FaultInfo) : (s.raise f).fault = if s.fault = .none then f.code else s.fault := by
  unfold State.raise; split <;> rfl
@[simp] theorem State.raise_faultAddr (f : FaultInfo) : (s.raise f).faultAddr = if s.fault = .none then f.addr else s.faultAddr := by
  unfold State.raise; split <;> rfl
@[simp] theorem State.raise_faultWord (f : FaultInfo) : (s.raise f).faultWord = if s.fault = .none then f.word else s.faultWord := by
  unfold State.raise; split <;> rfl
@[simp] theorem State.raise_back (f : FaultInfo) : (s.raise f).back = s.back := by
  unfold State.raise; split <;> rfl

/-! ### storeHit -/

@[simp] theorem State.storeHit_cfg (a : Word) (l : Line) (v : Word) : (s.storeHit a l v).cfg = s.cfg := by
  unfold State.storeHit; cases s.cfg.writePolicy <;> rfl
@[simp] theorem State.storeHit_driver (a : Word) (l : Line) (v : Word) : (s.storeHit a l v).driver = s.driver := by
  unfold State.storeHit; cases s.cfg.writePolicy <;> rfl
@[simp] theorem State.storeHit_x (a : Word) (l : Line) (v : Word) : (s.storeHit a l v).x = s.x := by
  unfold State.storeHit; cases s.cfg.writePolicy <;> rfl
@[simp] theorem State.storeHit_pc (a : Word) (l : Line) (v : Word) : (s.storeHit a l v).pc = s.pc := by
  unfold State.storeHit; cases s.cfg.writePolicy <;> rfl
@[simp] theorem State.storeHit_ifid (a : Word) (l : Line) (v : Word) : (s.storeHit a l v).ifid = s.ifid := by
  unfold State.storeHit; cases s.cfg.writePolicy <;> rfl
@[simp] theorem State.storeHit_idex (a : Word) (l : Line) (v : Word) : (s.storeHit a l v).idex = s.idex := by
  unfold State.storeHit; cases s.cfg.writePolicy <;> rfl
@[simp] theorem State.storeHit_exmem (a : Word) (l : Line) (v : Word) : (s.storeHit a l v).exmem = s.exmem := by
  unfold State.storeHit; cases s.cfg.writePolicy <;> rfl
@[simp] theorem State.storeHit_memwb (a : Word) (l : Line) (v : Word) : (s.storeHit a l v).memwb = s.memwb := by
  unfold State.storeHit; cases s.cfg.writePolicy <;> rfl
@[simp] theorem State.storeHit_fill (a : Word) (l : Line) (v : Word) : (s.storeHit a l v).fill = s.fill := by
  unfold State.storeHit; cases s.cfg.writePolicy <;> rfl
@[simp] theorem State.storeHit_wbuf (a : Word) (l : Line) (v : Word) : (s.storeHit a l v).wbuf = s.wbuf := by
  unfold State.storeHit; cases s.cfg.writePolicy <;> rfl
@[simp] theorem State.storeHit_fetchStopped (a : Word) (l : Line) (v : Word) : (s.storeHit a l v).fetchStopped = s.fetchStopped := by
  unfold State.storeHit; cases s.cfg.writePolicy <;> rfl
@[simp] theorem State.storeHit_fault (a : Word) (l : Line) (v : Word) : (s.storeHit a l v).fault = s.fault := by
  unfold State.storeHit; cases s.cfg.writePolicy <;> rfl
@[simp] theorem State.storeHit_faultAddr (a : Word) (l : Line) (v : Word) : (s.storeHit a l v).faultAddr = s.faultAddr := by
  unfold State.storeHit; cases s.cfg.writePolicy <;> rfl
@[simp] theorem State.storeHit_faultWord (a : Word) (l : Line) (v : Word) : (s.storeHit a l v).faultWord = s.faultWord := by
  unfold State.storeHit; cases s.cfg.writePolicy <;> rfl

/-! ### archWrite -/

@[simp] theorem State.archWrite_cfg (a v : Word) : (s.archWrite a v).cfg = s.cfg := by
  unfold State.archWrite; split
  · split
    · simp
    · split <;> rfl
  · rfl
@[simp] theorem State.archWrite_driver (a v : Word) : (s.archWrite a v).driver = s.driver := by
  unfold State.archWrite; split
  · split
    · simp
    · split <;> rfl
  · rfl
@[simp] theorem State.archWrite_x (a v : Word) : (s.archWrite a v).x = s.x := by
  unfold State.archWrite; split
  · split
    · simp
    · split <;> rfl
  · rfl
@[simp] theorem State.archWrite_pc (a v : Word) : (s.archWrite a v).pc = s.pc := by
  unfold State.archWrite; split
  · split
    · simp
    · split <;> rfl
  · rfl
@[simp] theorem State.archWrite_ifid (a v : Word) : (s.archWrite a v).ifid = s.ifid := by
  unfold State.archWrite; split
  · split
    · simp
    · split <;> rfl
  · rfl
@[simp] theorem State.archWrite_idex (a v : Word) : (s.archWrite a v).idex = s.idex := by
  unfold State.archWrite; split
  · split
    · simp
    · split <;> rfl
  · rfl
@[simp] theorem State.archWrite_exmem (a v : Word) : (s.archWrite a v).exmem = s.exmem := by
  unfold State.archWrite; split
  · split
    · simp
    · split <;> rfl
  · rfl
@[simp] theorem State.archWrite_memwb (a v : Word) : (s.archWrite a v).memwb = s.memwb := by
  unfold State.archWrite; split
  · split
    · simp
    · split <;> rfl
  · rfl
@[simp] theorem State.archWrite_fill (a v : Word) : (s.archWrite a v).fill = s.fill := by
  unfold State.archWrite; split
  · split
    · simp
    · split <;> rfl
  · rfl
@[simp] theorem State.archWrite_fetchStopped (a v : Word) : (s.archWrite a v).fetchStopped = s.fetchStopped := by
  unfold State.archWrite; split
  · split
    · simp
    · split <;> rfl
  · rfl
@[simp] theorem State.archWrite_fault (a v : Word) : (s.archWrite a v).fault = s.fault := by
  unfold State.archWrite; split
  · split
    · simp
    · split <;> rfl
  · rfl
@[simp] theorem State.archWrite_faultAddr (a v : Word) : (s.archWrite a v).faultAddr = s.faultAddr := by
  unfold State.archWrite; split
  · split
    · simp
    · split <;> rfl
  · rfl
@[simp] theorem State.archWrite_faultWord (a v : Word) : (s.archWrite a v).faultWord = s.faultWord := by
  unfold State.archWrite; split
  · split
    · simp
    · split <;> rfl
  · rfl

/-! ### writeBlock, drainOne -/

@[simp] theorem State.writeBlock_cfg (a : Word) (vs : List Word) : (s.writeBlock a vs).cfg = s.cfg := by
  induction vs generalizing s a with
  | nil => rfl
  | cons v vs ih => simp [State.writeBlock, ih]
@[simp] theorem State.writeBlock_driver (a : Word) (vs : List Word) : (s.writeBlock a vs).driver = s.driver := by
  induction vs generalizing s a with
  | nil => rfl
  | cons v vs ih => simp [State.writeBlock, ih]
@[simp] theorem State.writeBlock_x (a : Word) (vs : List Word) : (s.writeBlock a vs).x = s.x := by
  induction vs generalizing s a with
  | nil => rfl
  | cons v vs ih => simp [State.writeBlock, ih]
@[simp] theorem State.writeBlock_pc (a : Word) (vs : List Word) : (s.writeBlock a vs).pc = s.pc := by
  induction vs generalizing s a with
  | nil => rfl
  | cons v vs ih => simp [State.writeBlock, ih]
@[simp] theorem State.writeBlock_ifid (a : Word) (vs : List Word) : (s.writeBlock a vs).ifid = s.ifid := by
  induction vs generalizing s a with
  | nil => rfl
  | cons v vs ih => simp [State.writeBlock, ih]
@[simp] theorem State.writeBlock_idex (a : Word) (vs : List Word) : (s.writeBlock a vs).idex = s.idex := by
  induction vs generalizing s a with
  | nil => rfl
  | cons v vs ih => simp [State.writeBlock, ih]
@[simp] theorem State.writeBlock_exmem (a : Word) (vs : List Word) : (s.writeBlock a vs).exmem = s.exmem := by
  induction vs generalizing s a with
  | nil => rfl
  | cons v vs ih => simp [State.writeBlock, ih]
@[simp] theorem State.writeBlock_memwb (a : Word) (vs : List Word) : (s.writeBlock a vs).memwb = s.memwb := by
  induction vs generalizing s a with
  | nil => rfl
  | cons v vs ih => simp [State.writeBlock, ih]
@[simp] theorem State.writeBlock_lines (a : Word) (vs : List Word) : (s.writeBlock a vs).lines = s.lines := by
  induction vs generalizing s a with
  | nil => rfl
  | cons v vs ih => simp [State.writeBlock, ih]
@[simp] theorem State.writeBlock_fill (a : Word) (vs : List Word) : (s.writeBlock a vs).fill = s.fill := by
  induction vs generalizing s a with
  | nil => rfl
  | cons v vs ih => simp [State.writeBlock, ih]
@[simp] theorem State.writeBlock_wbuf (a : Word) (vs : List Word) : (s.writeBlock a vs).wbuf = s.wbuf := by
  induction vs generalizing s a with
  | nil => rfl
  | cons v vs ih => simp [State.writeBlock, ih]
@[simp] theorem State.writeBlock_fetchStopped (a : Word) (vs : List Word) : (s.writeBlock a vs).fetchStopped = s.fetchStopped := by
  induction vs generalizing s a with
  | nil => rfl
  | cons v vs ih => simp [State.writeBlock, ih]
@[simp] theorem State.writeBlock_fault (a : Word) (vs : List Word) : (s.writeBlock a vs).fault = s.fault := by
  induction vs generalizing s a with
  | nil => rfl
  | cons v vs ih => simp [State.writeBlock, ih]
@[simp] theorem State.writeBlock_faultAddr (a : Word) (vs : List Word) : (s.writeBlock a vs).faultAddr = s.faultAddr := by
  induction vs generalizing s a with
  | nil => rfl
  | cons v vs ih => simp [State.writeBlock, ih]
@[simp] theorem State.writeBlock_faultWord (a : Word) (vs : List Word) : (s.writeBlock a vs).faultWord = s.faultWord := by
  induction vs generalizing s a with
  | nil => rfl
  | cons v vs ih => simp [State.writeBlock, ih]
@[simp] theorem drainOne_cfg : (drainOne s).cfg = s.cfg := by
  unfold drainOne; split <;> simp
@[simp] theorem drainOne_driver : (drainOne s).driver = s.driver := by
  unfold drainOne; split <;> simp
@[simp] theorem drainOne_x : (drainOne s).x = s.x := by
  unfold drainOne; split <;> simp
@[simp] theorem drainOne_pc : (drainOne s).pc = s.pc := by
  unfold drainOne; split <;> simp
@[simp] theorem drainOne_ifid : (drainOne s).ifid = s.ifid := by
  unfold drainOne; split <;> simp
@[simp] theorem drainOne_idex : (drainOne s).idex = s.idex := by
  unfold drainOne; split <;> simp
@[simp] theorem drainOne_exmem : (drainOne s).exmem = s.exmem := by
  unfold drainOne; split <;> simp
@[simp] theorem drainOne_memwb : (drainOne s).memwb = s.memwb := by
  unfold drainOne; split <;> simp
@[simp] theorem drainOne_lines : (drainOne s).lines = s.lines := by
  unfold drainOne; split <;> simp
@[simp] theorem drainOne_fill : (drainOne s).fill = s.fill := by
  unfold drainOne; split <;> simp
@[simp] theorem drainOne_fetchStopped : (drainOne s).fetchStopped = s.fetchStopped := by
  unfold drainOne; split <;> simp
@[simp] theorem drainOne_fault : (drainOne s).fault = s.fault := by
  unfold drainOne; split <;> simp
@[simp] theorem drainOne_faultAddr : (drainOne s).faultAddr = s.faultAddr := by
  unfold drainOne; split <;> simp
@[simp] theorem drainOne_faultWord : (drainOne s).faultWord = s.faultWord := by
  unfold drainOne; split <;> simp
@[simp] theorem drainOne_wbuf : (drainOne s).wbuf = s.wbuf.tail := by
  unfold drainOne; split <;> simp_all

/-! ### writeback, applyReset, withFetchWord -/

@[simp] theorem writeback_cfg : (writeback s).cfg = s.cfg := by
  unfold writeback; split <;> simp
@[simp] theorem writeback_driver : (writeback s).driver = s.driver := by
  unfold writeback; split <;> simp
@[simp] theorem writeback_pc : (writeback s).pc = s.pc := by
  unfold writeback; split <;> simp
@[simp] theorem writeback_ifid : (writeback s).ifid = s.ifid := by
  unfold writeback; split <;> simp
@[simp] theorem writeback_idex : (writeback s).idex = s.idex := by
  unfold writeback; split <;> simp
@[simp] theorem writeback_exmem : (writeback s).exmem = s.exmem := by
  unfold writeback; split <;> simp
@[simp] theorem writeback_memwb : (writeback s).memwb = s.memwb := by
  unfold writeback; split <;> simp
@[simp] theorem writeback_lines : (writeback s).lines = s.lines := by
  unfold writeback; split <;> simp
@[simp] theorem writeback_fill : (writeback s).fill = s.fill := by
  unfold writeback; split <;> simp
@[simp] theorem writeback_wbuf : (writeback s).wbuf = s.wbuf := by
  unfold writeback; split <;> simp
@[simp] theorem writeback_fetchStopped : (writeback s).fetchStopped = s.fetchStopped := by
  unfold writeback; split <;> simp
@[simp] theorem writeback_fault : (writeback s).fault = s.fault := by
  unfold writeback; split <;> simp
@[simp] theorem writeback_faultAddr : (writeback s).faultAddr = s.faultAddr := by
  unfold writeback; split <;> simp
@[simp] theorem writeback_faultWord : (writeback s).faultWord = s.faultWord := by
  unfold writeback; split <;> simp
@[simp] theorem writeback_back : (writeback s).back = s.back := by
  unfold writeback; split <;> simp
@[simp] theorem State.applyReset_cfg : s.applyReset.cfg = s.cfg := rfl
@[simp] theorem State.applyReset_driver : s.applyReset.driver = s.driver := rfl
@[simp] theorem State.applyReset_x : s.applyReset.x = resetRegisters s.cfg := rfl
@[simp] theorem State.applyReset_pc : s.applyReset.pc = s.cfg.resetPc := rfl
@[simp] theorem State.applyReset_ifid : s.applyReset.ifid = Latch.bubble := rfl
@[simp] theorem State.applyReset_idex : s.applyReset.idex = Latch.bubble := rfl
@[simp] theorem State.applyReset_exmem : s.applyReset.exmem = Latch.bubble := rfl
@[simp] theorem State.applyReset_memwb : s.applyReset.memwb = Latch.bubble := rfl
@[simp] theorem State.applyReset_fill : s.applyReset.fill = Fill.reset := rfl
@[simp] theorem State.applyReset_wbuf : s.applyReset.wbuf = [] := rfl
@[simp] theorem State.applyReset_fetchStopped : s.applyReset.fetchStopped = false := rfl
@[simp] theorem State.applyReset_fault : s.applyReset.fault = .none := rfl
@[simp] theorem State.applyReset_faultAddr : s.applyReset.faultAddr = 0 := rfl
@[simp] theorem State.applyReset_faultWord : s.applyReset.faultWord = 0 := rfl
@[simp] theorem State.applyReset_back : s.applyReset.back = s.back := rfl
@[simp] theorem State.withFetchWord_cfg (n w : Nat) : (s.withFetchWord n w).cfg = s.cfg := rfl
@[simp] theorem State.withFetchWord_x (n w : Nat) : (s.withFetchWord n w).x = s.x := rfl
@[simp] theorem State.withFetchWord_pc (n w : Nat) : (s.withFetchWord n w).pc = s.pc := rfl
@[simp] theorem State.withFetchWord_ifid (n w : Nat) : (s.withFetchWord n w).ifid = s.ifid := rfl
@[simp] theorem State.withFetchWord_idex (n w : Nat) : (s.withFetchWord n w).idex = s.idex := rfl
@[simp] theorem State.withFetchWord_exmem (n w : Nat) : (s.withFetchWord n w).exmem = s.exmem := rfl
@[simp] theorem State.withFetchWord_memwb (n w : Nat) : (s.withFetchWord n w).memwb = s.memwb := rfl
@[simp] theorem State.withFetchWord_lines (n w : Nat) : (s.withFetchWord n w).lines = s.lines := rfl
@[simp] theorem State.withFetchWord_fill (n w : Nat) : (s.withFetchWord n w).fill = s.fill := rfl
@[simp] theorem State.withFetchWord_wbuf (n w : Nat) : (s.withFetchWord n w).wbuf = s.wbuf := rfl
@[simp] theorem State.withFetchWord_fetchStopped (n w : Nat) : (s.withFetchWord n w).fetchStopped = s.fetchStopped := rfl
@[simp] theorem State.withFetchWord_fault (n w : Nat) : (s.withFetchWord n w).fault = s.fault := rfl
@[simp] theorem State.withFetchWord_faultAddr (n w : Nat) : (s.withFetchWord n w).faultAddr = s.faultAddr := rfl
@[simp] theorem State.withFetchWord_faultWord (n w : Nat) : (s.withFetchWord n w).faultWord = s.faultWord := rfl
@[simp] theorem State.withFetchWord_driver (n w : Nat) : (s.withFetchWord n w).driver = .sequential := rfl

end Sys2Proof.Machine
end

