-- ==== Sys2Proof/Laws/Cache.lean ====
section
/-! SUPPORT. What each step of the cache controller can do, said once (spec/47_cache_controller.md R297 to R313;
spec/48_write_buffer.md R341 to R343). A proof about the memory side cites these and unfolds none of its functions. -/

namespace Sys2Proof.Machine

open Sys2Proof

/-! ### Write buffer -/

/-- R341, R342: all that `enqueue` does. -/
theorem enqueue_eq_some {n : Nat} {buf out : List WbEntry} {e : WbEntry} :
    enqueue n buf e = some out ↔ buf.length < n ∧ out = buf ++ [e] := by
  unfold enqueue; split <;> simp_all [eq_comm]

/-- R343: all that `drainOne` does. -/
theorem drainOne_cases (s : State) :
    (s.wbuf = [] ∧ drainOne s = s) ∨
    (∃ e rest, s.wbuf = e :: rest ∧ drainOne s = { s.writeBlock e.addr e.data with wbuf := rest }) := by
  unfold drainOne
  cases h : s.wbuf with
  | nil => exact .inl ⟨rfl, rfl⟩
  | cons e rest => exact .inr ⟨e, rest, rfl, rfl⟩

/-- A drain touches the backing store and the write buffer, nothing else. -/
theorem State.writeBlock_frame (s : State) (a : Word) (vs : List Word) :
    s.writeBlock a vs = { s with back := (s.writeBlock a vs).back } := by
  induction vs generalizing s a with
  | nil => rfl
  | cons v vs ih => rw [State.writeBlock, ih]; rfl

theorem drainOne_frame (s : State) : drainOne s = { s with wbuf := (drainOne s).wbuf, back := (drainOne s).back } := by
  rcases drainOne_cases s with ⟨-, h⟩ | ⟨e, rest, -, h⟩
  · rw [h]
  · rw [h, State.writeBlock_frame]

/-! ### Fill -/

/-- R307, R308: all that `evict` does. -/
theorem evict_eq_some {s : State} {idx : Nat} {l : Line} {buf : List WbEntry} :
    evict s idx l = some buf ↔
      (l.valid = true ∧ l.dirty = true ∧ s.wbuf.length < s.cfg.wbCapacity ∧ buf = s.wbuf ++ [victimEntry s.cfg idx l]) ∨
      ((l.valid = false ∨ l.dirty = false) ∧ buf = s.wbuf) := by
  unfold evict
  cases l.valid <;> cases l.dirty <;> simp [enqueue_eq_some, eq_comm (a := s.wbuf)]

/-- R306 to R309: all that `startFill` does. -/
theorem startFill_cases (s : State) (a : Word) (victim : Line) :
    (evict s (s.cfg.index a) victim = none ∧ startFill s a victim = s) ∨
    (∃ buf, evict s (s.cfg.index a) victim = some buf ∧
      startFill s a victim = { s with
        wbuf := buf
        lines := s.lines.set (s.cfg.index a) { victim with valid := false, dirty := false }
        fill := Fill.start s.cfg a }) := by
  unfold startFill
  cases h : evict s (s.cfg.index a) victim with
  | none => exact .inl ⟨rfl, rfl⟩
  | some buf => exact .inr ⟨buf, rfl, rfl⟩

/-- R310 to R313: all that a landing does, the argument's counter having advanced. -/
theorem landWord_eq_ok {s t : State} : landWord s = .ok t ↔
    ∃ l, s.lines[s.fill.idx]? = some l ∧ (s.fill.word = 0 ∨ (l.valid = true ∧ l.tag = s.fill.tag)) ∧
      t = { s with
        lines := s.lines.set s.fill.idx (landedLine l s.fill (s.backRead s.fill.nextAddr))
        fill := s.fill.afterLanding s.cfg } := by
  unfold landWord
  cases h : s.lines[s.fill.idx]? with
  | none => exact ⟨fun h => by simp at h, fun ⟨l, h, _⟩ => by simp at h⟩
  | some l =>
    by_cases hc : s.fill.word ≠ 0 ∧ ¬ (l.valid = true ∧ l.tag = s.fill.tag)
    · refine ⟨fun h => ?_, ?_⟩
      · simp only [hc, not_false_eq_true, and_self, if_true, ne_eq] at h; cases h
      · rintro ⟨m, hm, h, -⟩
        injection hm with hm; subst hm
        exact (h.elim hc.1 hc.2).elim
    · have hc' : s.fill.word = 0 ∨ (l.valid = true ∧ l.tag = s.fill.tag) := by tauto
      dsimp only
      rw [if_neg hc]
      refine ⟨fun h => ?_, ?_⟩
      · injection h with h; exact ⟨l, rfl, hc', h.symm⟩
      · rintro ⟨m, hm, -, rfl⟩
        injection hm with hm; subst hm
        rfl

/-- R313, R295: a landing can only fail with `InternalInvariant`. -/
theorem landWord_error {s : State} {f : FaultInfo} (h : landWord s = .error f) :
    f = invariantFault s.fill.nextAddr := by
  unfold landWord at h
  split at h
  · injection h with h; exact h.symm
  · split at h
    · injection h with h; exact h.symm
    · cases h

/-- The fill tick's counter step. -/
def tickedFill (s : State) : State := { s with fill := { s.fill with cnt := s.fill.cnt + 1 } }

/-- R310: all that the fill tick does. -/
theorem fillTick_cases {s t : State} (h : fillTick s = .ok t) :
    (s.fill.active = false ∧ t = s) ∨
    (s.fill.active = true ∧ s.fill.cnt + 1 ≠ s.fill.thr ∧ t = tickedFill s) ∨
    (s.fill.active = true ∧ s.fill.cnt + 1 = s.fill.thr ∧ landWord (tickedFill s) = .ok t) := by
  unfold fillTick at h
  split at h
  · next ha =>
    dsimp only at h
    split at h
    · next hc => exact .inr (.inr ⟨ha, hc, h⟩)
    · next hc => injection h with h; exact .inr (.inl ⟨ha, hc, h.symm⟩)
  · next ha => injection h with h; exact .inl ⟨by simpa using ha, h.symm⟩

theorem fillTick_error {s : State} {f : FaultInfo} (h : fillTick s = .error f) :
    s.fill.active = true ∧ s.fill.cnt + 1 = s.fill.thr ∧ landWord (tickedFill s) = .error f := by
  unfold fillTick at h
  split at h
  · next ha =>
    dsimp only at h
    split at h
    · next hc => exact ⟨ha, hc, h⟩
    · cases h
  · cases h

/-- The fill tick touches the lines and the fill sequencer, nothing else. -/
theorem fillTick_frame {s t : State} (h : fillTick s = .ok t) : t = { s with lines := t.lines, fill := t.fill } := by
  rcases fillTick_cases h with ⟨-, rfl⟩ | ⟨-, -, rfl⟩ | ⟨-, -, h⟩
  · rfl
  · rfl
  · obtain ⟨l, -, -, rfl⟩ := landWord_eq_ok.1 h
    rfl

/-! ### Lookup -/

/-- R300: the line that answers a lookup. -/
theorem State.hitLine_eq_some {s : State} {a : Word} {l : Line} : s.hitLine a = some l ↔
    s.lines[s.cfg.index a]? = some l ∧ l.valid = true ∧ l.tag = s.cfg.tag a ∧ s.wordReady a = true := by
  unfold State.hitLine
  cases h : s.lines[s.cfg.index a]? with
  | none => simp
  | some m =>
    simp only [Option.some.injEq]
    constructor
    · intro hh
      split at hh
      · next hc =>
        injection hh with hh
        subst hh
        simp only [Bool.and_eq_true, beq_iff_eq] at hc
        exact ⟨rfl, hc.1.1, hc.1.2, hc.2⟩
      · cases hh
    · rintro ⟨rfl, hv, ht, hr⟩
      simp [hv, ht, hr]

/-- R298 steps 3 and 4: all that the controller does with one request, after the drain and the fill tick. -/
theorem access_cases {s t : State} {a : Word} {store : Option Word} {ans : Answer}
    (h : access s a store = .ok (t, ans)) :
    ∃ victim, s.lines[s.cfg.index a]? = some victim ∧
      ((∃ l, s.hitLine a = some l ∧ store = none ∧ t = s ∧ ans = .hit (wordAt l.data (s.cfg.offset a))) ∨
       (∃ l v, s.hitLine a = some l ∧ store = some v ∧ t = s.storeHit a l v ∧ ans = .hit v) ∨
       (s.hitLine a = none ∧ s.fill.active = true ∧ t = s ∧ ans = .miss) ∨
       (s.hitLine a = none ∧ s.fill.active = false ∧ t = startFill s a victim ∧ ans = .miss)) := by
  unfold access at h
  cases hv : s.lines[s.cfg.index a]? with
  | none => rw [hv] at h; cases h
  | some victim =>
    rw [hv] at h
    refine ⟨victim, rfl, ?_⟩
    unfold classify at h
    cases hl : s.hitLine a with
    | some l =>
      rw [hl] at h
      cases store with
      | none => injection h with h; injection h with h1 h2; exact .inl ⟨l, rfl, rfl, h1.symm, h2.symm⟩
      | some v => injection h with h; injection h with h1 h2; exact .inr (.inl ⟨l, v, rfl, rfl, h1.symm, h2.symm⟩)
    | none =>
      rw [hl] at h
      by_cases ha : s.fill.active = true
      · simp only [ha, if_true] at h
        injection h with h; injection h with h1 h2
        exact .inr (.inr (.inl ⟨rfl, ha, h1.symm, h2.symm⟩))
      · simp only [ha] at h
        injection h with h; injection h with h1 h2
        exact .inr (.inr (.inr ⟨rfl, by simpa using ha, h1.symm, h2.symm⟩))

/-- R295: a request can only fail with `InternalInvariant`, when its line does not exist. -/
theorem access_error {s : State} {a : Word} {store : Option Word} {f : FaultInfo}
    (h : access s a store = .error f) : s.lines[s.cfg.index a]? = none ∧ f = invariantFault a := by
  unfold access at h
  cases hv : s.lines[s.cfg.index a]? with
  | none => rw [hv] at h; injection h with h; exact ⟨rfl, h.symm⟩
  | some victim =>
    rw [hv] at h
    dsimp only at h
    split at h
    · cases store <;> cases h
    · cases h
    · cases h

theorem State.storeHit_frame (s : State) (a : Word) (l : Line) (v : Word) :
    s.storeHit a l v = { s with lines := (s.storeHit a l v).lines, back := (s.storeHit a l v).back } := by
  unfold State.storeHit; cases s.cfg.writePolicy <;> rfl

theorem startFill_frame (s : State) (a : Word) (l : Line) : startFill s a l =
    { s with lines := (startFill s a l).lines, fill := (startFill s a l).fill, wbuf := (startFill s a l).wbuf } := by
  rcases startFill_cases s a l with ⟨-, h⟩ | ⟨buf, -, h⟩ <;> rw [h]

theorem access_frame {s t : State} {a : Word} {store : Option Word} {ans : Answer}
    (h : access s a store = .ok (t, ans)) :
    t = { s with lines := t.lines, fill := t.fill, wbuf := t.wbuf, back := t.back } := by
  obtain ⟨v, -, ⟨l, -, -, rfl, -⟩ | ⟨l, w, -, -, rfl, -⟩ | ⟨-, -, rfl, -⟩ | ⟨-, -, rfl, -⟩⟩ := access_cases h
  · rfl
  · rw [State.storeHit_frame]
  · rfl
  · rw [startFill_frame]

/-! ### The controller's cycle -/

/-- R298: all that the controller does in a cycle. -/
theorem cacheCycle_cases {s t : State} {req : Request} {ans : Answer} (h : cacheCycle s req = .ok (t, ans)) :
    ∃ m, fillTick (drainOne s) = .ok m ∧
      ((req = .none ∧ t = m ∧ ans = .noAnswer) ∨
       (∃ a, req = .read a ∧ access m a none = .ok (t, ans)) ∨
       (∃ a v, req = .write a v ∧ access m a (some v) = .ok (t, ans))) := by
  unfold cacheCycle at h
  cases hm : fillTick (drainOne s) with
  | error f => rw [hm] at h; cases h
  | ok m =>
    rw [hm] at h
    refine ⟨m, rfl, ?_⟩
    cases req with
    | none => injection h with h; injection h with h1 h2; exact .inl ⟨rfl, h1.symm, h2.symm⟩
    | read a => exact .inr (.inl ⟨a, rfl, h⟩)
    | write a v => exact .inr (.inr ⟨a, v, rfl, h⟩)

/-- R350 step 3: all that the memory side does in a cycle. -/
theorem memorySide_cases {s t : State} {req : Request} {ans : Answer} (h : memorySide s req = .ok (t, ans)) :
    (s.cfg.cached = true ∧ cacheCycle s req = .ok (t, ans)) ∨
    (s.cfg.cached = false ∧
      ((req = .none ∧ t = s ∧ ans = .noAnswer) ∨
       (∃ a, req = .read a ∧ t = s ∧ ans = .hit (s.backRead a)) ∨
       (∃ a v, req = .write a v ∧ t = s.backWrite a v ∧ ans = .hit v))) := by
  unfold memorySide at h
  by_cases hc : s.cfg.cached = true
  · simp only [hc, if_true] at h
    exact .inl ⟨hc, h⟩
  · simp only [hc] at h
    refine .inr ⟨by simpa using hc, ?_⟩
    injection h with h
    cases req with
    | none => injection h with h1 h2; exact .inl ⟨rfl, h1.symm, h2.symm⟩
    | read a => injection h with h1 h2; exact .inr (.inl ⟨a, rfl, h1.symm, h2.symm⟩)
    | write a v => injection h with h1 h2; exact .inr (.inr ⟨a, v, rfl, h1.symm, h2.symm⟩)

/-- The memory side touches the lines, the fill sequencer, the write buffer and the backing store, nothing else. -/
theorem memorySide_frame {s t : State} {req : Request} {ans : Answer} (h : memorySide s req = .ok (t, ans)) :
    t = { s with lines := t.lines, fill := t.fill, wbuf := t.wbuf, back := t.back } := by
  rcases memorySide_cases h with ⟨-, h⟩ | ⟨-, ⟨-, rfl, -⟩ | ⟨a, -, rfl, -⟩ | ⟨a, v, -, rfl, -⟩⟩
  · obtain ⟨m, hm, h⟩ := cacheCycle_cases h
    have hd := drainOne_frame s
    have hf := fillTick_frame hm
    rcases h with ⟨-, rfl, -⟩ | ⟨a, -, h⟩ | ⟨a, v, -, h⟩
    · rw [hd] at hf; rw [hf]
    · have ht := access_frame h; rw [hf, hd] at ht; rw [ht]
    · have ht := access_frame h; rw [hf, hd] at ht; rw [ht]
  · rfl
  · rfl
  · rfl

/-- R387: the memory side can only fail with `InternalInvariant`. -/
theorem memorySide_error {s : State} {req : Request} {f : FaultInfo} (h : memorySide s req = .error f) :
    s.cfg.cached = true ∧ f.code = .internalInvariant := by
  unfold memorySide at h
  by_cases hc : s.cfg.cached = true
  · refine ⟨hc, ?_⟩
    simp only [hc, if_true, cacheCycle] at h
    cases hm : fillTick (drainOne s) with
    | error g =>
      rw [hm] at h
      injection h with h
      subst h
      rw [landWord_error (fillTick_error hm).2.2]; rfl
    | ok m =>
      rw [hm] at h
      cases req with
      | none => cases h
      | read a => rw [(access_error (s := m) (a := a) (store := none) h).2]; rfl
      | write a v => rw [(access_error (s := m) (a := a) (store := some v) h).2]; rfl
  · simp only [hc] at h
    cases h

/-- The memory side answers nothing exactly to no request. -/
theorem memorySide_answer {s t : State} {req : Request} {ans : Answer} (h : memorySide s req = .ok (t, ans)) :
    ans = .noAnswer ↔ req = .none := by
  rcases memorySide_cases h with ⟨-, h⟩ | ⟨-, ⟨rfl, -, rfl⟩ | ⟨a, rfl, -, rfl⟩ | ⟨a, v, rfl, -, rfl⟩⟩
  · obtain ⟨m, -, ⟨rfl, -, rfl⟩ | ⟨a, rfl, h'⟩ | ⟨a, v, rfl, h'⟩⟩ := cacheCycle_cases h
    · simp
    · obtain ⟨_, -, ⟨l, -, -, -, rfl⟩ | ⟨l, w, -, -, -, rfl⟩ | ⟨-, -, -, rfl⟩ | ⟨-, -, -, rfl⟩⟩ :=
        access_cases h' <;> simp
    · obtain ⟨_, -, ⟨l, -, -, -, rfl⟩ | ⟨l, w, -, -, -, rfl⟩ | ⟨-, -, -, rfl⟩ | ⟨-, -, -, rfl⟩⟩ :=
        access_cases h' <;> simp
  · simp
  · simp
  · simp

end Sys2Proof.Machine
end

