-- ==== Sys2Proof/Laws/Memory.lean ====
section
/-! SUPPORT. The laws of the backing store: a read after a write, and that every operation keeps the canonical form and the
window. -/

namespace Sys2Proof.Machine

open Sys2Proof

/-! ### Bytes -/

theorem Memory.readByte_of_lt (m : Memory) (a : Nat) (h : ∀ c ∈ m, a < c.1) : m.readByte a = unlistedByte := by
  induction m with
  | nil => rfl
  | cons c m ih =>
    obtain ⟨b, u⟩ := c
    have hb : a < b := h (b, u) (by simp)
    simp [Memory.readByte, Nat.ne_of_lt hb, ih fun c hc => h c (by simp [hc])]

theorem Memory.readByte_writeByte_other (m : Memory) (a c : Nat) (v : Byte) (h : c ≠ a) :
    (m.writeByte a v).readByte c = m.readByte c := by
  induction m with
  | nil => by_cases hv : v = unlistedByte <;> simp [Memory.writeByte, Memory.readByte, hv, h]
  | cons d m ih =>
    obtain ⟨b, u⟩ := d
    unfold Memory.writeByte
    split
    · by_cases hv : v = unlistedByte <;> simp [Memory.readByte, hv, h]
    · split
      · next hab => subst hab; by_cases hv : v = unlistedByte <;> simp [Memory.readByte, hv, h]
      · simp [Memory.readByte, ih]

theorem Memory.readByte_writeByte_same (m : Memory) (a : Nat) (v : Byte) (hm : m.Wf) :
    (m.writeByte a v).readByte a = v := by
  induction m with
  | nil => by_cases hv : v = unlistedByte <;> simp [Memory.writeByte, Memory.readByte, hv]
  | cons d m ih =>
    obtain ⟨b, u⟩ := d
    have hlt : ∀ c ∈ m, b < c.1 := (List.pairwise_cons.1 hm.1).1
    have hm' : Memory.Wf m := ⟨(List.pairwise_cons.1 hm.1).2, fun c hc => hm.2 c (by simp [hc])⟩
    unfold Memory.writeByte
    split
    · next hab =>
      by_cases hv : v = unlistedByte
      · simp only [hv, if_true]
        exact Memory.readByte_of_lt _ _ (by
          intro c hc
          rcases List.mem_cons.1 hc with rfl | hc
          · exact hab
          · exact Nat.lt_trans hab (hlt c hc))
      · simp [Memory.readByte, hv]
    · split
      · next hab =>
        subst hab
        by_cases hv : v = unlistedByte
        · simpa [hv] using Memory.readByte_of_lt m a hlt
        · simp [Memory.readByte, hv]
      · next hab => simp [Memory.readByte, hab, ih hm']

theorem Memory.readByte_writeByte (m : Memory) (a c : Nat) (v : Byte) (hm : m.Wf) :
    (m.writeByte a v).readByte c = if c = a then v else m.readByte c := by
  split
  · next h => subst h; exact Memory.readByte_writeByte_same m c v hm
  · next h => exact Memory.readByte_writeByte_other m a c v h

/-- Every address of the list after a write is an address of the list before it, or the address written. -/
theorem Memory.mem_writeByte (m : Memory) (a : Nat) (v : Byte) (c : Host.Cell) (h : c ∈ m.writeByte a v) :
    c ∈ m ∨ (c = (a, v) ∧ v ≠ unlistedByte) := by
  induction m with
  | nil => by_cases hv : v = unlistedByte <;> simp_all [Memory.writeByte]
  | cons d m ih =>
    obtain ⟨b, u⟩ := d
    by_cases hv : v = unlistedByte <;> unfold Memory.writeByte at h <;> split at h <;>
      (try split at h) <;> simp_all <;> tauto

theorem Memory.writeByte_wf (m : Memory) (a : Nat) (v : Byte) (hm : m.Wf) : (m.writeByte a v).Wf := by
  refine ⟨?_, fun c hc => ?_⟩
  · obtain ⟨hs, -⟩ := hm
    induction m with
    | nil => by_cases hv : v = unlistedByte <;> simp [Memory.writeByte, hv]
    | cons d m ih =>
      obtain ⟨b, u⟩ := d
      obtain ⟨hlt, hs'⟩ := List.pairwise_cons.1 hs
      unfold Memory.writeByte
      split
      · next hab =>
        by_cases hv : v = unlistedByte
        · simpa [hv] using ⟨fun x y h => hlt (x, y) h, hs'⟩
        · simp only [hv, if_false, List.pairwise_cons]
          refine ⟨fun c hc => ?_, hlt, hs'⟩
          rcases List.mem_cons.1 hc with rfl | hc
          · exact hab
          · exact Nat.lt_trans hab (hlt c hc)
      · split
        · next hab =>
          subst hab
          by_cases hv : v = unlistedByte
          · simpa [hv] using hs'
          · simpa [hv] using ⟨fun x y h => hlt (x, y) h, hs'⟩
        · next h1 h2 =>
          rw [List.pairwise_cons]
          refine ⟨fun c hc => ?_, ih hs'⟩
          rcases Memory.mem_writeByte m a v c hc with hc | ⟨rfl, -⟩
          · exact hlt c hc
          · simp only; omega
  · rcases Memory.mem_writeByte m a v c hc with hc | ⟨rfl, hv⟩
    · exact hm.2 c hc
    · exact hv

theorem Memory.writeByte_within (m : Memory) (n a : Nat) (v : Byte) (hm : m.Within n) (ha : a < n) :
    (m.writeByte a v).Within n := by
  intro c hc
  rcases Memory.mem_writeByte m a v c hc with hc | ⟨rfl, -⟩
  · exact hm c hc
  · exact ha

/-! ### Lists of bytes -/

theorem Memory.writeBytes_wf (m : Memory) (a : Nat) (vs : List Byte) (hm : m.Wf) : (m.writeBytes a vs).Wf := by
  induction vs generalizing m a with
  | nil => exact hm
  | cons v vs ih => exact ih _ _ (Memory.writeByte_wf m a v hm)

theorem Memory.writeBytes_within (m : Memory) (n a : Nat) (vs : List Byte) (hm : m.Within n) (ha : a + vs.length ≤ n) :
    (m.writeBytes a vs).Within n := by
  induction vs generalizing m a with
  | nil => exact hm
  | cons v vs ih =>
    simp only [List.length_cons] at ha
    exact ih _ _ (Memory.writeByte_within m n a v hm (by omega)) (by omega)

theorem Memory.readByte_writeBytes_other (m : Memory) (a c : Nat) (vs : List Byte) (h : c < a ∨ a + vs.length ≤ c) :
    (m.writeBytes a vs).readByte c = m.readByte c := by
  induction vs generalizing m a with
  | nil => rfl
  | cons v vs ih =>
    simp only [List.length_cons] at h
    rw [Memory.writeBytes, ih _ _ (by omega), Memory.readByte_writeByte_other _ _ _ _ (by omega)]

/-! ### Words -/

theorem bytesOfWord_length (order : ByteOrder) (w : Word) : (bytesOfWord order w).length = 4 := by
  cases order <;> rfl

theorem Memory.writeWord_wf (order : ByteOrder) (m : Memory) (w : Nat) (v : Word) (hm : m.Wf) :
    (m.writeWord order w v).Wf := Memory.writeBytes_wf _ _ _ hm

theorem Memory.writeWord_within (order : ByteOrder) (m : Memory) (n w : Nat) (v : Word) (hm : m.Within n)
    (hw : 4 * w + 4 ≤ n) : (m.writeWord order w v).Within n :=
  Memory.writeBytes_within _ _ _ _ hm (by rw [bytesOfWord_length]; omega)

theorem Memory.readByte_writeWord_other (order : ByteOrder) (m : Memory) (w c : Nat) (v : Word) (h : c / 4 ≠ w) :
    (m.writeWord order w v).readByte c = m.readByte c :=
  Memory.readByte_writeBytes_other _ _ _ _ (by rw [bytesOfWord_length]; omega)

theorem Memory.readWord_writeWord_other (order : ByteOrder) (m : Memory) (w u : Nat) (v : Word) (h : u ≠ w) :
    (m.writeWord order w v).readWord order u = m.readWord order u := by
  simp only [Memory.readWord]
  rw [Memory.readByte_writeWord_other, Memory.readByte_writeWord_other, Memory.readByte_writeWord_other,
    Memory.readByte_writeWord_other] <;> omega

theorem wordOfBytes_little (w : Word) :
    w.extractLsb' 24 8 ++ w.extractLsb' 16 8 ++ w.extractLsb' 8 8 ++ w.extractLsb' 0 8 = w := by
  apply BitVec.eq_of_toNat_eq
  have := w.isLt
  simp only [BitVec.toNat_append, BitVec.extractLsb'_toNat, Nat.shiftRight_eq_div_pow]
  rw [Nat.shiftLeft_add_eq_or_of_lt (by omega) _ |>.symm, Nat.shiftLeft_add_eq_or_of_lt (by omega) _ |>.symm,
    Nat.shiftLeft_add_eq_or_of_lt (by omega) _ |>.symm]
  simp only [Nat.shiftLeft_eq]
  omega

theorem Memory.readWord_writeWord_same (order : ByteOrder) (m : Memory) (w : Nat) (v : Word) (hm : m.Wf) :
    (m.writeWord order w v).readWord order w = v := by
  have key : ∀ b0 b1 b2 b3 : Byte,
      let m' := m.writeBytes (4 * w) [b0, b1, b2, b3]
      m'.readByte (4 * w) = b0 ∧ m'.readByte (4 * w + 1) = b1 ∧ m'.readByte (4 * w + 2) = b2 ∧
        m'.readByte (4 * w + 3) = b3 := by
    intro b0 b1 b2 b3
    have h0 := Memory.writeByte_wf m (4 * w) b0 hm
    have h1 := Memory.writeByte_wf _ (4 * w + 1) b1 h0
    have h2 := Memory.writeByte_wf _ (4 * w + 1 + 1) b2 h1
    simp only [Memory.writeBytes]
    refine ⟨?_, ?_, ?_, ?_⟩ <;>
      (rw [Memory.readByte_writeByte _ _ _ _ h2, Memory.readByte_writeByte _ _ _ _ h1,
        Memory.readByte_writeByte _ _ _ _ h0, Memory.readByte_writeByte _ _ _ _ hm]; simp [Nat.add_assoc])
  cases order
  · obtain ⟨h0, h1, h2, h3⟩ := key (v.extractLsb' 24 8) (v.extractLsb' 16 8) (v.extractLsb' 8 8) (v.extractLsb' 0 8)
    simp only [Memory.readWord, Memory.writeWord, bytesOfWord, List.reverse_cons, List.reverse_nil, List.nil_append,
      List.cons_append, h0, h1, h2, h3, wordOfBytes]
    exact wordOfBytes_little v
  · obtain ⟨h0, h1, h2, h3⟩ := key (v.extractLsb' 0 8) (v.extractLsb' 8 8) (v.extractLsb' 16 8) (v.extractLsb' 24 8)
    simp only [Memory.readWord, Memory.writeWord, bytesOfWord, h0, h1, h2, h3, wordOfBytes]
    exact wordOfBytes_little v

theorem Memory.readWord_writeWord (order : ByteOrder) (m : Memory) (w u : Nat) (v : Word) (hm : m.Wf) :
    (m.writeWord order w v).readWord order u = if u = w then v else m.readWord order u := by
  split
  · next h => subst h; exact Memory.readWord_writeWord_same order m u v hm
  · next h => exact Memory.readWord_writeWord_other order m w u v h

theorem Memory.nil_wf : Memory.Wf [] := ⟨List.Pairwise.nil, by simp⟩

theorem Memory.nil_within (n : Nat) : Memory.Within n [] := by simp

end Sys2Proof.Machine
end

