-- ==== Sys2Proof/Laws/ArchMem.lean ====
section
/-! SUPPORT. What a read and a write of the architectural memory can do (spec/20_memory.md R74 to R76), and the backing store
through the state's ports (R77, R78). -/

namespace Sys2Proof.Machine

open Sys2Proof

/-- R77, R78: everything a backing-store write does to a later read. -/
theorem State.backRead_backWrite (s : State) (a b v : Word) (h : s.back.Wf) :
    (s.backWrite a v).backRead b = if wordIndex b = wordIndex a then v else s.backRead b := by
  unfold State.backRead State.backWrite
  exact Memory.readWord_writeWord _ _ _ _ _ h

theorem State.backWrite_wf (s : State) (a v : Word) (h : s.back.Wf) : (s.backWrite a v).back.Wf :=
  Memory.writeWord_wf _ _ _ _ h

/-- R76: which of its three places `ArchMem` reads a word from. -/
theorem State.archRead_cases (s : State) (a : Word) :
    (s.cfg.cached = false ∧ s.archRead a = s.backRead a) ∨
    (s.cfg.cached = true ∧ ∃ l, s.hitLine a = some l ∧ s.archRead a = wordAt l.data (s.cfg.offset a)) ∨
    (s.cfg.cached = true ∧ s.hitLine a = none ∧ ∃ e, newestEntry s.wbuf (s.cfg.blockBase a) = some e ∧
      s.archRead a = wordAt e.data (s.cfg.offset a)) ∨
    (s.cfg.cached = true ∧ s.hitLine a = none ∧ newestEntry s.wbuf (s.cfg.blockBase a) = none ∧
      s.archRead a = s.backRead a) := by
  unfold State.archRead
  cases hc : s.cfg.cached
  · exact .inl ⟨rfl, rfl⟩
  · cases hl : s.hitLine a with
    | some l => exact .inr (.inl ⟨rfl, l, rfl, rfl⟩)
    | none =>
      cases he : newestEntry s.wbuf (s.cfg.blockBase a) with
      | some e => exact .inr (.inr (.inl ⟨rfl, rfl, e, rfl, rfl⟩))
      | none => exact .inr (.inr (.inr ⟨rfl, rfl, rfl, rfl⟩))

/-- Log entry 7: where a write of `ArchMem` lands. -/
theorem State.archWrite_cases (s : State) (a v : Word) :
    (s.cfg.cached = false ∧ s.archWrite a v = s.backWrite a v) ∨
    (s.cfg.cached = true ∧ ∃ l, s.hitLine a = some l ∧ s.archWrite a v = s.storeHit a l v) ∨
    (s.cfg.cached = true ∧ s.hitLine a = none ∧ (∃ e, newestEntry s.wbuf (s.cfg.blockBase a) = some e) ∧
      s.archWrite a v = { s with wbuf := setNewestEntry s.wbuf (s.cfg.blockBase a) (s.cfg.offset a) v }) ∨
    (s.cfg.cached = true ∧ s.hitLine a = none ∧ newestEntry s.wbuf (s.cfg.blockBase a) = none ∧
      s.archWrite a v = s.backWrite a v) := by
  unfold State.archWrite
  cases hc : s.cfg.cached
  · exact .inl ⟨rfl, rfl⟩
  · cases hl : s.hitLine a with
    | some l => exact .inr (.inl ⟨rfl, l, rfl, rfl⟩)
    | none =>
      cases he : newestEntry s.wbuf (s.cfg.blockBase a) with
      | some e => exact .inr (.inr (.inl ⟨rfl, rfl, ⟨e, rfl⟩, rfl⟩))
      | none => exact .inr (.inr (.inr ⟨rfl, rfl, rfl, rfl⟩))

/-- A write of `ArchMem` touches the lines, the write buffer and the backing store, nothing else. -/
theorem State.archWrite_frame (s : State) (a v : Word) : s.archWrite a v =
    { s with lines := (s.archWrite a v).lines, wbuf := (s.archWrite a v).wbuf, back := (s.archWrite a v).back } := by
  rcases s.archWrite_cases a v with ⟨-, h⟩ | ⟨-, l, -, h⟩ | ⟨-, -, -, h⟩ | ⟨-, -, -, h⟩
  · rw [h]; rfl
  · rw [h, State.storeHit_frame]
  · rw [h]
  · rw [h]; rfl

/-- The newest entry of a block is an entry of the buffer, at that block. -/
theorem newestEntry_mem {buf : List WbEntry} {base : Word} {e : WbEntry} (h : newestEntry buf base = some e) :
    e ∈ buf ∧ e.addr = base := by
  induction buf with
  | nil => cases h
  | cons f es ih =>
    unfold newestEntry at h
    split at h
    · next g hg =>
      injection h with h
      subst h
      exact ⟨List.mem_cons_of_mem _ (ih hg).1, (ih hg).2⟩
    · split at h
      · next he => injection h with h; subst h; exact ⟨List.mem_cons_self, he⟩
      · cases h

/-- No entry of the block is in the buffer exactly when there is no newest one. -/
theorem newestEntry_eq_none {buf : List WbEntry} {base : Word} :
    newestEntry buf base = none ↔ ∀ e ∈ buf, e.addr ≠ base := by
  induction buf with
  | nil => simp [newestEntry]
  | cons f es ih =>
    unfold newestEntry
    cases hg : newestEntry es base with
    | some g =>
      have := newestEntry_mem hg
      simp only [reduceCtorEq, false_iff, List.mem_cons]
      intro h
      exact h g (.inr this.1) this.2
    | none =>
      rw [hg] at ih
      have := ih.1 rfl
      by_cases hf : f.addr = base <;> simp [hf]
      exact this

end Sys2Proof.Machine
end

