-- ==== Sys2Proof/Laws/Cycle.lean ====
section
/-! SUPPORT. What a clock edge, and a step, can do, said once (spec/49_cycle_driver.md R350). -/

namespace Sys2Proof.Machine

open Sys2Proof

/-! ### Stages -/

/-- R240, R385: all that the Memory stage asks for. -/
theorem memRequest_cases (s : State) :
    (memRequest s = .ok .none ∧ (s.exmem.valid = false ∨ (s.exmem.ctrl.memRead = false ∧ s.exmem.ctrl.memWrite = false))) ∨
    (memRequest s = .error { code := .busErrorData, addr := s.exmem.aluResult, word := s.exmem.instr } ∧
      s.exmem.valid = true ∧ (s.exmem.ctrl.memRead = true ∨ s.exmem.ctrl.memWrite = true) ∧
      s.inWindow s.exmem.aluResult = false) ∨
    (memRequest s = .ok (.read s.exmem.aluResult) ∧
      s.exmem.valid = true ∧ s.exmem.ctrl.memRead = true ∧ s.inWindow s.exmem.aluResult = true) ∨
    (memRequest s = .ok (.write s.exmem.aluResult s.exmem.rtVal) ∧
      s.exmem.valid = true ∧ s.exmem.ctrl.memRead = false ∧ s.exmem.ctrl.memWrite = true ∧
      s.inWindow s.exmem.aluResult = true) := by
  unfold memRequest
  cases hv : s.exmem.valid <;> cases hr : s.exmem.ctrl.memRead <;> cases hw : s.exmem.ctrl.memWrite <;>
    cases hi : s.inWindow s.exmem.aluResult <;> simp [hv, hr, hw, hi]

/-- R229, R384: Decode fails only on an unrecognised word in a valid latch. -/
theorem decodeStage_error {s : State} {b : Bool} {f : FaultInfo} (h : decodeStage s b = .error f) :
    s.ifid.valid = true ∧ (∃ e, decode s.ifid.instr = .error e) ∧
      f = { code := .illegalInstruction, addr := s.ifid.pc4 - 4, word := s.ifid.instr } := by
  unfold decodeStage at h
  by_cases hv : s.ifid.valid = true
  · simp only [hv, if_true] at h
    cases hd : decode s.ifid.instr with
    | error e => rw [hd] at h; injection h with h; exact ⟨hv, ⟨e, rfl⟩, h.symm⟩
    | ok i => rw [hd] at h; cases h
  · simp only [hv] at h
    cases h

/-- R220 to R228: all that Decode hands on. -/
theorem decodeStage_cases {s : State} {b : Bool} {o : DecodeOut} (h : decodeStage s b = .ok o) :
    (s.ifid.valid = false ∧ o = { prop := Latch.bubble, idStall := false, taken := false, target := 0 }) ∨
    (s.ifid.valid = true ∧ ∃ i, decode s.ifid.instr = .ok i ∧
      o.idStall = (loadUse s i || brWait s i) ∧
      o.taken = (!b && !(loadUse s i || brWait s i) &&
        transferCond i (decodeOperand s i (rsOf s.ifid.instr)) (decodeOperand s i (rtOf s.ifid.instr))) ∧
      o.target = transferTarget i s.ifid.pc4 (decodeOperand s i (rsOf s.ifid.instr)) ∧
      o.prop = idProposal s i o.taken) := by
  unfold decodeStage at h
  by_cases hv : s.ifid.valid = true
  · simp only [hv, if_true] at h
    cases hd : decode s.ifid.instr with
    | error e => rw [hd] at h; cases h
    | ok i => rw [hd] at h; injection h with h; subst h; exact .inr ⟨hv, i, rfl, rfl, rfl, rfl, rfl⟩
  · simp only [hv] at h
    injection h with h
    exact .inl ⟨by simpa using hv, h.symm⟩

/-- R211 to R215: all that Fetch hands on. -/
theorem fetchStage_cases {s t : State} {accept : Bool} {o : FetchOut} (h : fetchStage s t accept = .ok o) :
    (accept = false ∧ o = { isHalt := false, prop := Latch.bubble }) ∨
    (accept = true ∧ s.inWindow s.pc = true ∧
      o = { isHalt := haltCondition s (t.ifetchRead s.pc), prop := ifProposal s (t.ifetchRead s.pc) }) := by
  unfold fetchStage at h
  cases accept with
  | false => injection h with h; exact .inl ⟨rfl, h.symm⟩
  | true =>
    by_cases hw : s.inWindow s.pc = true
    · simp only [if_true, hw] at h; injection h with h; exact .inr ⟨rfl, hw, h.symm⟩
    · simp only [if_true, hw] at h; cases h

/-- R386: Fetch fails only when it is accepted outside the window. -/
theorem fetchStage_error {s t : State} {accept : Bool} {f : FaultInfo} (h : fetchStage s t accept = .error f) :
    accept = true ∧ s.inWindow s.pc = false ∧ f = { code := .busErrorFetch, addr := s.pc, word := 0 } := by
  unfold fetchStage at h
  cases accept with
  | false => cases h
  | true =>
    by_cases hw : s.inWindow s.pc = true
    · simp only [if_true, hw] at h; cases h
    · simp only [if_true, hw] at h; injection h with h; exact ⟨rfl, by simpa using hw, h.symm⟩

/-! ### The cycle -/

/-- R350 steps 1 to 7: a cycle that raises no fault. -/
theorem cycle_ok {s t : State} (h : cycle s = .ok t) :
    ∃ req after answer id fetch,
      memRequest s = .ok req ∧ memorySide s req = .ok (after, answer) ∧
      decodeStage s (decide (answer = .miss)) = .ok id ∧
      fetchStage s after (acceptFetch s (decide (answer = .miss)) id.idStall id.taken) = .ok fetch ∧
      t = commit s after answer id fetch := by
  unfold cycle at h
  cases h1 : memRequest s with
  | error f => rw [h1] at h; cases h
  | ok req =>
    rw [h1] at h; dsimp only at h
    cases h2 : memorySide s req with
    | error f => rw [h2] at h; cases h
    | ok p =>
      obtain ⟨after, answer⟩ := p
      rw [h2] at h; dsimp only at h
      cases h3 : decodeStage s (decide (answer = .miss)) with
      | error f => rw [h3] at h; cases h
      | ok id =>
        rw [h3] at h; dsimp only at h
        cases h4 : fetchStage s after (acceptFetch s (decide (answer = .miss)) id.idStall id.taken) with
        | error f => rw [h4] at h; cases h
        | ok fetch =>
          rw [h4] at h
          injection h with h
          exact ⟨req, after, answer, id, fetch, rfl, h2, h3, h4, h.symm⟩

/-- R361, R389: a cycle that raises a fault raises the first one met, from the oldest stage on. -/
theorem cycle_error {s : State} {f : FaultInfo} (h : cycle s = .error f) :
    memRequest s = .error f ∨
    (∃ req, memRequest s = .ok req ∧
      (memorySide s req = .error f ∨
       ∃ after answer, memorySide s req = .ok (after, answer) ∧
        (decodeStage s (decide (answer = .miss)) = .error f ∨
         ∃ id, decodeStage s (decide (answer = .miss)) = .ok id ∧
          fetchStage s after (acceptFetch s (decide (answer = .miss)) id.idStall id.taken) = .error f))) := by
  unfold cycle at h
  cases h1 : memRequest s with
  | error g => rw [h1] at h; injection h with h; exact .inl (by rw [h])
  | ok req =>
    refine .inr ⟨req, rfl, ?_⟩
    rw [h1] at h; dsimp only at h
    cases h2 : memorySide s req with
    | error g => rw [h2] at h; injection h with h; exact .inl (by rw [h])
    | ok p =>
      obtain ⟨after, answer⟩ := p
      refine .inr ⟨after, answer, rfl, ?_⟩
      rw [h2] at h; dsimp only at h
      cases h3 : decodeStage s (decide (answer = .miss)) with
      | error g => rw [h3] at h; injection h with h; exact .inl (by rw [h])
      | ok id =>
        refine .inr ⟨id, rfl, ?_⟩
        rw [h3] at h; dsimp only at h
        cases h4 : fetchStage s after (acceptFetch s (decide (answer = .miss)) id.idStall id.taken) with
        | error g => rw [h4] at h; injection h with h; rw [h]
        | ok fetch => rw [h4] at h; cases h

/-- R350: all that a clock edge does. -/
theorem clockEdge_cases (s : State) :
    ((s.faulted = true ∨ s.halted = true) ∧ clockEdge s = s) ∨
    (s.faulted = false ∧ s.halted = false ∧ ∃ t, cycle s = .ok t ∧ clockEdge s = t) ∨
    (s.faulted = false ∧ s.halted = false ∧ ∃ f, cycle s = .error f ∧ clockEdge s = s.raise f) := by
  unfold clockEdge
  cases hf : s.faulted <;> cases hh : s.halted <;> simp only [Bool.or_false, Bool.or_true, if_true]
  · cases hc : cycle s with
    | ok t => exact .inr (.inl ⟨trivial, trivial, t, rfl, by simp⟩)
    | error f => exact .inr (.inr ⟨trivial, trivial, f, rfl, by simp⟩)
  · exact .inl ⟨.inr trivial, trivial⟩
  · exact .inl ⟨.inl trivial, trivial⟩
  · exact .inl ⟨.inl trivial, trivial⟩

/-! ### The committed state, field by field -/

section Commit

variable (s after : State) (answer : Answer) (id : DecodeOut) (fetch : FetchOut)

@[simp] theorem commit_cfg : (commit s after answer id fetch).cfg = after.cfg := rfl
@[simp] theorem commit_driver : (commit s after answer id fetch).driver = after.driver := rfl
@[simp] theorem commit_x : (commit s after answer id fetch).x = (writeback s).x := rfl
@[simp] theorem commit_exmem : (commit s after answer id fetch).exmem =
    if answer = .miss then s.exmem else exProposal s := by simp [commit, nextExmem]
@[simp] theorem commit_memwb : (commit s after answer id fetch).memwb =
    if answer = .miss then Latch.bubble else memProposal s.exmem answer := by simp [commit, nextMemwb]
@[simp] theorem commit_lines : (commit s after answer id fetch).lines = after.lines := rfl
@[simp] theorem commit_fill : (commit s after answer id fetch).fill = after.fill := rfl
@[simp] theorem commit_wbuf : (commit s after answer id fetch).wbuf = after.wbuf := rfl
@[simp] theorem commit_fetchStopped : (commit s after answer id fetch).fetchStopped = (s.fetchStopped || fetch.isHalt) := rfl
@[simp] theorem commit_fault : (commit s after answer id fetch).fault = after.fault := rfl
@[simp] theorem commit_faultAddr : (commit s after answer id fetch).faultAddr = after.faultAddr := rfl
@[simp] theorem commit_faultWord : (commit s after answer id fetch).faultWord = after.faultWord := rfl
@[simp] theorem commit_back : (commit s after answer id fetch).back = after.back := rfl

end Commit

/-! ### The sequential reading and the step -/

/-- R27: all that a step of the sequential reading does. -/
theorem sequentialStep_cases (s : State) :
    ((s.faulted = true ∨ s.fetchStopped = true) ∧ sequentialStep s = .next s) ∨
    (s.faulted = false ∧ s.fetchStopped = false ∧ ∃ i, fetchInstr s = .instr i ∧ sequentialStep s = exec i s) ∨
    (s.faulted = false ∧ s.fetchStopped = false ∧ ∃ f, fetchInstr s = .fault f ∧ sequentialStep s = .next (s.raise f)) := by
  unfold sequentialStep
  cases hf : s.faulted <;> cases hh : s.fetchStopped <;> simp only [Bool.or_false, Bool.or_true, if_true]
  · cases hc : fetchInstr s with
    | instr i => exact .inr (.inl ⟨trivial, trivial, i, rfl, by simp⟩)
    | fault f => exact .inr (.inr ⟨trivial, trivial, f, rfl, by simp⟩)
  · exact .inl ⟨.inr trivial, trivial⟩
  · exact .inl ⟨.inl trivial, trivial⟩
  · exact .inl ⟨.inl trivial, trivial⟩

/-- All that a step does. -/
theorem step_cases (s : State) :
    (∃ e, s.cfg.check = some e ∧ step s = .refused (.configuration e)) ∨
    (s.cfg.check = none ∧ s.driver = .clock ∧ step s = .next (clockEdge s)) ∨
    (s.cfg.check = none ∧ s.driver = .sequential ∧ step s = sequentialStep s) := by
  unfold step
  cases hc : s.cfg.check with
  | some e => exact .inl ⟨e, rfl, rfl⟩
  | none =>
    cases hd : s.driver
    · exact .inr (.inl ⟨rfl, rfl, by simp⟩)
    · exact .inr (.inr ⟨rfl, rfl, by simp⟩)

end Sys2Proof.Machine
end

