-- ==== Sys2Proof/Laws/Decode.lean ====
section
/-! SUPPORT. The fields of an encoded word (spec/30_encoding.md R100 to R103), and what the decoder can answer. -/

namespace Sys2Proof

theorem ofFields_toNat {a b : Nat} (x : BitVec a) (y : BitVec b) : (x ++ y).toNat = x.toNat * 2 ^ b + y.toNat := by
  rw [BitVec.toNat_append, ← Nat.shiftLeft_add_eq_or_of_lt y.isLt, Nat.shiftLeft_eq]

section RFormat

variable (rs rt rd : RegIdx) (shamt : Shamt) (funct : BitVec 6)

theorem encodeR_toNat : (encodeR rs rt rd shamt funct).toNat =
    ((((rs.toNat) * 32 + rt.toNat) * 32 + rd.toNat) * 32 + shamt.toNat) * 64 + funct.toNat := by
  refine (ofFields_toNat _ _).trans ?_
  rw [ofFields_toNat, ofFields_toNat, ofFields_toNat, ofFields_toNat]
  simp

@[simp] theorem opcodeOf_encodeR : opcodeOf (encodeR rs rt rd shamt funct) = 0 := by
  apply BitVec.eq_of_toNat_eq
  have := rs.isLt; have := rt.isLt; have := rd.isLt; have := shamt.isLt; have := funct.isLt
  simp only [opcodeOf, BitVec.extractLsb'_toNat, encodeR_toNat, Nat.shiftRight_eq_div_pow]
  change _ = _ % _ at *; simp; omega

@[simp] theorem rsOf_encodeR : rsOf (encodeR rs rt rd shamt funct) = rs := by
  apply BitVec.eq_of_toNat_eq
  have := rs.isLt; have := rt.isLt; have := rd.isLt; have := shamt.isLt; have := funct.isLt
  simp only [rsOf, BitVec.extractLsb'_toNat, encodeR_toNat, Nat.shiftRight_eq_div_pow]; omega

@[simp] theorem rtOf_encodeR : rtOf (encodeR rs rt rd shamt funct) = rt := by
  apply BitVec.eq_of_toNat_eq
  have := rs.isLt; have := rt.isLt; have := rd.isLt; have := shamt.isLt; have := funct.isLt
  simp only [rtOf, BitVec.extractLsb'_toNat, encodeR_toNat, Nat.shiftRight_eq_div_pow]; omega

@[simp] theorem rdOf_encodeR : rdOf (encodeR rs rt rd shamt funct) = rd := by
  apply BitVec.eq_of_toNat_eq
  have := rs.isLt; have := rt.isLt; have := rd.isLt; have := shamt.isLt; have := funct.isLt
  simp only [rdOf, BitVec.extractLsb'_toNat, encodeR_toNat, Nat.shiftRight_eq_div_pow]; omega

@[simp] theorem shamtOf_encodeR : shamtOf (encodeR rs rt rd shamt funct) = shamt := by
  apply BitVec.eq_of_toNat_eq
  have := rs.isLt; have := rt.isLt; have := rd.isLt; have := shamt.isLt; have := funct.isLt
  simp only [shamtOf, BitVec.extractLsb'_toNat, encodeR_toNat, Nat.shiftRight_eq_div_pow]; omega

@[simp] theorem functOf_encodeR : functOf (encodeR rs rt rd shamt funct) = funct := by
  apply BitVec.eq_of_toNat_eq
  have := rs.isLt; have := rt.isLt; have := rd.isLt; have := shamt.isLt; have := funct.isLt
  simp only [functOf, BitVec.extractLsb'_toNat, encodeR_toNat, Nat.shiftRight_eq_div_pow]; omega

end RFormat

section IFormat

variable (opcode : BitVec 6) (rs rt : RegIdx) (imm : Imm16)

theorem encodeI_toNat : (encodeI opcode rs rt imm).toNat =
    ((opcode.toNat * 32 + rs.toNat) * 32 + rt.toNat) * 65536 + imm.toNat := by
  refine (ofFields_toNat _ _).trans ?_
  rw [ofFields_toNat, ofFields_toNat]
  norm_num

@[simp] theorem opcodeOf_encodeI : opcodeOf (encodeI opcode rs rt imm) = opcode := by
  apply BitVec.eq_of_toNat_eq
  have := opcode.isLt; have := rs.isLt; have := rt.isLt; have := imm.isLt
  simp only [opcodeOf, BitVec.extractLsb'_toNat, encodeI_toNat, Nat.shiftRight_eq_div_pow]; omega

@[simp] theorem rsOf_encodeI : rsOf (encodeI opcode rs rt imm) = rs := by
  apply BitVec.eq_of_toNat_eq
  have := opcode.isLt; have := rs.isLt; have := rt.isLt; have := imm.isLt
  simp only [rsOf, BitVec.extractLsb'_toNat, encodeI_toNat, Nat.shiftRight_eq_div_pow]; omega

@[simp] theorem rtOf_encodeI : rtOf (encodeI opcode rs rt imm) = rt := by
  apply BitVec.eq_of_toNat_eq
  have := opcode.isLt; have := rs.isLt; have := rt.isLt; have := imm.isLt
  simp only [rtOf, BitVec.extractLsb'_toNat, encodeI_toNat, Nat.shiftRight_eq_div_pow]; omega

@[simp] theorem imm16Of_encodeI : imm16Of (encodeI opcode rs rt imm) = imm := by
  apply BitVec.eq_of_toNat_eq
  have := opcode.isLt; have := rs.isLt; have := rt.isLt; have := imm.isLt
  simp only [imm16Of, BitVec.extractLsb'_toNat, encodeI_toNat, Nat.shiftRight_eq_div_pow]; omega

end IFormat

section JFormat

variable (jaddr : JAddr)

theorem encodeJ_toNat : (encodeJ jaddr).toNat = 2 * 67108864 + jaddr.toNat := by
  exact (ofFields_toNat _ _).trans (by simp)

@[simp] theorem opcodeOf_encodeJ : opcodeOf (encodeJ jaddr) = 2 := by
  apply BitVec.eq_of_toNat_eq
  have := jaddr.isLt
  simp only [opcodeOf, BitVec.extractLsb'_toNat, encodeJ_toNat, Nat.shiftRight_eq_div_pow]
  change _ = _ % _ at *; simp; omega

@[simp] theorem jaddrOf_encodeJ : jaddrOf (encodeJ jaddr) = jaddr := by
  apply BitVec.eq_of_toNat_eq
  have := jaddr.isLt
  simp only [jaddrOf, BitVec.extractLsb'_toNat, encodeJ_toNat, Nat.shiftRight_eq_div_pow]; omega

end JFormat

/-- The decoder of the Decode stage never answers the sentinel (R117). -/
theorem decode_ne_halt (w : Word) : decode w ≠ .ok .halt := by
  have h1 : ∀ rs rt rd sh f, decodeFunct rs rt rd sh f ≠ some .halt := by
    intro rs rt rd sh f; unfold decodeFunct; split <;> simp
  have h2 : ∀ op rs rt imm ja, decodeOpcode op rs rt imm ja ≠ some .halt := by
    intro op rs rt imm ja; unfold decodeOpcode; split <;> simp
  have h3 : ∀ o : Option Instr, o ≠ some .halt → ∀ e : DecodeError,
      (match o with | some i => Except.ok i | none => Except.error e) ≠ Except.ok Instr.halt := by
    intro o ho e; cases o with
    | none => simp
    | some i => intro h; injection h with h; exact ho (by rw [h])
  refine h3 _ ?_ _
  split
  · exact h1 _ _ _ _ _
  · exact h2 _ _ _ _ _

end Sys2Proof
end

