-- ==== Sys2Proof/Laws/Operands.lean ====
section
/-! SUPPORT. The operand and comparison helpers as numbers (spec/30_encoding.md R104 to R107, spec/40_alu_register.md R141). -/

namespace Sys2Proof.Machine

open Sys2Proof

@[simp] theorem zext_toNat (imm : Imm16) : (zext imm).toNat = imm.toNat := by
  have := imm.isLt
  simp only [zext, BitVec.toNat_setWidth]
  exact Nat.mod_eq_of_lt (by omega)

@[simp] theorem sext_toInt (imm : Imm16) : (sext imm).toInt = imm.toInt :=
  BitVec.toInt_signExtend_of_le (by decide)

theorem flagWord_true : flagWord true = 1 := rfl

theorem flagWord_false : flagWord false = 0 := rfl

theorem lessSigned_iff (a b : Word) : lessSigned a b = true ↔ a.toInt < b.toInt := by simp [lessSigned]

theorem lessUnsigned_iff (a b : Word) : lessUnsigned a b = true ↔ a.toNat < b.toNat := by simp [lessUnsigned]

theorem jumpTarget_toNat (pc4 : Word) (jaddr : JAddr) :
    (jumpTarget pc4 jaddr).toNat = pc4.toNat / 2 ^ 28 * 2 ^ 28 + jaddr.toNat * 4 := by
  have h := pc4.isLt
  have hj := jaddr.isLt
  unfold jumpTarget
  refine (BitVec.toNat_append _ _).trans ?_
  rw [← Nat.shiftLeft_add_eq_or_of_lt (by simp), BitVec.toNat_append, ← Nat.shiftLeft_add_eq_or_of_lt hj]
  simp only [BitVec.extractLsb'_toNat, Nat.shiftLeft_eq, Nat.shiftRight_eq_div_pow, BitVec.toNat_ofNat]
  omega

end Sys2Proof.Machine
end

