-- ==== Sys2Proof/Laws/Registers.lean ====
section
/-! SUPPORT. The laws of the register file (spec/10_state.md R32, R33) and of the pc. -/

namespace Sys2Proof.Machine

open Sys2Proof

@[simp] theorem State.readReg_zero (s : State) : s.readReg 0#5 = 0#32 := rfl

@[simp] theorem State.writeReg_zero (s : State) (v : Word) : s.writeReg 0#5 v = s := rfl

/-- What a register reads as after a write: everything `writeReg` does to the register file. -/
theorem State.readReg_writeReg (s : State) (i r : RegIdx) (v : Word) :
    (s.writeReg i v).readReg r = if r = i ∧ r ≠ 0 then v else s.readReg r := by
  unfold State.writeReg State.readReg
  by_cases hr : r = 0
  · subst hr; simp
  · by_cases hi : i = 0
    · subst hi; simp [show r ≠ 0#5 from hr]
    · rw [if_neg hi, if_neg hr]
      by_cases hri : r = i
      · subst hri; simp [show r ≠ 0#5 from hr]
      · have : i.toNat ≠ r.toNat := fun h => hri (BitVec.eq_of_toNat_eq h.symm)
        simp [hri, Vector.getElem_set_ne, this, show r ≠ 0#5 from hr]

theorem State.readReg_writeReg_same (s : State) (i : RegIdx) (v : Word) (h : i ≠ 0) : (s.writeReg i v).readReg i = v := by
  rw [State.readReg_writeReg, if_pos ⟨rfl, h⟩]

theorem State.readReg_writeReg_other (s : State) (i r : RegIdx) (v : Word) (h : r ≠ i) :
    (s.writeReg i v).readReg r = s.readReg r := by
  simp [State.readReg_writeReg, h]

/-- Reading a register depends on the register file alone. -/
theorem State.readReg_congr {s t : State} (h : t.x = s.x) (r : RegIdx) : t.readReg r = s.readReg r := by
  simp [State.readReg, h]

@[simp] theorem State.readReg_setPc (s : State) (t : Word) (r : RegIdx) : (s.setPc t).readReg r = s.readReg r := rfl

@[simp] theorem State.readReg_writeResult (s : State) (i r : RegIdx) (v : Word) :
    (s.writeResult i v).readReg r = (s.writeReg i v).readReg r := rfl

/-- R33: what Decode reads is the register file after this cycle's write. -/
theorem rfw_eq_readReg_writeback (s : State) (r : RegIdx) : rfw s r = (writeback s).readReg r := by
  unfold rfw writeback
  by_cases h : wbEn s = true
  · rw [if_pos h, State.readReg_writeReg]
    by_cases hr : r = s.memwb.dest <;> by_cases h0 : r = 0 <;> simp_all
    · intro h1; exact absurd h1.symm hr
  · simp [h]

/-- The register file is entry 0 as it was, or entry 0 untouched by a write elsewhere. -/
theorem State.writeReg_x_zero (s : State) (i : RegIdx) (v : Word) : (s.writeReg i v).x[0] = s.x[0] := by
  unfold State.writeReg
  split
  · rfl
  · next h =>
    have : i.toNat ≠ 0 := fun h0 => h (BitVec.eq_of_toNat_eq (by simpa using h0))
    simp [Vector.getElem_set_ne, this]

/-- Two register files that read alike everywhere and agree in entry 0 are equal. -/
theorem State.x_ext {s t : State} (h0 : s.x[0] = t.x[0]) (h : ∀ r, s.readReg r = t.readReg r) : s.x = t.x := by
  apply Vector.ext
  intro i hi
  by_cases hz : i = 0
  · subst hz; exact h0
  · have := h (BitVec.ofNat 5 i)
    have hne : BitVec.ofNat 5 i ≠ 0 := fun e => hz (by
      have := congrArg BitVec.toNat e
      simp only [BitVec.toNat_ofNat] at this
      rw [Nat.mod_eq_of_lt (by omega)] at this
      simpa using this)
    simp only [State.readReg, hne, if_false, BitVec.toNat_ofNat] at this
    have hm : i % 2 ^ 5 = i := Nat.mod_eq_of_lt (by omega)
    simpa only [hm] using this

end Sys2Proof.Machine
end

