-- ==== Sys2Proof/Tests/Slice0.lean ====
section
/-! SUPPORT. Tests on fixed values. The expected results are the spec's: the examples of the instruction rules and the vectors of
spec/95_test_vectors.md. -/

namespace Sys2Proof.Tests

open Sys2Proof Sys2Proof.Machine

/-! ### WellFormed: ill-formed terms are refused (R117, R194) -/

/-- `JR $zero` with all other fields zero has the sentinel's word. -/
theorem test_wellFormed_refuses_jr_zero : (Instr.jr 0 0 0 0).wellFormed Config.defaultHaltWord = false := by decide

/-- With another `HALT_WORD`, the instruction whose word it is. -/
theorem test_wellFormed_refuses_haltWord_of_config : (Instr.addi 0 8 5).wellFormed 0x20080005#32 = false := by decide

theorem test_wellFormed_accepts_jr_zero_with_rd : (Instr.jr 0 0 1 0).wellFormed Config.defaultHaltWord = true := by decide

theorem test_wellFormed_accepts_halt : Instr.halt.wellFormed Config.defaultHaltWord = true := by decide

/-! ### Decoding: one word of the spec for every constructor -/

/-- The fetched word as an instruction, with the default `HALT_WORD`. -/
def read (w : Word) : Except DecodeError Instr := decodeFetched Config.defaultHaltWord w

theorem test_decode_sll : read 0x00084900#32 = .ok (.sll 0 8 9 4) := by decide
theorem test_decode_srl : read 0x00085102#32 = .ok (.srl 0 8 10 4) := by decide
theorem test_decode_sra : read 0x00084903#32 = .ok (.sra 0 8 9 4) := by decide
theorem test_decode_jr : read 0x01600008#32 = .ok (.jr 11 0 0 0) := by decide
theorem test_decode_add : read 0x01095020#32 = .ok (.add 8 9 10 0) := by decide
theorem test_decode_addu : read 0x01295021#32 = .ok (.addu 9 9 10 0) := by decide
theorem test_decode_sub : read 0x01095022#32 = .ok (.sub 8 9 10 0) := by decide
theorem test_decode_subu : read 0x01095023#32 = .ok (.subu 8 9 10 0) := by decide
theorem test_decode_and : read 0x01095024#32 = .ok (.and 8 9 10 0) := by decide
theorem test_decode_or : read 0x01095025#32 = .ok (.or 8 9 10 0) := by decide
theorem test_decode_xor : read 0x01095026#32 = .ok (.xor 8 9 10 0) := by decide
/-- R108: `shamt` is don't-care. -/
theorem test_decode_nor : read 0x012A67E7#32 = .ok (.nor 9 10 12 31) := by decide
theorem test_decode_slt : read 0x012A602A#32 = .ok (.slt 9 10 12 0) := by decide
theorem test_decode_sltu : read 0x0109502B#32 = .ok (.sltu 8 9 10 0) := by decide
theorem test_decode_j : read 0x08000049#32 = .ok (.j 0x49) := by decide
theorem test_decode_beq : read 0x11090002#32 = .ok (.beq 8 9 2) := by decide
theorem test_decode_bne : read 0x1500FFFD#32 = .ok (.bne 8 0 0xFFFD) := by decide
theorem test_decode_addi : read 0x20080005#32 = .ok (.addi 0 8 5) := by decide
theorem test_decode_addiu : read 0x2509FFFF#32 = .ok (.addiu 8 9 0xFFFF) := by decide
theorem test_decode_slti : read 0x2909FFFD#32 = .ok (.slti 8 9 0xFFFD) := by decide
theorem test_decode_sltiu : read 0x2D09FFFD#32 = .ok (.sltiu 8 9 0xFFFD) := by decide
theorem test_decode_andi : read 0x3109FF0F#32 = .ok (.andi 8 9 0xFF0F) := by decide
theorem test_decode_ori : read 0x34100200#32 = .ok (.ori 0 16 0x200) := by decide
theorem test_decode_xori : read 0x3909FFFF#32 = .ok (.xori 8 9 0xFFFF) := by decide
/-- R108: `rs` is don't-care. -/
theorem test_decode_lui : read 0x3FE81234#32 = .ok (.lui 31 8 0x1234) := by decide
theorem test_decode_lw : read 0x8C0A0000#32 = .ok (.lw 0 10 0) := by decide
theorem test_decode_sw : read 0xAC090000#32 = .ok (.sw 0 9 0) := by decide
theorem test_decode_halt : read 0x00000008#32 = .ok .halt := by decide
/-- R117: any other word with `opcode = 0` and `funct = 8` is an ordinary `JR`. -/
theorem test_decode_jr_zero_with_rd : read 0x00000808#32 = .ok (.jr 0 0 1 0) := by decide
/-- R116: the all-zero word is a real instruction. -/
theorem test_decode_nop : read 0x00000000#32 = .ok (.sll 0 0 0 0) := by decide
/-- R115: opcode 1. -/
theorem test_decode_unrecognised : read 0x04000000#32 = .error (.unrecognised 1 0) := by decide
theorem test_decode_truncated : decodeBytes .little 8 [0x20, 0x50, 0x09] = .error .truncated := by decide

/-! ### One instruction (spec/95_test_vectors.md Part 2) -/

/-- `State.reset` with some registers written. -/
def given : List (RegIdx × Word) → State
  | [] => State.reset
  | (r, v) :: l => (given l).writeReg r v

/-- The state after the next step, or the state itself. -/
def stepped (s : State) : State :=
  match step s with
  | .next t => t
  | .fault _ => s
  | .refused _ => s

/-- The state after one instruction word, from `State.reset` with some registers written. -/
def after (l : List (RegIdx × Word)) (w : Nat) : State := stepped ((given l).withFetchWord 32 w)

theorem test_add_wraps : (after [(8, 0x7FFFFFFF), (9, 1)] 0x01095020).readReg 10 = 0x80000000 := by decide
theorem test_add_zero_destination :
    (after [(8, 5), (9, 3)] 0x01090020).x = (given [(8, 5), (9, 3)]).x := by decide
theorem test_addu : (after [(8, 0xFFFFFFFF), (9, 0xFFFFFFFF)] 0x01095021).readReg 10 = 0xFFFFFFFE := by decide
theorem test_sub : (after [(8, 3), (9, 5)] 0x01095022).readReg 10 = 0xFFFFFFFE := by decide
theorem test_subu : (after [(8, 0x80000000), (9, 1)] 0x01095023).readReg 10 = 0x7FFFFFFF := by decide
theorem test_and : (after [(8, 0xFF00FF00), (9, 0x0FF00FF0)] 0x01095024).readReg 10 = 0x0F000F00 := by decide
theorem test_or : (after [(8, 0xFF00FF00), (9, 0x0FF00FF0)] 0x01095025).readReg 10 = 0xFFF0FFF0 := by decide
theorem test_xor : (after [(8, 0xFF00FF00), (9, 0x0FF00FF0)] 0x01095026).readReg 10 = 0xF0F0F0F0 := by decide
theorem test_nor : (after [(8, 0xFF00FF00), (9, 0x0FF00FF0)] 0x01095027).readReg 10 = 0x000F000F := by decide
theorem test_slt_exact : (after [(8, 0x80000000), (9, 0x7FFFFFFF)] 0x0109502A).readReg 10 = 1 := by decide
theorem test_sltu : (after [(8, 0x80000000), (9, 0x7FFFFFFF)] 0x0109502B).readReg 10 = 0 := by decide
theorem test_sll : (after [(8, 1)] 0x00084FC0).readReg 9 = 0x80000000 := by decide
theorem test_sll_ignores_rs : (after [(8, 0xF), (31, 0x12345)] 0x03E84900).readReg 9 = 0xF0 := by decide
theorem test_srl : (after [(8, 0x80000000)] 0x00084902).readReg 9 = 0x08000000 := by decide
theorem test_sra : (after [(8, 0x80000000)] 0x00084903).readReg 9 = 0xF8000000 := by decide
theorem test_addi : (after [(8, 0x80000000)] 0x21098000).readReg 9 = 0x7FFF8000 := by decide
theorem test_addiu : (after [(8, 0)] 0x2509FFFF).readReg 9 = 0xFFFFFFFF := by decide
theorem test_slti : (after [(8, 0xFFFFFFFC)] 0x2909FFFD).readReg 9 = 1 := by decide
theorem test_sltiu_sign_extends : (after [(8, 0xFFFF)] 0x2D098000).readReg 9 = 1 := by decide
theorem test_andi : (after [(8, 0xFFFFFFFF)] 0x3109FF0F).readReg 9 = 0xFF0F := by decide
theorem test_ori_zero_extends : (after [(8, 0)] 0x35098000).readReg 9 = 0x8000 := by decide
theorem test_xori : (after [(8, 0xFFFFFFFF)] 0x3909FFFF).readReg 9 = 0xFFFF0000 := by decide
theorem test_lui : (after [(8, 0xAAAAAAAA)] 0x3C088000).readReg 8 = 0x80000000 := by decide

theorem test_lw_ignores_low_bits :
    (stepped (((given [(8, 0x1FF)]).loadWord 0x200 0xCAFE).withFetchWord 32 0x8D090004)).readReg 9 = 0xCAFE := by decide
theorem test_lw_address_wraps :
    (stepped (((given [(8, 0xFFFFFFFF)]).loadWord 0x200 0xCAFE).withFetchWord 32 0x8D090201)).readReg 9 = 0xCAFE := by decide
theorem test_sw_last_word : (after [(8, 0x1000), (9, 2)] 0xAD09FFFC).backRead 0xFFC = 2 := by decide
theorem test_sw_outside_window :
    let t := after [(8, 0), (9, 1)] 0xAD091000
    (t.fault, t.faultAddr, t.faultWord, t.pc) = (.busErrorData, 0x1000, 0xAD091000, 0x100) := by decide

theorem test_beq_taken_wraps : (after [(8, 5), (9, 5)] 0x11098000).pc = 0xFFFE0104 := by decide
theorem test_beq_not_taken : (after [(8, 5), (9, 6)] 0x11090002).pc = 0x104 := by decide
theorem test_bne_taken : (after [(8, 1), (9, 0)] 0x1509FFFD).pc = 0xF8 := by decide
theorem test_bne_not_taken : (after [(8, 7), (9, 7)] 0x1509FFFD).pc = 0x104 := by decide
theorem test_j : (after [] 0x08000049).pc = 0x124 := by decide
theorem test_j_keeps_region_of_next : jumpTarget (0x0FFFFFFC + 4) 0 = 0x10000000 := by decide
theorem test_jr_keeps_low_bits : (after [(11, 0x11A)] 0x01600008).pc = 0x11A := by decide
theorem test_halt : let t := after [] 0x00000008; (t.fetchStopped, t.pc, t.fault) = (true, 0x100, .none) := by decide
theorem test_illegal_instruction :
    let t := after [] 0x04000000
    (t.fault, t.faultAddr, t.faultWord, t.pc) = (.illegalInstruction, 0x100, 0x04000000, 0x100) := by decide
theorem test_tableWord_add : decodeTableWord 32 0x01095020 = some (.add 8 9 10 0) := by decide
theorem test_tableWord_halt : decodeTableWord 32 0x00000008 = some .halt := by decide

/-! ### One clock edge (R350) -/

/-- A cache of four lines of two words (spec/95_test_vectors.md). -/
def cached : Config := { Config.standard with cacheMode := .data }

theorem test_check_cached : cached.check = none := by decide

/-- spec/95_test_vectors.md S9, R198: the sentinel alone halts in one cycle. -/
theorem test_clock_halt :
    (clockEdge (State.reset.loadWord 0x100 8)).halted = true := by decide

/-- R311, R290 Part 1 S1: `0xDEADBEEF` with four lines of two words. -/
theorem test_decomposition : (cached.tag 0xDEADBEEF, cached.index 0xDEADBEEF, cached.offset 0xDEADBEEF,
    byteField 0xDEADBEEF) = (0x6F56DF7, 1, 1, 3) := by decide

/-- spec/95_test_vectors.md Part 5: a cache of three lines is refused. -/
theorem test_refused_numLines : Config.check { cached with numLines := 3 } = some .numLines := by decide

/-! ### States for the witnesses -/

/-- A state with bubbles in its latches has the latch half of the invariant. -/
theorem machineOk_of_bubbles (s : State) (hx : s.x[0] = 0) (h1 : s.ifid = Latch.bubble) (h2 : s.idex = Latch.bubble)
    (h3 : s.exmem = Latch.bubble) (h4 : s.memwb = Latch.bubble) (hm : s.back.Wf) (hw : s.back.Within s.cfg.memSize)
    (hc : s.cfg.cached = true → CacheOk s) (ht : WriteThroughOk s) (hu : UncachedOk s) : MachineOk s where
  registers := hx
  bubbles := ⟨fun _ => h1, fun _ => h2, fun _ => h3, fun _ => h4⟩
  latches := by
    refine ⟨by rw [h1]; rfl, ?_, by rw [h2]; exact ⟨rfl, rfl⟩, ?_, by rw [h3]; rfl, ?_⟩
    · rw [h2]; intro h; cases h
    · rw [h3]; intro h; cases h
    · rw [h4]; intro h; cases h
  memory := ⟨hm, hw⟩
  cache := hc
  writeThrough := ht
  uncached := hu

/-- Line 0 holds the block at 0x200, dirty: the words 7 and 9. Blocks with another tag in line 0: 0x220. -/
def warm : State :=
  { State.ofConfig cached [] with lines := (State.ofConfig cached []).lines.set 0 ⟨true, true, 0x10, [7, 9]⟩ }

theorem warm_cacheOk : CacheOk warm where
  lineCount := by decide
  lineWords := by decide
  lineTags := by decide
  lineInWindow := by decide
  dirtyIsValid := by decide
  fill := fun h => by cases h
  cleanWords := by decide
  entries := fun e he => (by cases he)
  noEntryOfLine := by decide
  occupancy := by decide

theorem warm_machineOk : MachineOk warm :=
  machineOk_of_bubbles warm (by decide) rfl rfl rfl rfl (by decide) (by decide) (fun _ => warm_cacheOk)
    (fun h => by cases h) (fun h => by cases h)

theorem reset_machineOk : MachineOk State.reset :=
  machineOk_of_bubbles State.reset (by decide) rfl rfl rfl rfl (by decide) (by decide) (fun h => by cases h)
    (fun h => by cases h) (fun _ => ⟨rfl, rfl, rfl⟩)

/-- The latch of a decoded word, with a given `aluResult`. -/
def latchOf (w : Word) (i : Instr) (aluResult : Word) : Latch :=
  { Latch.bubble with
    valid := true, instr := w, opcode := opcodeOf w, rs := rsOf w, rt := rtOf w, rd := rdOf w, shamt := shamtOf w,
    funct := functOf w, imm16 := imm16Of w, immext := immextOf i, jaddr := jaddrOf w, ctrl := controlOf i,
    aluResult := aluResult }

theorem latchOf_decoded (w : Word) (i : Instr) (v : Word) (h : decode w = .ok i) (hb : (controlOf i).branch = false) :
    (latchOf w i v).Decoded := fun _ =>
  ⟨i, h, rfl, rfl, rfl, rfl, rfl, rfl, rfl, rfl, rfl, rfl, fun hc => by
    simp only [latchOf] at hc
    rw [hb] at hc
    cases hc⟩

/-- `LW $t2,0x220($zero)` in Memory: it misses, and the dirty line must go. -/
def missing : State := { warm with exmem := latchOf 0x8C0A0220#32 (.lw 0 10 0x220) 0x220 }

theorem missing_machineOk : MachineOk missing where
  registers := warm_machineOk.registers
  bubbles := ⟨fun _ => rfl, fun _ => rfl, fun h => (by cases h), fun _ => rfl⟩
  latches := ⟨rfl, fun h => (by cases h), ⟨rfl, rfl⟩, latchOf_decoded _ _ _ (by decide) rfl, rfl, fun h => (by cases h)⟩
  memory := ⟨warm_machineOk.memory.wf, warm_machineOk.memory.within⟩
  cache := fun _ =>
    { lineCount := by decide, lineWords := by decide, lineTags := by decide, lineInWindow := by decide,
      dirtyIsValid := by decide, fill := fun h => (by cases h), cleanWords := by decide, entries := fun e he => (by cases he),
      noEntryOfLine := by decide, occupancy := by decide }
  writeThrough := fun h => by cases h
  uncached := fun h => by cases h

/-- A word in Decode. -/
def decoding (w : Word) : State :=
  { State.reset with ifid := { Latch.bubble with valid := true, instr := w, pc4 := 0x104, npc := 0x104 }, pc := 0x104 }

theorem decoding_machineOk (w : Word) : MachineOk (decoding w) where
  registers := reset_machineOk.registers
  bubbles := ⟨fun h => (by cases h), fun _ => rfl, fun _ => rfl, fun _ => rfl⟩
  latches := ⟨rfl, fun h => (by cases h), ⟨rfl, rfl⟩, fun h => (by cases h), rfl, fun h => (by cases h)⟩
  memory := ⟨reset_machineOk.memory.wf, reset_machineOk.memory.within⟩
  cache := fun h => by cases h
  writeThrough := fun h => by cases h
  uncached := fun _ => ⟨rfl, rfl, rfl⟩

/-- A data access in Memory, with the cache disabled. -/
def accessing (w : Word) (i : Instr) (a : Word) : State := { State.reset with exmem := latchOf w i a }

/-- Whether a cycle commits, or the fault it raises. -/
def cycleFault (s : State) : Option FaultInfo :=
  match cycle s with
  | .ok _ => none
  | .error f => some f

/-- The answer of the memory side; `none` after a fault. -/
def answerOf (s : State) (req : Request) : Option Answer :=
  match memorySide s req with
  | .ok (_, ans) => some ans
  | .error _ => none

theorem memorySide_of_answer {s : State} {req : Request} {ans : Answer} (h : answerOf s req = some ans) :
    ∃ t, memorySide s req = .ok (t, ans) := by
  unfold answerOf at h
  split at h
  · next t a e => injection h with h; subst h; exact ⟨t, e⟩
  · cases h

/-! ### Witnesses: for each statement with hypotheses, states and operands that meet them -/

theorem witness_DecodeAfterEncode :
    (Instr.add 31 31 31 31).wellFormed Config.defaultHaltWord = true ∧ (Instr.jr 0 0 1 0).wellFormed 8 = true ∧
    Instr.halt.wellFormed 8 = true := by decide

theorem witness_EncodeAfterDecode :
    decodeFetched 8 0x00000808#32 = .ok (.jr 0 0 1 0) ∧ decodeFetched 8 8 = .ok .halt := by decide

theorem witness_IllegalEncodings :
    (decoding 0x04000000).fault = .none ∧ (decoding 0x04000000).ifid.valid = true ∧
    ∀ i, decode (decoding 0x04000000).ifid.instr ≠ .ok i :=
  ⟨rfl, rfl, fun i h => by
    have e : decode (decoding 0x04000000).ifid.instr = .error (.unrecognised 1 0) := by decide
    rw [e] at h; cases h⟩

theorem witness_LoadWord :
    (0xFFF#32).toNat = (((State.reset.readReg 0).toNat : Int) + immSigned 0xFFF) % 2 ^ 32 ∧
    (0xFFF#32).toNat < State.reset.cfg.memSize := by decide

theorem witness_StoreWord_uncached :
    State.reset.cfg.check = none ∧ MachineOk State.reset ∧
    ((0xFFF#32).toNat : Int) = (((State.reset.readReg 0).toNat : Int) + immSigned 0xFFF) % 2 ^ 32 ∧
    (0xFFF#32).toNat < State.reset.cfg.memSize := ⟨by decide, reset_machineOk, by decide, by decide⟩

theorem witness_StoreWord_cached :
    warm.cfg.check = none ∧ MachineOk warm ∧
    ((0x204#32).toNat : Int) = (((warm.readReg 0).toNat : Int) + immSigned 0x204) % 2 ^ 32 ∧
    (0x204#32).toNat < warm.cfg.memSize := ⟨by decide, warm_machineOk, by decide, by decide⟩

theorem witness_DataAccessOutsideWindowFaults :
    State.reset.fault = .none ∧
    ((0x1000#32).toNat : Int) = (((State.reset.readReg 0).toNat : Int) + immSigned 0x1000) % 2 ^ 32 ∧
    State.reset.cfg.memSize ≤ (0x1000#32).toNat := by decide

theorem witness_JumpsSetPc :
    State.reset.pc.toNat % 4 = 0 ∧ ∃ t, exec (.j 0x49) State.reset = .next t := ⟨by decide, _, rfl⟩

theorem witness_StepRunsTheDecodedInstruction :
    let s := State.reset.withFetchWord 32 0x01095020
    s.cfg.check = none ∧ s.driver = .sequential ∧ s.fault = .none ∧ s.fetchStopped = false ∧
    s.pc.toNat < s.cfg.memSize ∧ ¬ (s.cfg.haltOnPcZero = true ∧ s.pc = 0) ∧
    decodeBytes s.cfg.byteOrder s.cfg.haltWord
      [s.back.readByte (s.pc.toNat / 4 * 4), s.back.readByte (s.pc.toNat / 4 * 4 + 1),
        s.back.readByte (s.pc.toNat / 4 * 4 + 2), s.back.readByte (s.pc.toNat / 4 * 4 + 3)] =
      .ok (.add 8 9 10 0, []) := by decide

/-- `seq` is the sequential reading of a state. -/
def seq (s : State) : State := { s with driver := .sequential }

theorem witness_SequentialFetchOutcomes_frozen :
    (seq { State.reset with fault := .busErrorData }).fault ≠ .none ∧ (seq State.reset).cfg.check = none ∧
    (seq State.reset).driver = .sequential := by decide

theorem witness_SequentialFetchOutcomes_outside :
    let s := seq { State.reset with pc := 0x1000 }
    s.cfg.check = none ∧ s.fault = .none ∧ s.fetchStopped = false ∧ s.cfg.memSize ≤ s.pc.toNat := by decide

theorem witness_SequentialFetchOutcomes_pcZero :
    let s := seq { State.reset with cfg := { Config.standard with haltOnPcZero := true }, pc := 0 }
    s.cfg.check = none ∧ s.fault = .none ∧ s.fetchStopped = false ∧ s.pc.toNat < s.cfg.memSize ∧
    s.cfg.haltOnPcZero = true ∧ s.pc = 0 := by decide

theorem witness_SequentialFetchOutcomes_unrecognised :
    let s := seq { State.reset.loadWord 0xFFC 0x04000000 with pc := 0xFFF }
    s.cfg.check = none ∧ s.fault = .none ∧ s.fetchStopped = false ∧ s.pc.toNat < s.cfg.memSize ∧
    ¬ (s.cfg.haltOnPcZero = true ∧ s.pc = 0) ∧
    decodeFetched s.cfg.haltWord (s.ifetchRead s.pc) = .error (.unrecognised 1 0) := by decide

theorem witness_InvalidConfigurationRefused :
    Config.standard.check = none ∧ cached.check = none ∧
    Config.check { cached with blockWords := 2048 } = some .blockTooLarge ∧
    Config.check { Config.standard with memSize := 8 } = some .memSize := by decide

theorem witness_StickyFields :
    (∃ t, step State.reset = .next t) ∧ (∃ t, step { State.reset with fault := .illegalInstruction } = .next t) ∧
    ∃ t, step { State.reset with fetchStopped := true } = .next t := ⟨⟨_, rfl⟩, ⟨_, rfl⟩, ⟨_, rfl⟩⟩

theorem witness_ResetValues : (State.ofConfig cached []).cfg.cacheMode = .data ∧
    (State.ofConfig cached []).applyReset.lines.length = 4 := by decide

theorem witness_ResetSatisfiesInvariant :
    cached.check = none ∧ Memory.Wf [(0x100, 8), (0xFFF, 1)] ∧ Memory.Within cached.memSize [(0x100, 8), (0xFFF, 1)] := by
  decide

theorem witness_MachineInvariantKept :
    MachineOk State.reset ∧ (∃ t, step State.reset = .next t) ∧ MachineOk missing ∧ ∃ t, step missing = .next t :=
  ⟨reset_machineOk, ⟨_, rfl⟩, missing_machineOk, ⟨_, rfl⟩⟩

theorem witness_RegisterZeroAndBubblesKept : (∃ t, step missing = .next t) ∧ BubblesOk missing :=
  ⟨⟨_, rfl⟩, missing_machineOk.bubbles⟩

/-- An instruction in Writeback that writes 7 to register 31. -/
def writing : State := { State.reset with memwb := latchOf 0x201F0007#32 (.addi 0 31 7) 7 }

theorem witness_RegisterFilePorts :
    writing.memwb.valid = true ∧ writing.memwb.ctrl.regWrite = true ∧ writing.memwb.dest = 31 ∧ (31 : RegIdx) ≠ 0 := by
  decide

theorem witness_WritebackIsTheOnlyRegisterWriter :
    writing.fault = .none ∧ writing.halted = false ∧ (∃ t, cycle writing = .ok t) ∧
    (∃ f, cycle (decoding 0x04000000) = .error f) ∧ { State.reset with fetchStopped := true }.halted = true :=
  ⟨rfl, rfl, ⟨_, rfl⟩, ⟨_, rfl⟩, rfl⟩

theorem witness_TransfersResolveInDecode :
    (∃ o, decodeStage (decoding 0x08000049) false = .ok o ∧ o.idStall = false) ∧
    (∃ o, decodeStage (decoding 0x01600008) false = .ok o ∧ o.idStall = false) ∧
    (∃ o, decodeStage (decoding 0x11090002) false = .ok o ∧ o.idStall = false ∧ o.taken = true) ∧
    (∃ o, decodeStage (decoding 0x1509FFFD) false = .ok o ∧ o.idStall = false ∧ o.taken = false) ∧
    (∃ o, decodeStage State.reset true = .ok o ∧ State.reset.ifid.valid = false) :=
  ⟨⟨_, rfl, by decide⟩, ⟨_, rfl, by decide⟩, ⟨_, rfl, by decide, by decide⟩, ⟨_, rfl, by decide, by decide⟩, ⟨_, rfl, rfl⟩⟩

/-- `LW $t0,0($zero)` in Execute, `ADD $t2,$t0,$t1` in Decode: the load-use stall. -/
def loadUsing : State := { decoding 0x01095020 with idex := latchOf 0x8C080000#32 (.lw 0 8 0) 0 }

theorem witness_DecodeStalls :
    loadUsing.ifid.valid = true ∧ decode loadUsing.ifid.instr = .ok (.add 8 9 10 0) ∧ loadUsing.fault = .none ∧
    (∃ req t ans, memRequest loadUsing = .ok req ∧ memorySide loadUsing req = .ok (t, ans) ∧ ans ≠ .miss) ∧
    ∃ o, decodeStage loadUsing false = .ok o ∧ o.idStall = true :=
  ⟨rfl, by decide, rfl, ⟨_, _, _, rfl, rfl, by decide⟩, ⟨_, rfl, by decide⟩⟩

theorem witness_TakenTransferSquashes :
    let s := decoding 0x08000049
    s.fault = .none ∧ ∃ req t ans o, memRequest s = .ok req ∧ memorySide s req = .ok (t, ans) ∧
      decodeStage s (decide (ans = .miss)) = .ok o ∧ o.taken = true :=
  ⟨rfl, _, _, _, _, rfl, rfl, rfl, by decide⟩

theorem witness_AcceptedFetch :
    let s := State.reset.loadWord 0x100 8
    s.fault = .none ∧ s.fetchStopped = false ∧ s.pc.toNat < s.cfg.memSize ∧
    ∃ req t ans o, memRequest s = .ok req ∧ memorySide s req = .ok (t, ans) ∧ ans ≠ .miss ∧
      decodeStage s false = .ok o ∧ o.idStall = false ∧ o.taken = false ∧ t.backRead s.pc = s.cfg.haltWord :=
  ⟨rfl, rfl, by decide, _, _, _, _, rfl, rfl, by decide, rfl, rfl, rfl, by decide⟩

theorem witness_AcceptedFetch_word :
    let s := State.reset
    ∃ req t ans o, memRequest s = .ok req ∧ memorySide s req = .ok (t, ans) ∧ ans ≠ .miss ∧
      decodeStage s false = .ok o ∧ o.idStall = false ∧ o.taken = false ∧
      ¬ (t.backRead s.pc = s.cfg.haltWord ∨ (s.cfg.haltOnPcZero = true ∧ s.pc = 0)) :=
  ⟨_, _, _, _, rfl, rfl, by decide, rfl, rfl, rfl, by decide⟩

theorem witness_MemoryStallHolds :
    MachineOk missing ∧ missing.fault = .none ∧ (∃ o, decodeStage missing true = .ok o) ∧
    memRequest missing = .ok (.read 0x220) ∧ ∃ t, memorySide missing (.read 0x220) = .ok (t, .miss) :=
  ⟨missing_machineOk, rfl, ⟨_, rfl⟩, by decide, memorySide_of_answer (by decide)⟩

/-- `ADD $t2,$t0,$t1` in Execute. -/
def executing : State := { State.reset with idex := latchOf 0x01095020#32 (.add 8 9 10 0) 0 }

theorem witness_ExecuteAgreesWithMeaning :
    executing.idex.valid = true ∧ executing.idex.Decoded ∧ decode executing.idex.instr = .ok (.add 8 9 10 0) ∧
    destOf (.add 8 9 10 0) = some 10 ∧ (10 : RegIdx) ≠ 0 ∧ (∀ rs rt imm, Instr.add 8 9 10 0 ≠ .lw rs rt imm) ∧
    ∀ r ∈ readSet (.add 8 9 10 0), (r = rsOf executing.idex.instr → State.reset.readReg r = operandA executing) ∧
      (r = rtOf executing.idex.instr → State.reset.readReg r = operandB executing) :=
  ⟨rfl, latchOf_decoded _ _ _ (by decide) rfl, by decide, rfl, by decide, fun _ _ _ h => (by cases h), by decide⟩

theorem witness_HaltedIsAFixedPoint :
    MachineOk { State.reset with fetchStopped := true } ∧ { State.reset with fetchStopped := true }.halted = true :=
  ⟨⟨reset_machineOk.registers, ⟨fun _ => rfl, fun _ => rfl, fun _ => rfl, fun _ => rfl⟩,
    ⟨rfl, fun h => (by cases h), ⟨rfl, rfl⟩, fun h => (by cases h), rfl, fun h => (by cases h)⟩, ⟨reset_machineOk.memory.wf, reset_machineOk.memory.within⟩,
    fun h => (by cases h), fun h => (by cases h), fun _ => ⟨rfl, rfl, rfl⟩⟩, rfl⟩

theorem witness_FaultFreezesTheMachine :
    (decoding 0x04000000).fault = .none ∧ (decoding 0x04000000).halted = false ∧
    ∃ f, cycle (decoding 0x04000000) = .error f := ⟨rfl, rfl, _, rfl⟩

theorem witness_BusErrorDataRaised :
    let s := accessing 0xAD091000#32 (.sw 8 9 0x1000) 0x1000
    s.fault = .none ∧ s.exmem.valid = true ∧ s.exmem.ctrl.memWrite = true ∧ s.cfg.memSize ≤ s.exmem.aluResult.toNat ∧
    (cycleFault (accessing 0xAD090FFC#32 (.sw 8 9 0xFFC) 0xFFF)).isNone = true := by decide

theorem witness_BusErrorDataRaised_fullWindow :
    { State.reset with cfg := { Config.standard with memSize := 2 ^ 32 } }.cfg.memSize = 2 ^ 32 ∧
    Config.check { Config.standard with memSize := 2 ^ 32 } = none := by decide

theorem witness_IllegalInstructionRaised :
    let s := decoding 0x04000000
    s.cfg.check = none ∧ MachineOk s ∧ s.fault = .none ∧ s.ifid.valid = true ∧ (∀ i, decode s.ifid.instr ≠ .ok i) ∧
    ¬ (s.exmem.valid = true ∧ (s.exmem.ctrl.memRead = true ∨ s.exmem.ctrl.memWrite = true) ∧
      s.cfg.memSize ≤ s.exmem.aluResult.toNat) :=
  ⟨by decide, decoding_machineOk _, rfl, rfl, witness_IllegalEncodings.2.2, by decide⟩

theorem witness_BusErrorFetchRaised :
    let s := { State.reset with pc := 0x1000 }
    s.fault = .none ∧ s.halted = false ∧ s.fetchStopped = false ∧ s.cfg.memSize ≤ s.pc.toNat ∧
    ∃ req t ans o, memRequest s = .ok req ∧ memorySide s req = .ok (t, ans) ∧
      decodeStage s (decide (ans = .miss)) = .ok o ∧ ans ≠ .miss ∧ o.idStall = false ∧ o.taken = false :=
  ⟨rfl, rfl, rfl, by decide, _, _, _, _, rfl, rfl, rfl, by decide, rfl, rfl⟩

/-- A taken jump in Decode: the fetch behind it is not accepted, so its address raises nothing. -/
theorem witness_BusErrorFetchRaised_notAccepted :
    let s := { decoding 0x08000049 with pc := 0x1000 }
    s.fault = .none ∧ s.halted = false ∧ ∃ req t ans o, memRequest s = .ok req ∧ memorySide s req = .ok (t, ans) ∧
      decodeStage s (decide (ans = .miss)) = .ok o ∧ o.taken = true := ⟨rfl, rfl, _, _, _, _, rfl, rfl, rfl, by decide⟩

theorem witness_InternalInvariantUnreachable :
    missing.cfg.check = none ∧ MachineOk missing ∧ missing.fault = .none ∧ Request.inWindow missing.cfg (.read 0xFFF) :=
  ⟨by decide, missing_machineOk, rfl, show (0xFFF#32).toNat < missing.cfg.memSize by decide⟩

theorem witness_AddressDecomposition_and_GeometryMasks :
    cached.check = none ∧ cached.cacheMode = .data ∧
    Config.check { cached with numLines := 1, blockWords := 1 } = none ∧
    Config.check { cached with memSize := 2 ^ 32, numLines := 2 ^ 15, blockWords := 2 ^ 15 } = none := by decide

theorem witness_LowAddressBitsIgnored :
    warm.cfg.check = none ∧ MachineOk warm ∧ wordIndex 0x200 = wordIndex 0x203 := ⟨by decide, warm_machineOk, by decide⟩

theorem witness_FreshCacheMisses :
    cached.check = none ∧ cached.cacheMode = .data ∧ (0xFFF#32).toNat < cached.memSize := by decide

theorem witness_CacheHits :
    warm.lines[warm.cfg.index 0x204]? = some ⟨true, true, 0x10, [7, 9]⟩ ∧ warm.cfg.tag 0x204 = 0x10 ∧
    warm.wordReady 0x204 = true ∧ warm.cfg.writePolicy = .writeBack := by decide

theorem witness_CacheHits_writeThrough :
    let m := { warm with
      cfg := { cached with writePolicy := .writeThrough }
      lines := warm.lines.set 0 ⟨true, false, 0x10, [7, 9]⟩ }
    m.lines[m.cfg.index 0x200]? = some ⟨true, false, 0x10, [7, 9]⟩ ∧ m.cfg.tag 0x200 = 0x10 ∧
    m.wordReady 0x200 = true ∧ m.cfg.writePolicy = .writeThrough ∧ m.back.Wf := by decide

theorem warm_missIdle : MissIdle warm 0x220 := ⟨by decide, warm, rfl, by decide⟩

theorem witness_MissEvictsAndStartsFill_dirty :
    warm.cfg.check = none ∧ warm.cfg.cached = true ∧ MachineOk warm ∧ fillTick (drainOne warm) = .ok warm ∧
    classify warm 0x220 = .missIdle ∧ warm.lines[warm.cfg.index 0x220]? = some ⟨true, true, 0x10, [7, 9]⟩ :=
  ⟨by decide, by decide, warm_machineOk, rfl, by decide, by decide⟩

theorem witness_MissEvictsAndStartsFill_invalid :
    classify warm 0x208 = .missIdle ∧ warm.lines[warm.cfg.index 0x208]? = some (Line.reset 2) := by decide

theorem witness_FullWriteBuffer :
    let m := { warm with wbuf := [⟨0x240, [1, 2], 0x12, 0⟩] }
    m.lines[m.cfg.index 0x220]? = some ⟨true, true, 0x10, [7, 9]⟩ ∧ (0x10 : Nat) ≠ m.cfg.tag 0x220 ∧
    m.fill.active = false ∧ m.wbuf.length = m.cfg.wbCapacity ∧ ([] : List WbEntry).length < m.cfg.wbCapacity := by decide

/-- The last block of the address space. -/
theorem witness_DrainWritesOldestLine :
    let e : WbEntry := ⟨0xFFFFFFF8, [1, 2], 0, 0⟩
    let s := { warm with wbuf := [e] }
    s.back.Wf ∧ s.wbuf = [e] ∧ e.addr.toNat % 4 = 0 ∧ e.addr.toNat + 4 * e.data.length ≤ 2 ^ 32 ∧ warm.wbuf = [] := by
  decide

theorem witness_WriteBufferOccupancy :
    let s := { warm with wbuf := [⟨0x240, [1, 2], 0x12, 0⟩] }
    s.cfg.cached = true ∧ 1 ≤ s.cfg.wbCapacity ∧ s.wbuf.length ≤ 1 ∧
    (∃ t, memorySide s (.read 0x220) = .ok (t, .miss)) ∧ ∃ m, fillTick (drainOne s) = .ok m :=
  ⟨by decide, by decide, by decide, memorySide_of_answer (by decide), _, rfl⟩

theorem witness_ReadHitReturnsArchMem :
    warm.cfg.check = none ∧ MachineOk warm ∧ (0x204#32).toNat < warm.cfg.memSize ∧
    ∃ t, memorySide warm (.read 0x204) = .ok (t, .hit 9) :=
  ⟨by decide, warm_machineOk, by decide, memorySide_of_answer (by decide)⟩

theorem witness_ArchMemChangesOnlyByWriteHits :
    warm.cfg.check = none ∧ MachineOk warm ∧ Request.inWindow warm.cfg (.write 0x204 5) ∧
    (∃ t, memorySide warm (.write 0x204 5) = .ok (t, .hit 5)) ∧ ∃ t, memorySide warm (.write 0x220 5) = .ok (t, .miss) :=
  ⟨by decide, warm_machineOk, show (0x204#32).toNat < warm.cfg.memSize by decide, memorySide_of_answer (by decide),
    memorySide_of_answer (by decide)⟩

theorem witness_FillTimeline :
    warm.cfg.check = none ∧ MachineOk warm ∧ (∀ n : Nat, Request.inWindow warm.cfg ((fun _ => .read 0x220) n)) ∧
    Request.addr ((fun _ => .read 0x220) (0 : Nat)) = some 0x220 ∧ MissIdle warm 0x220 ∧
    0 < warm.cfg.missPenalty + (warm.cfg.blockWords - 1) * warm.cfg.subseqPenalty :=
  ⟨by decide, warm_machineOk, fun _ => show (0x220#32).toNat < warm.cfg.memSize by decide, rfl, warm_missIdle, by decide⟩

theorem witness_MissTakesExactlyItsPenalty :
    warm.cfg.check = none ∧ MachineOk warm ∧ (0x224#32).toNat < warm.cfg.memSize ∧ MissIdle warm 0x224 ∧
    0 < warm.cfg.missPenalty + warm.cfg.offset 0x224 * warm.cfg.subseqPenalty :=
  ⟨by decide, warm_machineOk, by decide, ⟨by decide, warm, rfl, by decide⟩, by decide⟩

theorem witness_BackingStoreWords :
    State.reset.back.Wf ∧ State.reset.back.Within State.reset.cfg.memSize ∧ State.reset.cfg.check = none ∧
    (0xFFF#32).toNat < State.reset.cfg.memSize := by decide

theorem witness_UncachedPath : State.reset.cfg.cacheMode = .disabled := rfl

theorem witness_SentinelAloneHaltsInOneCycle :
    Config.standard.check = none ∧
    Memory.readWord Config.standard.byteOrder [(0x100, 8)] (wordIndex Config.standard.resetPc) =
      Config.standard.haltWord := by decide

/-- Once the sequential reading has stopped it stays. -/
theorem runSteps_stopped (n : Nat) (s : State) (h : step s = .next s) : runSteps n s = .next s := by
  induction n with
  | zero => rfl
  | succ n ih => simp only [runSteps, h, ih]

/-- The program that is the sentinel alone. -/
def sentinel : Memory := [(0x100, 8)]

theorem witness_PipelineAgreesWithSequentialMeaning :
    Config.standard.check = none ∧ sentinel.Wf ∧ sentinel.Within Config.standard.memSize ∧
    (clockEdges 1 (State.ofConfig Config.standard sentinel)).halted = true ∧
    NeverFetchesStored (seqStart Config.standard sentinel) := by
  refine ⟨by decide, by decide, by decide, by decide, fun n t h ht => ?_⟩
  cases n with
  | zero => exact List.not_mem_nil
  | succ n =>
    have h1 : step (seqStart Config.standard sentinel) =
        .next { seqStart Config.standard sentinel with fetchStopped := true } := rfl
    rw [runSteps, h1] at h
    simp only at h
    rw [runSteps_stopped n _ rfl] at h
    injection h with h
    rw [← h] at ht
    cases ht

end Sys2Proof.Tests
end

section
/-! O22: the sequential step is the meaning of the instruction in the four bytes at the pc (spec/00_scope.md R27,
spec/44_control_transfer.md R198). Bytes to word, word to fetched instruction, fetched instruction to step. -/

namespace Sys2Proof

/-- The decoder on four bytes answers what the fetched word stands for, and leaves the rest (R118). -/
theorem decodeBytes_eq_ok_iff (order : ByteOrder) (haltWord : Word) (b0 b1 b2 b3 : Byte) (rest rest' : List Byte)
    (i : Instr) :
    decodeBytes order haltWord (b0 :: b1 :: b2 :: b3 :: rest) = .ok (i, rest') ↔
      decodeFetched haltWord (wordOfBytes order b0 b1 b2 b3) = .ok i ∧ rest = rest' := by
  cases hd : decodeFetched haltWord (wordOfBytes order b0 b1 b2 b3) with
  | ok j => simp [decodeBytes, hd]
  | error e => simp [decodeBytes, hd]

@[simp] theorem decodeFetched_haltWord (haltWord : Word) : decodeFetched haltWord haltWord = .ok .halt := if_pos rfl

theorem decodeFetched_of_ne {haltWord w : Word} (h : w ≠ haltWord) : decodeFetched haltWord w = decode w := if_neg h

namespace Machine

theorem State.faulted_eq_false_iff (s : State) : s.faulted = false ↔ s.fault = .none := by simp [State.faulted]

theorem State.inWindow_eq_true_iff (s : State) (a : Word) : s.inWindow a = true ↔ a.toNat < s.cfg.memSize :=
  decide_eq_true_iff

/-- R79: the word fetched at `a` is made of the four bytes from `a`'s word boundary on. -/
theorem State.ifetchRead_eq_wordOfBytes (s : State) (a : Word) :
    s.ifetchRead a = wordOfBytes s.cfg.byteOrder (s.back.readByte (a.toNat / 4 * 4))
      (s.back.readByte (a.toNat / 4 * 4 + 1)) (s.back.readByte (a.toNat / 4 * 4 + 2))
      (s.back.readByte (a.toNat / 4 * 4 + 3)) := by
  rw [Nat.mul_comm (a.toNat / 4) 4]
  rfl

/-- Where the halt at pc 0 does not apply, Fetch's halt condition is the sentinel alone (R198). -/
theorem haltCondition_iff_of_not_pcZero {s : State} (hz : ¬ (s.cfg.haltOnPcZero = true ∧ s.pc = 0)) (w : Word) :
    haltCondition s w = true ↔ w = s.cfg.haltWord := by
  simp only [haltCondition, Bool.or_eq_true, Bool.and_eq_true, beq_iff_eq, hz, or_false]

/-- Inside the window and not at the halting 0, the sequential fetch finds the instruction the fetched word stands for. -/
theorem fetchInstr_of_decodeFetched {s : State} {i : Instr} (hw : s.inWindow s.pc = true)
    (hz : ¬ (s.cfg.haltOnPcZero = true ∧ s.pc = 0))
    (hd : decodeFetched s.cfg.haltWord (s.ifetchRead s.pc) = .ok i) : fetchInstr s = .instr i := by
  have hcond := haltCondition_iff_of_not_pcZero hz (s.ifetchRead s.pc)
  by_cases hs : s.ifetchRead s.pc = s.cfg.haltWord
  · have hi : i = .halt := by
      rw [hs, decodeFetched_haltWord] at hd
      exact (Except.ok.inj hd).symm
    simp [fetchInstr, hw, hcond.mpr hs, hi]
  · rw [decodeFetched_of_ne hs] at hd
    simp [fetchInstr, hw, mt hcond.mp hs, hd]

/-- A running sequential reading runs the instruction it fetches. -/
theorem sequentialStep_of_instr {s : State} {i : Instr} (hf : s.faulted = false) (hs : s.fetchStopped = false)
    (hi : fetchInstr s = .instr i) : sequentialStep s = exec i s := by
  simp [sequentialStep, hf, hs, hi]

/-- With a valid configuration, a step of the sequential reading is `sequentialStep`. -/
theorem step_of_sequential {s : State} (hc : s.cfg.check = none) (hd : s.driver = .sequential) :
    step s = sequentialStep s := by
  simp [step, hc, hd]

/-- Settles O22: the bytes at the pc are the fetched word, so the fetch finds their instruction and the step runs it. -/
theorem stepRunsTheDecodedInstruction : Obligations.StepRunsTheDecodedInstruction := by
  intro s i hcheck hdriver hfault hstopped hpc hzero hbytes
  obtain ⟨hword, -⟩ := (decodeBytes_eq_ok_iff ..).mp hbytes
  rw [← s.ifetchRead_eq_wordOfBytes] at hword
  have hfetch : fetchInstr s = .instr i :=
    fetchInstr_of_decodeFetched ((s.inWindow_eq_true_iff s.pc).mpr hpc) hzero hword
  calc step s = sequentialStep s := step_of_sequential hcheck hdriver
    _ = exec i s := sequentialStep_of_instr (s.faulted_eq_false_iff.mpr hfault) hstopped hfetch

end Machine

end Sys2Proof
end

section
/-! What a valid parameter set gives as numbers (spec/60_exceptions.md R390), and the fields of an address as the digits of its
word index (spec/47_cache_controller.md R291 to R294). -/

namespace Sys2Proof

/-! ### Valid parameter sets (R390) -/

theorem isPowerOfTwo_eq_true_iff (n : Nat) : isPowerOfTwo n = true ↔ 2 ^ n.log2 = n := by
  simp only [isPowerOfTwo, Bool.and_eq_true, bne_iff_ne, beq_iff_eq, and_iff_right_iff_imp]
  rintro h rfl
  simp at h

theorem ite_some_eq_none_iff {α : Type} {p : Prop} [Decidable p] {a : α} {o : Option α} :
    (if p then some a else o) = none ↔ ¬ p ∧ o = none := by
  by_cases h : p <;> simp [h]

theorem Config.cached_eq_true_iff (c : Config) : c.cached = true ↔ c.cacheMode = .data := decide_eq_true_iff

/-- R12: the window is a power of two of bytes, of at least four words and at most the address space. -/
structure Config.WindowShape (c : Config) : Prop where
  powerOfTwo : 2 ^ c.memSize.log2 = c.memSize
  atLeast : 2 ^ 4 ≤ c.memSize
  atMost : c.memSize ≤ 2 ^ 32

/-- R12, R15, R18: the shape of the cache inside its window, and its penalties. -/
structure Config.CacheShape (c : Config) : Prop where
  window : c.WindowShape
  numLines : c.numLines = 2 ^ c.indexBits
  blockWords : c.blockWords = 2 ^ c.offsetBits
  bits : c.indexBits + c.offsetBits ≤ 30
  blockFits : 4 * c.blockWords ≤ c.memSize
  missPenalty : 0 < c.missPenalty
  subseqPenalty : 0 < c.subseqPenalty

theorem Config.windowShape_of_check {c : Config} (h : c.check = none) : c.WindowShape := by
  simp only [Config.check, isPowerOfTwo_eq_true_iff, ite_some_eq_none_iff, not_not] at h
  obtain ⟨-, -, -, ⟨hpow, hmin, hmax⟩, -⟩ := h
  exact ⟨hpow, hmin, hmax⟩

theorem Config.cacheShape_of_check {c : Config} (h : c.check = none) (hc : c.cached = true) : c.CacheShape := by
  have hwindow := Config.windowShape_of_check h
  simp only [Config.check, isPowerOfTwo_eq_true_iff, ite_some_eq_none_iff, c.cached_eq_true_iff.mp hc, true_and,
    not_not, not_lt] at h
  obtain ⟨-, -, -, -, hlines, hwords, hbits, hfits, hmiss, hsubseq, -⟩ := h
  exact ⟨hwindow, hlines.symm, hwords.symm, hbits, hfits, Nat.pos_of_ne_zero hmiss, Nat.pos_of_ne_zero hsubseq⟩

/-- R12: the window is a whole number of words. -/
theorem Config.WindowShape.four_dvd {c : Config} (h : c.WindowShape) : 4 ∣ c.memSize := by
  rw [← h.powerOfTwo]
  have hlog : 4 ≤ c.memSize.log2 := by
    have := h.atLeast
    rw [← h.powerOfTwo] at this
    exact (Nat.pow_le_pow_iff_right (by decide)).mp this
  exact Dvd.dvd.trans (by decide) (Nat.pow_dvd_pow 2 hlog)

/-- Clearing the low `k` bits rounds down to a multiple of `2 ^ k`. -/
theorem toNat_and_not_lowMask (a : Word) (k : Nat) :
    (a &&& ~~~ BitVec.ofNat 32 (2 ^ k - 1)).toNat = a.toNat / 2 ^ k * 2 ^ k := by
  have hshift : a &&& ~~~ BitVec.ofNat 32 (2 ^ k - 1) = a >>> k <<< k := by
    apply BitVec.eq_of_getLsbD_eq
    intro j hj
    by_cases hjk : j < k
    · simp [BitVec.getLsbD_ofNat, Nat.testBit_two_pow_sub_one, hj, hjk]
    · have hmask : (BitVec.ofNat 32 (2 ^ k - 1)).getLsbD j = false := by
        simp [BitVec.getLsbD_ofNat, Nat.testBit_two_pow_sub_one, hjk]
      simp [hmask, hj, hjk, Nat.add_sub_cancel' (not_lt.mp hjk), -BitVec.getLsbD_eq_getElem]
  have hle : a.toNat / 2 ^ k * 2 ^ k < 2 ^ 32 := lt_of_le_of_lt (Nat.div_mul_le_self _ _) a.isLt
  rw [hshift, BitVec.toNat_shiftLeft, BitVec.toNat_ushiftRight, Nat.shiftRight_eq_div_pow, Nat.shiftLeft_eq,
    Nat.mod_eq_of_lt hle]

theorem Config.tag_lt (c : Config) (a : Word) : c.tag a < 2 ^ c.tagBits := Nat.mod_lt _ (Nat.two_pow_pos _)

/-- The address of word `k` of the block with tag `t` in line `i`. -/
def Config.wordAddr (c : Config) (t i k : Nat) : Word := c.lineAddr t i + BitVec.ofNat 32 (4 * k)

namespace Config.CacheShape

variable {c : Config} (h : c.CacheShape)

include h

theorem numLines_pos : 0 < c.numLines := h.numLines ▸ Nat.two_pow_pos _

theorem blockWords_pos : 0 < c.blockWords := h.blockWords ▸ Nat.two_pow_pos _

/-- R294: a block in bytes. -/
theorem two_pow_block : 2 ^ (c.offsetBits + 2) = 4 * c.blockWords := by
  rw [pow_add, ← h.blockWords, mul_comm]
  rfl

/-- R292: the distance in bytes between blocks of one line whose tags follow each other. -/
theorem two_pow_line : 2 ^ (c.indexBits + c.offsetBits + 2) = c.numLines * (4 * c.blockWords) := by
  rw [add_assoc, pow_add, ← h.numLines, h.two_pow_block]

/-- R12, R15: the window is a whole number of blocks. -/
theorem block_dvd_memSize : 4 * c.blockWords ∣ c.memSize := by
  have hfits := h.blockFits
  rw [← h.two_pow_block, ← h.window.powerOfTwo] at hfits ⊢
  exact Nat.pow_dvd_pow 2 ((Nat.pow_le_pow_iff_right (by decide)).mp hfits)

/-- R291: tag, index, offset and byte fill the address. -/
theorem addressSpace : 2 ^ c.tagBits * (c.numLines * (4 * c.blockWords)) = 2 ^ 32 := by
  have hbits := h.bits
  rw [← h.two_pow_line, ← pow_add]
  congr 1
  unfold Config.tagBits
  omega

/-! ### The fields of an address (R292) -/

theorem offset_eq (a : Word) : c.offset a = Machine.wordIndex a % c.blockWords := by
  rw [Config.offset, field, Nat.shiftRight_eq_div_pow, ← h.blockWords]
  rfl

theorem index_eq (a : Word) : c.index a = Machine.wordIndex a / c.blockWords % c.numLines := by
  rw [Config.index, field, Nat.shiftRight_eq_div_pow, ← h.numLines, h.two_pow_block, ← Nat.div_div_eq_div_mul]
  rfl

theorem tag_eq (a : Word) : c.tag a = Machine.wordIndex a / c.blockWords / c.numLines := by
  have hlt : a.toNat < c.numLines * (4 * c.blockWords) * 2 ^ c.tagBits := by
    rw [mul_comm, h.addressSpace]
    exact a.isLt
  rw [Config.tag, field, Nat.shiftRight_eq_div_pow, h.two_pow_line, Nat.mod_eq_of_lt (Nat.div_lt_of_lt_mul hlt),
    mul_comm, ← Nat.div_div_eq_div_mul, ← Nat.div_div_eq_div_mul]
  rfl

theorem offset_lt (a : Word) : c.offset a < c.blockWords := h.offset_eq a ▸ Nat.mod_lt _ h.blockWords_pos

theorem index_lt (a : Word) : c.index a < c.numLines := h.index_eq a ▸ Nat.mod_lt _ h.numLines_pos

/-! ### Block bases (R294) -/

theorem toNat_lineAddr {t i : Nat} (ht : t < 2 ^ c.tagBits) (hi : i < c.numLines) :
    (c.lineAddr t i).toNat = (t * c.numLines + i) * (4 * c.blockWords) := by
  have hindex : i * (4 * c.blockWords) < c.numLines * (4 * c.blockWords) :=
    Nat.mul_lt_mul_of_pos_right hi (by have := h.blockWords_pos; omega)
  have htag : (t + 1) * (c.numLines * (4 * c.blockWords)) ≤ 2 ^ 32 :=
    h.addressSpace ▸ Nat.mul_le_mul_right _ ht
  have hlt : t * (c.numLines * (4 * c.blockWords)) + i * (4 * c.blockWords) < 2 ^ 32 := by linarith
  have hone : 1 ≤ c.numLines * (4 * c.blockWords) := by omega
  have hfour : 1 ≤ 4 * c.blockWords := by have := h.blockWords_pos; omega
  have ht32 : t < 2 ^ 32 := by nlinarith
  have hi32 : i < 2 ^ 32 := by nlinarith
  have hor : t <<< (c.indexBits + c.offsetBits + 2) ||| i <<< (c.offsetBits + 2) =
      t <<< (c.indexBits + c.offsetBits + 2) + i <<< (c.offsetBits + 2) := by
    refine (Nat.shiftLeft_add_eq_or_of_lt ?_ t).symm
    rwa [Nat.shiftLeft_eq, h.two_pow_line, h.two_pow_block]
  rw [Config.lineAddr, BitVec.toNat_or, BitVec.toNat_shiftLeft, BitVec.toNat_shiftLeft, BitVec.toNat_ofNat,
    BitVec.toNat_ofNat, Nat.mod_eq_of_lt ht32, Nat.mod_eq_of_lt hi32]
  rw [Nat.shiftLeft_eq, Nat.shiftLeft_eq, h.two_pow_line, h.two_pow_block] at hor ⊢
  rw [Nat.mod_eq_of_lt (by omega), Nat.mod_eq_of_lt (by omega), hor]
  ring

theorem toNat_blockBase (a : Word) :
    (c.blockBase a).toNat = a.toNat / (4 * c.blockWords) * (4 * c.blockWords) := by
  rw [Config.blockBase, ← h.two_pow_block, toNat_and_not_lowMask]

/-- R294: the block base of an address is the base of the block its tag and index name. -/
theorem blockBase_eq_lineAddr (a : Word) : c.blockBase a = c.lineAddr (c.tag a) (c.index a) := by
  apply BitVec.eq_of_toNat_eq
  rw [h.toNat_blockBase, h.toNat_lineAddr (c.tag_lt a) (h.index_lt a), h.tag_eq, h.index_eq, mul_comm (_ / _) c.numLines,
    Nat.div_add_mod, Machine.wordIndex, Nat.div_div_eq_div_mul]

theorem blockBase_le (a : Word) : (c.blockBase a).toNat ≤ a.toNat :=
  h.toNat_blockBase a ▸ Nat.div_mul_le_self _ _

/-! ### Words of a block -/

section WordAddr

variable {t i k : Nat} (ht : t < 2 ^ c.tagBits) (hi : i < c.numLines) (hk : k < c.blockWords)

include ht hi hk

theorem toNat_wordAddr : (c.wordAddr t i k).toNat = 4 * ((t * c.numLines + i) * c.blockWords + k) := by
  have hblocks : t * c.numLines + i + 1 ≤ 2 ^ c.tagBits * c.numLines := by nlinarith
  have hwords : (t * c.numLines + i) * c.blockWords + k < 2 ^ c.tagBits * c.numLines * c.blockWords := by nlinarith
  have hspace : 4 * (2 ^ c.tagBits * c.numLines * c.blockWords) = 2 ^ 32 := by rw [← h.addressSpace]; ring
  have hbase : (t * c.numLines + i) * (4 * c.blockWords) = 4 * ((t * c.numLines + i) * c.blockWords) := by ring
  rw [Config.wordAddr, BitVec.toNat_add, h.toNat_lineAddr ht hi, BitVec.toNat_ofNat, hbase]
  omega

theorem wordIndex_wordAddr : Machine.wordIndex (c.wordAddr t i k) = (t * c.numLines + i) * c.blockWords + k := by
  rw [Machine.wordIndex, h.toNat_wordAddr ht hi hk, Nat.mul_div_cancel_left _ (by decide)]

theorem offset_wordAddr : c.offset (c.wordAddr t i k) = k := by
  rw [h.offset_eq, h.wordIndex_wordAddr ht hi hk, Nat.mul_add_mod', Nat.mod_eq_of_lt hk]

theorem blockNumber_wordAddr : Machine.wordIndex (c.wordAddr t i k) / c.blockWords = t * c.numLines + i := by
  rw [h.wordIndex_wordAddr ht hi hk, mul_comm, Nat.mul_add_div h.blockWords_pos, Nat.div_eq_of_lt hk, add_zero]

theorem index_wordAddr : c.index (c.wordAddr t i k) = i := by
  rw [h.index_eq, h.blockNumber_wordAddr ht hi hk, Nat.mul_add_mod', Nat.mod_eq_of_lt hi]

theorem tag_wordAddr : c.tag (c.wordAddr t i k) = t := by
  rw [h.tag_eq, h.blockNumber_wordAddr ht hi hk, mul_comm, Nat.mul_add_div h.numLines_pos, Nat.div_eq_of_lt hi, add_zero]

/-- R294: a block whose base is inside the window lies inside it. -/
theorem wordAddr_inWindow (hbase : (c.lineAddr t i).toNat < c.memSize) : (c.wordAddr t i k).toNat < c.memSize := by
  obtain ⟨blocks, hblocks⟩ := h.block_dvd_memSize
  rw [h.toNat_lineAddr ht hi, hblocks, mul_comm, Nat.mul_lt_mul_left (by omega)] at hbase
  rw [h.toNat_wordAddr ht hi hk, hblocks]
  nlinarith

end WordAddr

/-- R292: the fields of an address name its word. -/
theorem wordIndex_wordAddr_fields (a : Word) :
    Machine.wordIndex (c.wordAddr (c.tag a) (c.index a) (c.offset a)) = Machine.wordIndex a := by
  rw [h.wordIndex_wordAddr (c.tag_lt a) (h.index_lt a) (h.offset_lt a), h.tag_eq, h.index_eq, h.offset_eq,
    Nat.div_add_mod', Nat.div_add_mod']

/-- R292: the fields of an address depend on its word alone. -/
theorem fields_congr {a b : Word} (hab : Machine.wordIndex a = Machine.wordIndex b) :
    c.tag a = c.tag b ∧ c.index a = c.index b ∧ c.offset a = c.offset b := by
  simp only [h.tag_eq, h.index_eq, h.offset_eq, hab, and_self]

/-- R292: a word of a block is the word at `a` exactly when the fields of `a` name it. -/
theorem wordIndex_wordAddr_eq_iff {t i k : Nat} (ht : t < 2 ^ c.tagBits) (hi : i < c.numLines) (hk : k < c.blockWords)
    (a : Word) :
    Machine.wordIndex (c.wordAddr t i k) = Machine.wordIndex a ↔ t = c.tag a ∧ i = c.index a ∧ k = c.offset a := by
  constructor
  · intro ha
    have hfields := h.fields_congr ha
    rwa [h.tag_wordAddr ht hi hk, h.index_wordAddr ht hi hk, h.offset_wordAddr ht hi hk] at hfields
  · rintro ⟨rfl, rfl, rfl⟩
    exact h.wordIndex_wordAddr_fields a

end Config.CacheShape

end Sys2Proof
end

section
/-! O57: the backing store as a store of words (spec/10_state.md R53; spec/20_memory.md R72, R77, R78), and a block of words
written to it (spec/48_write_buffer.md R343). -/

namespace Sys2Proof.Machine

open Sys2Proof

/-! ### Writing back what is there -/

/-- In the canonical form a write of the byte that is there changes nothing: an unlisted byte stays unlisted. -/
theorem Memory.writeByte_readByte_self (m : Memory) (a : Nat) (hm : m.Wf) : m.writeByte a (m.readByte a) = m := by
  induction m with
  | nil => rfl
  | cons c m ih =>
    obtain ⟨b, u⟩ := c
    obtain ⟨hsorted, hlisted⟩ := hm
    obtain ⟨hlt, hsorted'⟩ := List.pairwise_cons.mp hsorted
    have hrest := ih ⟨hsorted', fun d hd => hlisted d (List.mem_cons_of_mem _ hd)⟩
    rcases lt_trichotomy a b with hab | rfl | hab
    · have hunlisted : Memory.readByte ((b, u) :: m) a = unlistedByte := by
        refine Memory.readByte_of_lt _ _ fun d hd => ?_
        rcases List.mem_cons.mp hd with rfl | hd
        · exact hab
        · exact hab.trans (hlt d hd)
      simp [Memory.writeByte, hunlisted, hab]
    · have hu : u ≠ unlistedByte := hlisted (a, u) List.mem_cons_self
      simp [Memory.writeByte, Memory.readByte, hu]
    · simp [Memory.writeByte, Memory.readByte, hab.ne', hab.not_gt, hrest]

theorem extractLsb'_append_bytes (b0 b1 b2 b3 : Byte) :
    (b3 ++ b2 ++ b1 ++ b0).extractLsb' 0 8 = b0 ∧ (b3 ++ b2 ++ b1 ++ b0).extractLsb' 8 8 = b1 ∧
    (b3 ++ b2 ++ b1 ++ b0).extractLsb' 16 8 = b2 ∧ (b3 ++ b2 ++ b1 ++ b0).extractLsb' 24 8 = b3 := by
  have := b0.isLt; have := b1.isLt; have := b2.isLt; have := b3.isLt
  refine ⟨?_, ?_, ?_, ?_⟩ <;> apply BitVec.eq_of_toNat_eq <;>
    simp only [BitVec.extractLsb'_toNat, ofFields_toNat, Nat.shiftRight_eq_div_pow] <;> omega

/-- R72: in either byte order the bytes of a word are the bytes it was made of. -/
theorem bytesOfWord_wordOfBytes (order : ByteOrder) (b0 b1 b2 b3 : Byte) :
    bytesOfWord order (wordOfBytes order b0 b1 b2 b3) = [b0, b1, b2, b3] := by
  cases order with
  | little =>
    obtain ⟨h0, h1, h2, h3⟩ := extractLsb'_append_bytes b0 b1 b2 b3
    simp only [bytesOfWord, wordOfBytes, h0, h1, h2, h3]
  | big =>
    obtain ⟨h0, h1, h2, h3⟩ := extractLsb'_append_bytes b3 b2 b1 b0
    simp [bytesOfWord, wordOfBytes, h0, h1, h2, h3]

theorem Memory.writeWord_readWord_self (order : ByteOrder) (m : Memory) (w : Nat) (hm : m.Wf) :
    m.writeWord order w (m.readWord order w) = m := by
  simp only [Memory.writeWord, Memory.readWord, bytesOfWord_wordOfBytes, Memory.writeBytes, add_assoc, Nat.reduceAdd,
    Memory.writeByte_readByte_self m _ hm]

/-! ### The window (R80) -/

/-- A word of an address inside the window lies inside it: the window is a whole number of words. -/
theorem wordIndex_inWindow {c : Config} (h : c.check = none) {a : Word} (ha : a.toNat < c.memSize) :
    4 * wordIndex a + 4 ≤ c.memSize := by
  have := (Config.windowShape_of_check h).four_dvd
  unfold wordIndex
  omega

theorem State.backWrite_within {s : State} {a : Word} (v : Word) (h : s.back.Within s.cfg.memSize)
    (hc : s.cfg.check = none) (ha : a.toNat < s.cfg.memSize) : (s.backWrite a v).back.Within s.cfg.memSize :=
  Memory.writeWord_within _ _ _ _ _ h (wordIndex_inWindow hc ha)

/-- R80: a write inside the window keeps the form of the backing store. -/
theorem MemoryOk.backWrite {s : State} (h : MemoryOk s) (hc : s.cfg.check = none) {a : Word}
    (ha : a.toNat < s.cfg.memSize) (v : Word) : MemoryOk (s.backWrite a v) :=
  ⟨s.backWrite_wf a v h.wf, State.backWrite_within v h.within hc ha⟩

/-- Settles O57, from the laws of the words of the list of bytes. -/
theorem backingStoreWords : Obligations.BackingStoreWords := by
  intro s a b v hwf
  exact ⟨s.backRead_backWrite a b v hwf, s.backWrite_wf a v hwf,
    fun hwithin hc ha => State.backWrite_within v hwithin hc ha, Memory.writeWord_readWord_self _ _ _ hwf⟩

/-! ### A block of words (R343) -/

theorem word_add_four_add (a : Word) (j : Nat) : a + 4 + BitVec.ofNat 32 (4 * j) = a + BitVec.ofNat 32 (4 * (j + 1)) := by
  rw [Nat.mul_add, Nat.add_comm, BitVec.ofNat_add, ← BitVec.add_assoc]
  rfl

/-- A block inside the window keeps the form of the backing store. -/
theorem MemoryOk.writeBlock {s : State} (h : MemoryOk s) (hc : s.cfg.check = none) {a : Word} {vs : List Word}
    (ha : ∀ j < vs.length, (a + BitVec.ofNat 32 (4 * j)).toNat < s.cfg.memSize) : MemoryOk (s.writeBlock a vs) := by
  induction vs generalizing s a with
  | nil => exact h
  | cons v vs ih =>
    have hfirst : a.toNat < s.cfg.memSize := by simpa using ha 0 (by simp)
    refine ih (h.backWrite hc hfirst v) hc fun j hj => ?_
    rw [word_add_four_add]
    exact ha (j + 1) (by simpa using hj)

/-- A block leaves every word outside it. -/
theorem State.backRead_writeBlock_other (s : State) (a b : Word) (vs : List Word) (hs : s.back.Wf)
    (hb : ∀ j < vs.length, wordIndex b ≠ wordIndex (a + BitVec.ofNat 32 (4 * j))) :
    (s.writeBlock a vs).backRead b = s.backRead b := by
  induction vs generalizing s a with
  | nil => rfl
  | cons v vs ih =>
    have hfirst : wordIndex b ≠ wordIndex a := by simpa using hb 0 (by simp)
    rw [State.writeBlock, ih _ _ (s.backWrite_wf a v hs), s.backRead_backWrite a b v hs, if_neg hfirst]
    intro j hj
    rw [word_add_four_add]
    exact hb (j + 1) (by simpa using hj)

end Sys2Proof.Machine
end

section
/-! O30: the ports of the register file (spec/10_state.md R32, R33). -/

namespace Sys2Proof.Machine

open Sys2Proof

/-- A register write touches the register file, nothing else. -/
theorem State.writeReg_frame (s : State) (i : RegIdx) (v : Word) :
    s.writeReg i v = { s with x := (s.writeReg i v).x } := by
  unfold State.writeReg
  split <;> rfl

/-- R33: Decode sees the write of this cycle. -/
theorem rfw_of_write {s : State} {r : RegIdx} (hv : s.memwb.valid = true) (hw : s.memwb.ctrl.regWrite = true)
    (hd : s.memwb.dest = r) (hr : r ≠ 0) : rfw s r = s.memwb.wbval := by
  have hen : wbEn s = true := by simp [wbEn, hv, hw]
  rw [rfw_eq_readReg_writeback, writeback, if_pos hen, hd, State.readReg_writeReg_same _ _ _ hr]

/-- Settles O30, from the laws of reading after writing. -/
theorem registerFilePorts : Obligations.RegisterFilePorts :=
  ⟨fun s => ⟨s.readReg_zero, s.writeReg_zero⟩,
    fun s i v hi => ⟨s.readReg_writeReg_same i v hi, fun r hr => s.readReg_writeReg_other i r v hr, s.writeReg_frame i v⟩,
    rfw_eq_readReg_writeback, fun _ _ => rfw_of_write⟩

end Sys2Proof.Machine
end

section
/-! O29: what a step of either reading does to register 0 and to the latches (spec/10_state.md R32, R43 to R46;
spec/46_hazard_unit.md R277). -/

namespace Sys2Proof.Machine

open Sys2Proof

/-! ### What a step leaves behind -/

/-- R27: all that an instruction does to the state, whatever it is: it writes a register and goes on, it sets the pc, it
raises a fault, it stores a word inside the window and goes on, or it stops fetch. -/
theorem exec_cases (i : Instr) (s : State) :
    (∃ d v, exec i s = .next (s.writeResult d v)) ∨
    (∃ t, exec i s = .next (s.setPc t)) ∨
    (∃ f, exec i s = .next (s.raise f)) ∨
    (∃ a v, a.toNat < s.cfg.memSize ∧ exec i s = .next ((s.archWrite a v).setPc s.pc4)) ∨
    exec i s = .next { s with fetchStopped := true } := by
  cases i with
  | sll | srl | sra | add | addu | sub | subu | and | or | xor | nor | slt | sltu => exact .inl ⟨_, _, rfl⟩
  | addi | addiu | slti | sltiu | andi | ori | xori | lui => exact .inl ⟨_, _, rfl⟩
  | j | jr | beq | bne => exact .inr (.inl ⟨_, rfl⟩)
  | halt => exact .inr (.inr (.inr (.inr rfl)))
  | lw rs rt imm =>
    by_cases hw : s.inWindow (effectiveAddress (s.readReg rs) imm) = true
    · exact .inl ⟨rt, s.archRead (effectiveAddress (s.readReg rs) imm), by simp [exec, execLw, hw]⟩
    · exact .inr (.inr (.inl ⟨dataFault (effectiveAddress (s.readReg rs) imm) (encode s.cfg.haltWord (.lw rs rt imm)),
        by simp [exec, execLw, hw]⟩))
  | sw rs rt imm =>
    by_cases hw : s.inWindow (effectiveAddress (s.readReg rs) imm) = true
    · exact .inr (.inr (.inr (.inl ⟨effectiveAddress (s.readReg rs) imm, s.readReg rt,
        (s.inWindow_eq_true_iff _).mp hw, by simp [exec, execSw, hw]⟩)))
    · exact .inr (.inr (.inl ⟨dataFault (effectiveAddress (s.readReg rs) imm) (encode s.cfg.haltWord (.sw rs rt imm)),
        by simp [exec, execSw, hw]⟩))

/-- R27: the state an instruction leaves behind, as `exec_cases`. -/
theorem exec_next_cases {i : Instr} {s t : State} (h : exec i s = .next t) :
    (∃ d v, t = s.writeResult d v) ∨ (∃ a, t = s.setPc a) ∨ (∃ f, t = s.raise f) ∨
    (∃ a v, a.toNat < s.cfg.memSize ∧ t = (s.archWrite a v).setPc s.pc4) ∨ t = { s with fetchStopped := true } := by
  rcases exec_cases i s with ⟨d, v, he⟩ | ⟨a, he⟩ | ⟨f, he⟩ | ⟨a, v, ha, he⟩ | he <;>
    obtain rfl := Host.Outcome.next.inj (he.symm.trans h)
  · exact .inl ⟨d, v, rfl⟩
  · exact .inr (.inl ⟨a, rfl⟩)
  · exact .inr (.inr (.inl ⟨f, rfl⟩))
  · exact .inr (.inr (.inr (.inl ⟨a, v, ha, rfl⟩)))
  · exact .inr (.inr (.inr (.inr rfl)))

/-- All that the state after a step can be: the one before, with a fault recorded or not; the commit of a cycle of the
clock reading; or the end of an instruction of the sequential one. -/
theorem step_next_cases {s t : State} (h : step s = .next t) :
    s.cfg.check = none ∧ (t = s ∨ (∃ f, t = s.raise f) ∨ cycle s = .ok t ∨ (∃ i, exec i s = .next t)) := by
  rcases step_cases s with ⟨e, -, hs⟩ | ⟨hc, -, hs⟩ | ⟨hc, -, hs⟩
  · rw [hs] at h
    cases h
  · obtain rfl : clockEdge s = t := by simpa [hs] using h
    refine ⟨hc, ?_⟩
    rcases clockEdge_cases s with ⟨-, he⟩ | ⟨-, -, t, ht, he⟩ | ⟨-, -, f, -, he⟩ <;> rw [he]
    · exact .inl rfl
    · exact .inr (.inr (.inl ht))
    · exact .inr (.inl ⟨f, rfl⟩)
  · rw [hs] at h
    refine ⟨hc, ?_⟩
    rcases sequentialStep_cases s with ⟨-, he⟩ | ⟨-, -, i, -, he⟩ | ⟨-, -, f, -, he⟩ <;> rw [he] at h
    · exact .inl (by injection h with h; exact h.symm)
    · exact .inr (.inr (.inr ⟨i, h⟩))
    · exact .inr (.inl ⟨f, by injection h with h; exact h.symm⟩)

/-- Two states with the same instructions in flight. -/
structure SameLatches (s t : State) : Prop where
  ifid : t.ifid = s.ifid
  idex : t.idex = s.idex
  exmem : t.exmem = s.exmem
  memwb : t.memwb = s.memwb

theorem State.raise_sameLatches (s : State) (f : FaultInfo) : SameLatches s (s.raise f) := by constructor <;> simp

/-- Log entry 8: an instruction of the sequential reading touches no latch. -/
theorem exec_sameLatches {i : Instr} {s t : State} (h : exec i s = .next t) : SameLatches s t := by
  rcases exec_next_cases h with ⟨d, v, rfl⟩ | ⟨a, rfl⟩ | ⟨f, rfl⟩ | ⟨a, v, -, rfl⟩ | rfl
  · constructor <;> simp
  · constructor <;> simp
  · exact s.raise_sameLatches f
  · constructor <;> simp
  · exact ⟨rfl, rfl, rfl, rfl⟩

/-! ### Register 0 -/

theorem writeback_x_zero (s : State) : (writeback s).x[0] = s.x[0] := by
  unfold writeback
  split
  · exact s.writeReg_x_zero _ _
  · rfl

theorem exec_x_zero {i : Instr} {s t : State} (h : exec i s = .next t) : t.x[0] = s.x[0] := by
  rcases exec_next_cases h with ⟨d, v, rfl⟩ | ⟨a, rfl⟩ | ⟨f, rfl⟩ | ⟨a, v, -, rfl⟩ | rfl
  · simpa using s.writeReg_x_zero d v
  · simp
  · simp
  · simp
  · rfl

theorem step_x_zero {s t : State} (h : step s = .next t) : t.x[0] = s.x[0] := by
  obtain ⟨-, rfl | ⟨f, rfl⟩ | hcycle | ⟨i, hexec⟩⟩ := step_next_cases h
  · rfl
  · simp
  · obtain ⟨req, after, answer, id, fetch, -, -, -, -, rfl⟩ := cycle_ok hcycle
    simpa using writeback_x_zero s
  · exact exec_x_zero hexec

/-! ### What the latches take at a clock edge -/

section Commit

variable (s after : State) (answer : Answer) (id : DecodeOut) (fetch : FetchOut)

/-- R273. -/
theorem commit_ifid_cases : (commit s after answer id fetch).ifid = s.ifid ∨
    (commit s after answer id fetch).ifid = Latch.bubble ∨ (commit s after answer id fetch).ifid = fetch.prop := by
  simp only [commit, nextIfid]
  split
  · exact .inl rfl
  · split
    · exact .inr (.inl rfl)
    · exact .inr (.inr rfl)

/-- R274. -/
theorem commit_idex_cases : (commit s after answer id fetch).idex = captured s ∨
    (commit s after answer id fetch).idex = Latch.bubble ∨ (commit s after answer id fetch).idex = id.prop := by
  simp only [commit, nextIdex]
  split
  · exact .inl rfl
  · split
    · exact .inr (.inl rfl)
    · exact .inr (.inr rfl)

end Commit

/-- R233: all that Execute proposes. -/
theorem exProposal_cases (s : State) :
    (s.idex.valid = false ∧ exProposal s = Latch.bubble) ∨
    (s.idex.valid = true ∧
      exProposal s = { captured s with aluResult := alu s.idex.ctrl.aluOp (operandA s) (operand2 s) s.idex.shamt }) := by
  unfold exProposal
  cases s.idex.valid <;> simp

/-- R241 to R243: all that Memory proposes. -/
theorem memProposal_cases (l : Latch) (answer : Answer) :
    memProposal l answer = l ∨ memProposal l answer = Latch.bubble ∨
    (l.ctrl.memRead = true ∧ ∃ d, memProposal l answer = { l with memData := d }) := by
  cases answer with
  | noAnswer => exact .inl rfl
  | miss => exact .inr (.inl rfl)
  | hit d =>
    cases hr : l.ctrl.memRead with
    | true => exact .inr (.inr ⟨rfl, d, by simp [memProposal, hr]⟩)
    | false => exact .inl (by simp [memProposal, hr])

/-! ### Bubbles (R45, R46) -/

theorem Latch.bubble_bubbleOk : Latch.bubble.BubbleOk := fun _ => rfl

theorem Latch.bubbleOk_of_valid {l : Latch} (h : l.valid = true) : l.BubbleOk := fun hf => by rw [h] at hf; cases hf

/-- R230, R270: operand capture leaves a bubble as it is: its register fields are 0. -/
theorem captured_bubbleOk {s : State} (h : s.idex.BubbleOk) : (captured s).BubbleOk := by
  intro hv
  have hb : s.idex = Latch.bubble := h hv
  simp [captured, operandA, operandB, forward, hb, Latch.bubble]

theorem exProposal_bubbleOk (s : State) : (exProposal s).BubbleOk := by
  rcases exProposal_cases s with ⟨-, he⟩ | ⟨hv, he⟩ <;> rw [he]
  · exact Latch.bubble_bubbleOk
  · exact Latch.bubbleOk_of_valid hv

/-- R45: Memory proposes a bubble for a bubble, which reads no memory. -/
theorem memProposal_bubbleOk {l : Latch} (h : l.BubbleOk) (answer : Answer) : (memProposal l answer).BubbleOk := by
  rcases memProposal_cases l answer with he | he | ⟨hr, d, he⟩ <;> rw [he]
  · exact h
  · exact Latch.bubble_bubbleOk
  · refine Latch.bubbleOk_of_valid ?_
    by_contra hv
    rw [h (by simpa using hv)] at hr
    cases hr

theorem decodeStage_prop_bubbleOk {s : State} {b : Bool} {o : DecodeOut} (h : decodeStage s b = .ok o) :
    o.prop.BubbleOk := by
  rcases decodeStage_cases h with ⟨-, rfl⟩ | ⟨-, i, -, -, -, -, hp⟩
  · exact Latch.bubble_bubbleOk
  · rw [hp]
    exact Latch.bubbleOk_of_valid rfl

theorem fetchStage_prop_bubbleOk {s t : State} {accept : Bool} {o : FetchOut} (h : fetchStage s t accept = .ok o) :
    o.prop.BubbleOk := by
  rcases fetchStage_cases h with ⟨-, rfl⟩ | ⟨-, -, rfl⟩
  · exact Latch.bubble_bubbleOk
  · exact Latch.bubbleOk_of_valid rfl

/-- R277: a clock edge keeps the bubbles. -/
theorem cycle_bubblesOk {s t : State} (h : cycle s = .ok t) (hb : BubblesOk s) : BubblesOk t := by
  obtain ⟨req, after, answer, id, fetch, -, -, hid, hfetch, rfl⟩ := cycle_ok h
  refine ⟨?_, ?_, ?_, ?_⟩
  · rcases commit_ifid_cases s after answer id fetch with he | he | he <;> rw [he]
    · exact hb.ifid
    · exact Latch.bubble_bubbleOk
    · exact fetchStage_prop_bubbleOk hfetch
  · rcases commit_idex_cases s after answer id fetch with he | he | he <;> rw [he]
    · exact captured_bubbleOk hb.idex
    · exact Latch.bubble_bubbleOk
    · exact decodeStage_prop_bubbleOk hid
  · rw [commit_exmem]
    split
    · exact hb.exmem
    · exact exProposal_bubbleOk s
  · rw [commit_memwb]
    split
    · exact Latch.bubble_bubbleOk
    · exact memProposal_bubbleOk hb.exmem answer

/-- Whether the latches are in order depends on the latches alone. -/
theorem BubblesOk.congr {s t : State} (hb : BubblesOk s) (h : SameLatches s t) : BubblesOk t :=
  ⟨h.ifid ▸ hb.ifid, h.idex ▸ hb.idex, h.exmem ▸ hb.exmem, h.memwb ▸ hb.memwb⟩

theorem step_bubblesOk {s t : State} (h : step s = .next t) (hb : BubblesOk s) : BubblesOk t := by
  obtain ⟨-, rfl | ⟨f, rfl⟩ | hcycle | ⟨i, hexec⟩⟩ := step_next_cases h
  · exact hb
  · exact hb.congr (s.raise_sameLatches f)
  · exact cycle_bubblesOk hcycle hb
  · exact hb.congr (exec_sameLatches hexec)

/-- Settles O29: entry 0 by the writes a step makes, the bubbles latch by latch. -/
theorem registerZeroAndBubblesKept : Obligations.RegisterZeroAndBubblesKept :=
  fun _ t h => ⟨step_x_zero h, t.readReg_zero, step_bubblesOk h⟩

/-! ### Decoded latches (R43) -/

theorem Latch.bubble_decoded : Latch.bubble.Decoded := fun h => by cases h

theorem exProposal_decoded {s : State} (h : s.idex.Decoded) : (exProposal s).Decoded := by
  rcases exProposal_cases s with ⟨-, he⟩ | ⟨-, he⟩ <;> rw [he]
  · exact Latch.bubble_decoded
  · exact h

theorem memProposal_decoded {l : Latch} (h : l.Decoded) (answer : Answer) : (memProposal l answer).Decoded := by
  rcases memProposal_cases l answer with he | he | ⟨-, d, he⟩ <;> rw [he]
  · exact h
  · exact Latch.bubble_decoded
  · exact h

/-- R220 to R228: what Decode proposes is what it derived from the word, with nothing of the later stages. -/
theorem decodeStage_prop_decoded {s : State} {b : Bool} {o : DecodeOut} (h : decodeStage s b = .ok o) :
    o.prop.Decoded ∧ o.prop.aluResult = 0 ∧ o.prop.memData = 0 := by
  rcases decodeStage_cases h with ⟨-, rfl⟩ | ⟨-, i, hd, -, -, -, hp⟩
  · exact ⟨Latch.bubble_decoded, rfl, rfl⟩
  · rw [hp]
    refine ⟨fun _ => ⟨i, hd, rfl, rfl, rfl, rfl, rfl, rfl, rfl, rfl, rfl, rfl, fun hbranch => ?_⟩, rfl, rfl⟩
    simp only [idProposal, Bool.and_eq_true] at hbranch
    exact hbranch.2

/-- R43: a clock edge keeps what each latch holds. -/
theorem cycle_latchesOk {s t : State} (h : cycle s = .ok t) (hl : LatchesOk s) : LatchesOk t := by
  obtain ⟨req, after, answer, id, fetch, -, -, hid, hfetch, rfl⟩ := cycle_ok h
  obtain ⟨hprop, hpropUpstream⟩ := decodeStage_prop_decoded hid
  refine ⟨?_, ?_, ?_, ?_, ?_, ?_⟩
  · rcases commit_ifid_cases s after answer id fetch with he | he | he <;> rw [he]
    · exact hl.ifid
    · rfl
    · rcases fetchStage_cases hfetch with ⟨-, rfl⟩ | ⟨-, -, rfl⟩ <;> rfl
  · rcases commit_idex_cases s after answer id fetch with he | he | he <;> rw [he]
    · exact hl.idex
    · exact Latch.bubble_decoded
    · exact hprop
  · rcases commit_idex_cases s after answer id fetch with he | he | he <;> rw [he]
    · exact hl.idexUpstream
    · exact ⟨rfl, rfl⟩
    · exact hpropUpstream
  · rw [commit_exmem]
    split
    · exact hl.exmem
    · exact exProposal_decoded hl.idex
  · rw [commit_exmem]
    split
    · exact hl.exmemUpstream
    · rcases exProposal_cases s with ⟨-, he⟩ | ⟨-, he⟩ <;> rw [he]
      · rfl
      · exact hl.idexUpstream.2
  · rw [commit_memwb]
    split
    · exact Latch.bubble_decoded
    · exact memProposal_decoded hl.exmem answer

theorem LatchesOk.congr {s t : State} (hl : LatchesOk s) (h : SameLatches s t) : LatchesOk t :=
  ⟨h.ifid ▸ hl.ifid, h.idex ▸ hl.idex, h.idex ▸ hl.idexUpstream, h.exmem ▸ hl.exmem, h.exmem ▸ hl.exmemUpstream,
    h.memwb ▸ hl.memwb⟩

theorem step_latchesOk {s t : State} (h : step s = .next t) (hl : LatchesOk s) : LatchesOk t := by
  obtain ⟨-, rfl | ⟨f, rfl⟩ | hcycle | ⟨i, hexec⟩⟩ := step_next_cases h
  · exact hl
  · exact hl.congr (s.raise_sameLatches f)
  · exact cycle_latchesOk hcycle hl
  · exact hl.congr (exec_sameLatches hexec)

end Sys2Proof.Machine
end

section
/-! The invariants of the memory side, line by line: how one line can change and keep R317 (spec/47_cache_controller.md R300,
R317; spec/48_write_buffer.md R344). -/

namespace Sys2Proof.Machine

open Sys2Proof

/-! ### Lines of the cache -/

/-- What the invariant of the cache says of line `i` when it is `l`: R317 a and f, and the range of its fields. -/
structure LineOk (s : State) (i : Nat) (l : Line) : Prop where
  words : l.data.length = s.cfg.blockWords
  tag : l.tag < 2 ^ s.cfg.tagBits
  inWindow : l.valid = true → (s.cfg.lineAddr l.tag i).toNat < s.cfg.memSize
  dirtyIsValid : l.dirty = true → l.valid = true
  clean : l.valid = true → l.dirty = false → ∀ k < s.cfg.blockWords, s.landed i k = true →
    wordAt l.data k = s.backRead (s.cfg.wordAddr l.tag i k)
  noEntry : ∀ e ∈ s.wbuf, e.idx = i → ¬ (l.valid = true ∧ l.tag = e.tag)

/-- The invariant of the cache, with what it says of each line put together. -/
theorem cacheOk_iff (s : State) : CacheOk s ↔
    s.lines.length = s.cfg.numLines ∧ (∀ i < s.cfg.numLines, LineOk s i (s.line i)) ∧
    (s.fill.active = true → FillOk s) ∧ (∀ e ∈ s.wbuf, EntryOk s.cfg e) ∧ s.wbuf.length ≤ 1 := by
  constructor
  · intro h
    refine ⟨h.lineCount, fun i hi => ?_, h.fill, h.entries, h.occupancy⟩
    exact ⟨h.lineWords i hi, h.lineTags i hi, fun hv => (s.inWindow_eq_true_iff _).mp (h.lineInWindow i hi hv),
      h.dirtyIsValid i hi, h.cleanWords i hi, fun e he hei => hei ▸ h.noEntryOfLine e he⟩
  · rintro ⟨hcount, hlines, hfill, hentries, hocc⟩
    exact {
      lineCount := hcount
      lineWords := fun i hi => (hlines i hi).words
      lineTags := fun i hi => (hlines i hi).tag
      lineInWindow := fun i hi hv => (s.inWindow_eq_true_iff _).mpr ((hlines i hi).inWindow hv)
      dirtyIsValid := fun i hi => (hlines i hi).dirtyIsValid
      fill := hfill
      cleanWords := fun i hi => (hlines i hi).clean
      entries := hentries
      noEntryOfLine := fun e he => (hlines e.idx (hentries e he).idx).noEntry e he rfl
      occupancy := hocc }

theorem State.line_of_getElem? {s : State} {i : Nat} {l : Line} (h : s.lines[i]? = some l) : s.line i = l := by
  simp [State.line, List.getD_eq_getElem?_getD, h]

theorem State.lines_getElem?_of_lt {s : State} {i : Nat} (h : i < s.lines.length) : s.lines[i]? = some (s.line i) := by
  simp [State.line, List.getD_eq_getElem?_getD, List.getElem?_eq_getElem h]

/-- Every line after one line was replaced. -/
theorem State.line_of_set {s t : State} {j : Nat} {l : Line} (hj : j < s.lines.length) (hcfg : t.cfg = s.cfg)
    (hlines : t.lines = s.lines.set j l) (i : Nat) : t.line i = if i = j then l else s.line i := by
  by_cases hij : i = j
  · subst hij
    simp [State.line, List.getD_eq_getElem?_getD, hlines, List.getElem?_set_self hj]
  · simp [State.line, List.getD_eq_getElem?_getD, hlines, hcfg, hij, List.getElem?_set_ne (Ne.symm hij)]

theorem State.line_congr {s t : State} (hcfg : t.cfg = s.cfg) (hlines : t.lines = s.lines) (i : Nat) :
    t.line i = s.line i := by
  simp [State.line, hcfg, hlines]

theorem State.backRead_congr {s t : State} (hcfg : t.cfg = s.cfg) (hback : t.back = s.back) (a : Word) :
    t.backRead a = s.backRead a := by
  simp [State.backRead, hcfg, hback]

/-- R300: no word is masked in a line that is not the one being filled. -/
theorem State.landed_of_idx_ne {s : State} {i : Nat} (h : s.fill.idx ≠ i) (k : Nat) : s.landed i k = true := by
  simp [State.landed, h]

/-- A line keeps its part of the invariant when no word of it becomes real, no clean word of it is overwritten in the
backing store, and no entry of its block is buffered. -/
theorem LineOk.mono {s t : State} {i : Nat} {l : Line} (h : LineOk s i l) (hcfg : t.cfg = s.cfg)
    (hclean : l.valid = true → ∀ k < s.cfg.blockWords, t.landed i k = true →
      s.landed i k = true ∧ t.backRead (s.cfg.wordAddr l.tag i k) = s.backRead (s.cfg.wordAddr l.tag i k))
    (hwbuf : ∀ e ∈ t.wbuf, e.idx = i → ∃ f ∈ s.wbuf, f.idx = i ∧ f.tag = e.tag) : LineOk t i l := by
  refine ⟨?_, ?_, ?_, h.dirtyIsValid, ?_, fun e he hei hl => ?_⟩
  · rw [hcfg]; exact h.words
  · rw [hcfg]; exact h.tag
  · rw [hcfg]; exact h.inWindow
  · rw [hcfg]
    intro hv hd k hk hland
    obtain ⟨hland', hback⟩ := hclean hv k hk hland
    rw [hback]
    exact h.clean hv hd k hk hland'
  · obtain ⟨f, hf, hfi, hft⟩ := hwbuf e he hei
    exact h.noEntry f hf hfi ⟨hl.1, hl.2.trans hft.symm⟩

/-- The fill record keeps its part of the invariant when its line keeps validity and tag. -/
theorem FillOk.mono {s t : State} (h : FillOk s) (hcfg : t.cfg = s.cfg) (hfill : t.fill = s.fill)
    (hvalid : (t.line s.fill.idx).valid = (s.line s.fill.idx).valid)
    (htag : (t.line s.fill.idx).tag = (s.line s.fill.idx).tag) : FillOk t where
  idx := by rw [hcfg, hfill]; exact h.idx
  tag := by rw [hcfg, hfill]; exact h.tag
  base := by rw [hcfg, hfill]; exact h.base
  inWindow := by rw [State.inWindow, hcfg, hfill]; exact h.inWindow
  cnt := by rw [hfill]; exact h.cnt
  word := by rw [hcfg, hfill]; exact h.word
  notLanded := by rw [hfill, hvalid]; exact h.notLanded
  landing := by rw [hfill, hvalid, htag]; exact h.landing

/-- The fill record keeps its part of the invariant when a line is replaced by one of the same block. -/
theorem FillOk.of_set {s t : State} {j : Nat} {l : Line} (h : FillOk s) (hcfg : t.cfg = s.cfg) (hfill : t.fill = s.fill)
    (hset : t.lines = s.lines.set j l) (hj : j < s.lines.length) (hvalid : l.valid = (s.line j).valid)
    (htag : l.tag = (s.line j).tag) : FillOk t := by
  have hline := State.line_of_set hj hcfg hset s.fill.idx
  refine h.mono hcfg hfill ?_ ?_ <;> rw [hline] <;> split <;> simp_all

/-- The invariant of the cache after line `j` was replaced by `l`. -/
theorem cacheOk_of_set {s t : State} {j : Nat} {l : Line} (hcfg : t.cfg = s.cfg) (hset : t.lines = s.lines.set j l)
    (hcount : s.lines.length = s.cfg.numLines) (hj : j < s.cfg.numLines) (hnew : LineOk t j l)
    (hothers : ∀ i < s.cfg.numLines, i ≠ j → LineOk t i (s.line i)) (hfill : t.fill.active = true → FillOk t)
    (hentries : ∀ e ∈ t.wbuf, EntryOk s.cfg e) (hocc : t.wbuf.length ≤ 1) : CacheOk t := by
  refine (cacheOk_iff t).mpr ⟨by simp [hset, hcfg, hcount], fun i hi => ?_, hfill, by rwa [hcfg], hocc⟩
  rw [hcfg] at hi
  rw [State.line_of_set (hcount ▸ hj) hcfg hset]
  split
  · next hij => exact hij ▸ hnew
  · next hij => exact hothers i hi hij

theorem wordAt_set {data : List Word} {j : Nat} (hj : j < data.length) (k : Nat) (v : Word) :
    wordAt (data.set j v) k = if k = j then v else wordAt data k := by
  by_cases hkj : k = j
  · subst hkj
    simp [wordAt, List.getD_eq_getElem?_getD, List.getElem?_set_self hj]
  · simp [wordAt, List.getD_eq_getElem?_getD, hkj, List.getElem?_set_ne (Ne.symm hkj)]

/-- R316: replacing a line by one that is not dirtier keeps every line clean. -/
theorem clean_of_mem_set {lines : List Line} {j : Nat} {l m : Line} (hclean : ∀ n ∈ lines, n.dirty = false)
    (hm : lines[j]? = some m) (hl : l.dirty = true → m.dirty = true) : ∀ n ∈ lines.set j l, n.dirty = false := by
  intro n hn
  rcases List.mem_or_eq_of_mem_set hn with hn | rfl
  · exact hclean n hn
  · by_contra hd
    have := hl (by simpa using hd)
    rw [hclean m (List.mem_of_getElem? hm)] at this
    cases this

/-! ### The memory side -/

/-- The invariants of the memory side: backing store, cache and write buffer. -/
structure MemorySideOk (s : State) : Prop where
  memory : MemoryOk s
  cache : s.cfg.cached = true → CacheOk s
  writeThrough : WriteThroughOk s
  uncached : UncachedOk s

theorem MachineOk.memorySide {s : State} (h : MachineOk s) : MemorySideOk s :=
  ⟨h.memory, h.cache, h.writeThrough, h.uncached⟩

theorem MemorySideOk.of_cached {s : State} (hon : s.cfg.cached = true) (hm : MemoryOk s) (hcache : CacheOk s)
    (hwt : WriteThroughOk s) : MemorySideOk s :=
  ⟨hm, fun _ => hcache, hwt, fun hoff => by rw [hon] at hoff; cases hoff⟩

/-- The parts of the state that the memory side is made of. -/
structure SameMemorySide (s t : State) : Prop where
  cfg : t.cfg = s.cfg
  lines : t.lines = s.lines
  fill : t.fill = s.fill
  wbuf : t.wbuf = s.wbuf
  back : t.back = s.back

theorem State.raise_sameMemorySide (s : State) (f : FaultInfo) : SameMemorySide s (s.raise f) := by constructor <;> simp

/-- The invariants of the memory side depend on its parts alone. -/
theorem MemorySideOk.congr {s t : State} (h : MemorySideOk s) (hs : SameMemorySide s t) : MemorySideOk t where
  memory := ⟨hs.back ▸ h.memory.wf, by rw [hs.cfg, hs.back]; exact h.memory.within⟩
  cache := by
    intro hon
    rw [hs.cfg] at hon
    obtain ⟨hcount, hlines, hfill, hentries, hocc⟩ := (cacheOk_iff s).mp (h.cache hon)
    have hline := State.line_congr hs.cfg hs.lines
    refine (cacheOk_iff t).mpr ⟨?_, ?_, ?_, ?_, ?_⟩
    · rw [hs.lines, hs.cfg]; exact hcount
    · rw [hs.cfg]
      intro i hi
      rw [hline]
      refine (hlines i hi).mono hs.cfg (fun _ k _ hland => ⟨?_, State.backRead_congr hs.cfg hs.back _⟩)
        fun e he hei => ⟨e, hs.wbuf ▸ he, hei, rfl⟩
      rwa [State.landed, hs.fill] at hland
    · rw [hs.fill]
      exact fun ha => (hfill ha).mono hs.cfg hs.fill (by rw [hline]) (by rw [hline])
    · rw [hs.wbuf, hs.cfg]; exact hentries
    · rw [hs.wbuf]; exact hocc
  writeThrough := by
    intro hp
    rw [hs.cfg] at hp
    rw [hs.lines, hs.wbuf]
    exact h.writeThrough hp
  uncached := by
    intro hoff
    rw [hs.cfg] at hoff
    rw [hs.lines, hs.fill, hs.wbuf]
    exact h.uncached hoff

end Sys2Proof.Machine
end

section
/-! Each operation of the memory side keeps its invariants (spec/47_cache_controller.md R302 to R313, R316, R317;
spec/48_write_buffer.md R343, R344). -/

namespace Sys2Proof.Machine

open Sys2Proof

/-! ### The lookup (R300) -/

/-- R300: a real word of a valid line hits, at every address of that word. -/
theorem CacheOk.hitLine_of_landed {s : State} (h : CacheOk s) (hg : s.cfg.CacheShape) {i k : Nat} {a : Word}
    (hi : i < s.cfg.numLines) (hk : k < s.cfg.blockWords) (hv : (s.line i).valid = true) (hland : s.landed i k = true)
    (ha : wordIndex (s.cfg.wordAddr (s.line i).tag i k) = wordIndex a) : s.hitLine a = some (s.line i) := by
  obtain ⟨htag, rfl, rfl⟩ := (hg.wordIndex_wordAddr_eq_iff (h.lineTags i hi) hi hk a).mp ha
  exact State.hitLine_eq_some.mpr ⟨State.lines_getElem?_of_lt (h.lineCount ▸ hi), hv, htag, hland⟩

/-- A backing-store write to a word that no line holds leaves every real word of a valid line. -/
theorem CacheOk.backRead_backWrite_of_no_hit {s : State} (h : CacheOk s) (hg : s.cfg.CacheShape) (hwf : s.back.Wf)
    {i k : Nat} {a : Word} (v : Word) (hmiss : s.hitLine a = none) (hi : i < s.cfg.numLines) (hk : k < s.cfg.blockWords)
    (hv : (s.line i).valid = true) (hland : s.landed i k = true) :
    (s.backWrite a v).backRead (s.cfg.wordAddr (s.line i).tag i k) = s.backRead (s.cfg.wordAddr (s.line i).tag i k) := by
  rw [s.backRead_backWrite _ _ _ hwf, if_neg]
  intro ha
  rw [h.hitLine_of_landed hg hi hk hv hland ha] at hmiss
  cases hmiss

/-- A line that answers a lookup is the line of the address, in order. -/
theorem CacheOk.of_hitLine {s : State} (h : CacheOk s) (hg : s.cfg.CacheShape) {a : Word} {l : Line}
    (hhit : s.hitLine a = some l) : s.cfg.index a < s.lines.length ∧ l = s.line (s.cfg.index a) ∧ l.valid = true ∧
      l.tag = s.cfg.tag a ∧ s.cfg.offset a < l.data.length ∧ LineOk s (s.cfg.index a) l := by
  obtain ⟨hcount, hlines, -⟩ := (cacheOk_iff s).mp h
  obtain ⟨hget, hvalid, htag, -⟩ := State.hitLine_eq_some.mp hhit
  have hline := hlines _ (hg.index_lt a)
  rw [State.line_of_getElem? hget] at hline
  exact ⟨hcount ▸ hg.index_lt a, (State.line_of_getElem? hget).symm, hvalid, htag,
    hline.words ▸ hg.offset_lt a, hline⟩

/-- R302: under `write_back` a write hit changes its line. -/
theorem State.storeHit_writeBack {s : State} (hp : s.cfg.writePolicy = .writeBack) (a : Word) (l : Line) (v : Word) :
    s.storeHit a l v = { s with
      lines := s.lines.set (s.cfg.index a) { l with data := l.data.set (s.cfg.offset a) v, dirty := true } } := by
  simp [State.storeHit, hp]

/-- R303: under `write_through` a write hit changes its line and the word of the backing store. -/
theorem State.storeHit_writeThrough {s : State} (hp : s.cfg.writePolicy = .writeThrough) (a : Word) (l : Line) (v : Word) :
    s.storeHit a l v = { s.backWrite a v with
      lines := s.lines.set (s.cfg.index a) { l with data := l.data.set (s.cfg.offset a) v } } := by
  simp [State.storeHit, hp, State.backWrite]

/-! ### Buffered lines (log entry 7) -/

theorem setNewestEntry_length (buf : List WbEntry) (base : Word) (k : Nat) (v : Word) :
    (setNewestEntry buf base k v).length = buf.length := by
  induction buf with
  | nil => rfl
  | cons e es ih =>
    unfold setNewestEntry
    split
    · simp [ih]
    · split <;> rfl

/-- A store into a buffered line changes its data alone. -/
theorem mem_setNewestEntry {buf : List WbEntry} {base : Word} {k : Nat} {v : Word} {e : WbEntry}
    (he : e ∈ setNewestEntry buf base k v) :
    ∃ f ∈ buf, f.addr = e.addr ∧ f.tag = e.tag ∧ f.idx = e.idx ∧ f.data.length = e.data.length := by
  induction buf with
  | nil => cases he
  | cons g es ih =>
    unfold setNewestEntry at he
    split at he
    · rcases List.mem_cons.mp he with rfl | he
      · exact ⟨e, List.mem_cons_self, rfl, rfl, rfl, rfl⟩
      · obtain ⟨f, hf, hrest⟩ := ih he
        exact ⟨f, List.mem_cons_of_mem _ hf, hrest⟩
    · split at he
      · rcases List.mem_cons.mp he with rfl | he
        · exact ⟨g, List.mem_cons_self, rfl, rfl, rfl, by simp⟩
        · exact ⟨e, List.mem_cons_of_mem _ he, rfl, rfl, rfl, rfl⟩
      · exact ⟨e, he, rfl, rfl, rfl, rfl⟩

/-! ### The landing of a word (R310 to R312) -/

/-- R310: the line after a landing that passed its check: it is valid and has the tag of the fill, it has the new word, and
the first landing clears the dirty mark. -/
theorem landedLine_spec {l : Line} {f : Fill} (h : f.word = 0 ∨ (l.valid = true ∧ l.tag = f.tag)) (v : Word) :
    (landedLine l f v).valid = true ∧ (landedLine l f v).tag = f.tag ∧ (landedLine l f v).data = l.data.set f.word v ∧
    ((landedLine l f v).dirty = true → l.dirty = true) ∧ (f.word ≠ 0 → (landedLine l f v).dirty = l.dirty) := by
  unfold landedLine
  split
  · next hz => simp [hz]
  · next hz =>
    obtain ⟨hv, ht⟩ := h.resolve_left hz
    simp [hv, ht]

@[simp] theorem Fill.afterLanding_base (c : Config) (f : Fill) : (f.afterLanding c).base = f.base := by
  unfold Fill.afterLanding; split <;> rfl
@[simp] theorem Fill.afterLanding_idx (c : Config) (f : Fill) : (f.afterLanding c).idx = f.idx := by
  unfold Fill.afterLanding; split <;> rfl
@[simp] theorem Fill.afterLanding_tag (c : Config) (f : Fill) : (f.afterLanding c).tag = f.tag := by
  unfold Fill.afterLanding; split <;> rfl
@[simp] theorem Fill.afterLanding_word (c : Config) (f : Fill) : (f.afterLanding c).word = f.word + 1 := by
  unfold Fill.afterLanding; split <;> rfl

/-- R311, R312: the fill goes on exactly while words are missing, with the counter at 0 below the next threshold. -/
theorem Fill.afterLanding_active {c : Config} {f : Fill} (h : (f.afterLanding c).active = true) :
    f.word + 1 < c.blockWords ∧ (f.afterLanding c).cnt = 0 ∧ (f.afterLanding c).thr = c.subseqPenalty := by
  unfold Fill.afterLanding at h ⊢
  split
  · next hlt => exact ⟨hlt, rfl, rfl⟩
  · next hlt => simp [hlt] at h

/-- R310 to R312: all that a landing does, from the state before its tick. -/
theorem landWord_tickedFill {s t : State} (h : landWord (tickedFill s) = .ok t) :
    ∃ l, s.lines[s.fill.idx]? = some l ∧ (s.fill.word = 0 ∨ (l.valid = true ∧ l.tag = s.fill.tag)) ∧
      t = { s with
        lines := s.lines.set s.fill.idx (landedLine l s.fill (s.backRead s.fill.nextAddr))
        fill := (tickedFill s).fill.afterLanding s.cfg } :=
  landWord_eq_ok.mp h

/-- R300, R312: after a landing the real words of the line are those landed before and the new one. -/
theorem State.lt_of_landed_afterLanding {t : State} {c : Config} {f : Fill} {k : Nat} (hfill : t.fill = f.afterLanding c)
    (hact : f.active = true) (hk : k < c.blockWords) (hland : t.landed f.idx k = true) : k < f.word + 1 := by
  rw [State.landed, hfill, Fill.afterLanding] at hland
  split at hland
  · simpa [hact] using hland
  · omega

/-- R310: the address of the next word of a fill. -/
theorem FillOk.nextAddr {s : State} (h : FillOk s) :
    s.fill.nextAddr = s.cfg.wordAddr s.fill.tag s.fill.idx s.fill.word := by
  rw [Fill.nextAddr, h.base, Config.wordAddr]

/-! ### The words of a buffered line (R343) -/

/-- R294: the words of a buffered line lie inside the window. -/
theorem EntryOk.words_inWindow {c : Config} (hg : c.CacheShape) {e : WbEntry} (he : EntryOk c e) :
    ∀ j < e.data.length, (e.addr + BitVec.ofNat 32 (4 * j)).toNat < c.memSize := by
  intro j hj
  rw [he.data] at hj
  rw [he.addr]
  exact hg.wordAddr_inWindow he.tag he.idx hj (he.addr ▸ he.inWindow)

/-- R345 d: a drain writes no word of a block of another tag or another line. -/
theorem EntryOk.backRead_writeBlock_other {s : State} (hg : s.cfg.CacheShape) {e : WbEntry} (he : EntryOk s.cfg e)
    (hwf : s.back.Wf) {t i k : Nat} (ht : t < 2 ^ s.cfg.tagBits) (hi : i < s.cfg.numLines) (hk : k < s.cfg.blockWords)
    (hne : ¬ (e.idx = i ∧ t = e.tag)) :
    (s.writeBlock e.addr e.data).backRead (s.cfg.wordAddr t i k) = s.backRead (s.cfg.wordAddr t i k) := by
  refine s.backRead_writeBlock_other _ _ _ hwf fun j hj hw => ?_
  rw [he.data] at hj
  rw [he.addr, hg.wordIndex_wordAddr_eq_iff ht hi hk] at hw
  obtain ⟨htag, hidx, -⟩ := hw
  exact hne ⟨(hidx.trans (hg.index_wordAddr he.tag he.idx hj)).symm, htag.trans (hg.tag_wordAddr he.tag he.idx hj)⟩

/-! ### The fill after a landing -/

/-- R310, R317 f: after a landing the filled line is in order, no entry being buffered. -/
theorem lineOk_landedLine {s t : State} {l : Line} (hfill : FillOk s) (hact : s.fill.active = true)
    (hl : LineOk s s.fill.idx l) (hcheck : s.fill.word = 0 ∨ (l.valid = true ∧ l.tag = s.fill.tag))
    (hcfg : t.cfg = s.cfg) (hback : t.back = s.back) (hbuf : t.wbuf = [])
    (hafter : t.fill = (tickedFill s).fill.afterLanding s.cfg) :
    LineOk t s.fill.idx (landedLine l s.fill (s.backRead s.fill.nextAddr)) := by
  obtain ⟨hv, ht, hd, -, hdirty⟩ := landedLine_spec hcheck (s.backRead s.fill.nextAddr)
  refine ⟨?_, ?_, fun _ => ?_, fun _ => hv, fun _ hclean k hk hland => ?_, by simp [hbuf]⟩
  · rw [hd, List.length_set, hcfg, hl.words]
  · rw [ht, hcfg]; exact hfill.tag
  · rw [ht, hcfg, ← hfill.base]; exact (s.inWindow_eq_true_iff _).mp hfill.inWindow
  · rw [hcfg] at hk
    have hlt : k < s.fill.word + 1 := State.lt_of_landed_afterLanding (f := (tickedFill s).fill) hafter hact hk hland
    rw [hcfg, State.backRead_congr hcfg hback, hd, ht, wordAt_set (hl.words.symm ▸ hfill.word)]
    split
    · next hkw => rw [hkw, hfill.nextAddr]
    · next hkw =>
      have hpos : s.fill.word ≠ 0 := by omega
      obtain ⟨hlv, hlt'⟩ := hcheck.resolve_left hpos
      have hold : s.landed s.fill.idx k = true := by
        rw [State.landed, Bool.or_eq_true, decide_eq_true_iff]
        exact .inr (by omega)
      rw [← hlt', hl.clean hlv (hdirty hpos ▸ hclean) k hk hold]

/-- R311, R317 c to e: after a landing the record of a fill that goes on is in order. -/
theorem fillOk_afterLanding {s t : State} {l : Line} (hg : s.cfg.CacheShape) (hfill : FillOk s)
    (hidx : s.fill.idx < s.lines.length) (hcheck : s.fill.word = 0 ∨ (l.valid = true ∧ l.tag = s.fill.tag))
    (hcfg : t.cfg = s.cfg) (hset : t.lines = s.lines.set s.fill.idx (landedLine l s.fill (s.backRead s.fill.nextAddr)))
    (hafter : t.fill = (tickedFill s).fill.afterLanding s.cfg) (hact : t.fill.active = true) : FillOk t := by
  have hbaseEq : t.fill.base = s.fill.base := hafter ▸ Fill.afterLanding_base s.cfg (tickedFill s).fill
  have hidxEq : t.fill.idx = s.fill.idx := hafter ▸ Fill.afterLanding_idx s.cfg (tickedFill s).fill
  have htagEq : t.fill.tag = s.fill.tag := hafter ▸ Fill.afterLanding_tag s.cfg (tickedFill s).fill
  have hwordEq : t.fill.word = s.fill.word + 1 := hafter ▸ Fill.afterLanding_word s.cfg (tickedFill s).fill
  have hline : t.line s.fill.idx = landedLine l s.fill (s.backRead s.fill.nextAddr) := by
    rw [State.line_of_set hidx hcfg hset, if_pos rfl]
  obtain ⟨hv, ht, -⟩ := landedLine_spec hcheck (s.backRead s.fill.nextAddr)
  rw [hafter] at hact
  obtain ⟨hword, hcnt, hthr⟩ := Fill.afterLanding_active hact
  exact {
    idx := by rw [hidxEq, hcfg]; exact hfill.idx
    tag := by rw [htagEq, hcfg]; exact hfill.tag
    base := by rw [hbaseEq, hidxEq, htagEq, hcfg]; exact hfill.base
    inWindow := by rw [State.inWindow, hbaseEq, hcfg]; exact hfill.inWindow
    cnt := by rw [hafter, hcnt, hthr]; exact hg.subseqPenalty
    word := by rw [hwordEq, hcfg]; exact hword
    notLanded := fun hz => by omega
    landing := fun _ => by rw [hidxEq, hline, htagEq]; exact ⟨hv, ht⟩ }

/-! ### The start of a fill -/

/-- R307: out of a drained buffer only the entry of a valid dirty victim can come. -/
theorem mem_of_evict {s : State} {idx : Nat} {l : Line} {buf : List WbEntry} (hempty : s.wbuf = [])
    (h : evict s idx l = some buf) :
    buf.length ≤ 1 ∧ ∀ e ∈ buf, l.valid = true ∧ l.dirty = true ∧ e = victimEntry s.cfg idx l := by
  rcases evict_eq_some.mp h with ⟨hv, hd, -, rfl⟩ | ⟨-, rfl⟩
  · simp [hempty, hv, hd]
  · simp [hempty]

/-- R307: the entry of a valid victim is a whole line inside the window. -/
theorem LineOk.victimEntry {s : State} {i : Nat} {l : Line} (h : LineOk s i l) (hi : i < s.cfg.numLines)
    (hv : l.valid = true) : EntryOk s.cfg (victimEntry s.cfg i l) :=
  ⟨hi, h.tag, rfl, h.inWindow hv, h.words⟩

/-- R306, R317 c and e: the record of a fill that begins inside the window is in order, its line being invalid. -/
theorem fillOk_start {s t : State} {a : Word} {l : Line} (hg : s.cfg.CacheShape) (ha : a.toNat < s.cfg.memSize)
    (hcfg : t.cfg = s.cfg) (hfill : t.fill = Fill.start s.cfg a) (hset : t.lines = s.lines.set (s.cfg.index a) l)
    (hindex : s.cfg.index a < s.lines.length) (hl : l.valid = false) : FillOk t where
  idx := by rw [hfill, hcfg]; exact hg.index_lt a
  tag := by rw [hfill, hcfg]; exact s.cfg.tag_lt a
  base := by rw [hfill, hcfg]; exact hg.blockBase_eq_lineAddr a
  inWindow := by
    rw [State.inWindow_eq_true_iff, hfill, hcfg]
    exact (hg.blockBase_le a).trans_lt ha
  cnt := by rw [hfill]; exact hg.missPenalty
  word := by rw [hfill, hcfg]; exact hg.blockWords_pos
  notLanded := fun _ => by
    rw [hfill, Fill.start, State.line_of_set hindex hcfg hset, if_pos rfl]
    exact hl
  landing := fun hpos => by rw [hfill] at hpos; cases hpos

/-! ### The operations -/

section Operations

variable {s : State} (hc : s.cfg.check = none) (hon : s.cfg.cached = true) (h : MemorySideOk s)

include hc hon h

/-! ### Stores -/

/-- A store of `ArchMem` to the backing store, no line and no entry holding the word (log entry 7). -/
theorem MemorySideOk.backWrite_of_no_hit {a : Word} (ha : a.toNat < s.cfg.memSize) (v : Word)
    (hmiss : s.hitLine a = none) : MemorySideOk (s.backWrite a v) := by
  have hcache := h.cache hon
  obtain ⟨hcount, hlines, hfill, hentries, hocc⟩ := (cacheOk_iff s).mp hcache
  refine MemorySideOk.of_cached hon (h.memory.backWrite hc ha v) ?_ h.writeThrough
  refine (cacheOk_iff _).mpr ⟨hcount, fun i hi => ?_, ?_, hentries, hocc⟩
  · refine (hlines i hi).mono rfl (fun hv k hk hland => ⟨hland, ?_⟩) fun e he hei => ⟨e, he, hei, rfl⟩
    exact hcache.backRead_backWrite_of_no_hit (Config.cacheShape_of_check hc hon) h.memory.wf v hmiss hi hk hv hland
  · exact fun hact => (hfill hact).mono rfl rfl rfl rfl

theorem MemorySideOk.storeHit_writeBack {a : Word} {l : Line} (hp : s.cfg.writePolicy = .writeBack)
    (hhit : s.hitLine a = some l) (v : Word) : MemorySideOk (s.storeHit a l v) := by
  have hg := Config.cacheShape_of_check hc hon
  obtain ⟨hcount, hlines, hfill, hentries, hocc⟩ := (cacheOk_iff s).mp (h.cache hon)
  obtain ⟨hj, hl, hvalid, -, -, hline⟩ := (h.cache hon).of_hitLine hg hhit
  rw [State.storeHit_writeBack hp]
  refine MemorySideOk.of_cached hon ⟨h.memory.wf, h.memory.within⟩ ?_ fun hwt => by simp [hp] at hwt
  refine cacheOk_of_set (s := s) rfl rfl hcount (hg.index_lt a) ?_ (fun i hi _ => ?_) ?_ hentries hocc
  · exact ⟨by simp [hline.words], hline.tag, hline.inWindow, fun _ => hvalid, fun _ hd => (by cases hd), hline.noEntry⟩
  · exact (hlines i hi).mono rfl (fun _ k _ hland => ⟨hland, rfl⟩) fun e he hei => ⟨e, he, hei, rfl⟩
  · exact fun hact => (hfill hact).of_set rfl rfl rfl hj (by rw [← hl]) (by rw [← hl])

theorem MemorySideOk.storeHit_writeThrough {a : Word} {l : Line} (hp : s.cfg.writePolicy = .writeThrough)
    (ha : a.toNat < s.cfg.memSize) (hhit : s.hitLine a = some l) (v : Word) : MemorySideOk (s.storeHit a l v) := by
  have hg := Config.cacheShape_of_check hc hon
  obtain ⟨hcount, hlines, hfill, hentries, hocc⟩ := (cacheOk_iff s).mp (h.cache hon)
  obtain ⟨hj, hl, hvalid, htag, hoffset, hline⟩ := (h.cache hon).of_hitLine hg hhit
  obtain ⟨hnotDirty, hempty⟩ := h.writeThrough hp
  have hmem := h.memory.backWrite hc ha v
  rw [State.storeHit_writeThrough hp]
  refine MemorySideOk.of_cached hon ⟨hmem.wf, hmem.within⟩ ?_
    fun _ => ⟨clean_of_mem_set hnotDirty (State.hitLine_eq_some.mp hhit).1 id, hempty⟩
  refine cacheOk_of_set (s := s) rfl rfl hcount (hg.index_lt a) ?_ (fun i hi hne => ?_) ?_ hentries hocc
  · refine ⟨by simp [hline.words], hline.tag, hline.inWindow, hline.dirtyIsValid, fun _ hd k hk hland => ?_, hline.noEntry⟩
    change wordAt _ k = (s.backWrite a v).backRead (s.cfg.wordAddr l.tag (s.cfg.index a) k)
    have hword : wordIndex (s.cfg.wordAddr l.tag (s.cfg.index a) k) = wordIndex a ↔ k = s.cfg.offset a := by
      rw [hg.wordIndex_wordAddr_eq_iff hline.tag (hg.index_lt a) hk, and_iff_right htag, and_iff_right rfl]
    rw [s.backRead_backWrite _ _ _ h.memory.wf, wordAt_set hoffset, hline.clean hvalid hd k hk hland]
    simp only [hword]
  · refine (hlines i hi).mono rfl (fun hv k hk hland => ⟨hland, ?_⟩) fun e he hei => ⟨e, he, hei, rfl⟩
    change (s.backWrite a v).backRead _ = _
    rw [s.backRead_backWrite _ _ _ h.memory.wf, if_neg]
    simp [hg.wordIndex_wordAddr_eq_iff (hlines i hi).tag hi hk, hne]
  · exact fun hact => (hfill hact).of_set rfl rfl rfl hj (by rw [← hl]) (by rw [← hl])

/-- R302, R303: a write hit. The line becomes dirty, or the word goes to the backing store too. -/
theorem MemorySideOk.storeHit {a : Word} {l : Line} (ha : a.toNat < s.cfg.memSize) (hhit : s.hitLine a = some l)
    (v : Word) : MemorySideOk (s.storeHit a l v) := by
  cases hp : s.cfg.writePolicy with
  | writeBack => exact h.storeHit_writeBack hc hon hp hhit v
  | writeThrough => exact h.storeHit_writeThrough hc hon hp ha hhit v

omit hc in
/-- A store of `ArchMem` to a buffered line, no line of the cache holding the word (log entry 7). -/
theorem MemorySideOk.setNewestEntry (base : Word) (k : Nat) (v : Word) :
    MemorySideOk { s with wbuf := setNewestEntry s.wbuf base k v } := by
  obtain ⟨hcount, hlines, hfill, hentries, hocc⟩ := (cacheOk_iff s).mp (h.cache hon)
  refine MemorySideOk.of_cached hon ⟨h.memory.wf, h.memory.within⟩ ?_ fun hp => ?_
  · refine (cacheOk_iff _).mpr ⟨hcount, fun i hi => ?_, fun hact => (hfill hact).mono rfl rfl rfl rfl, ?_, ?_⟩
    · refine (hlines i hi).mono rfl (fun _ k _ hland => ⟨hland, rfl⟩) fun e he hei => ?_
      obtain ⟨f, hf, -, htag, hidx, -⟩ := mem_setNewestEntry he
      exact ⟨f, hf, hidx.trans hei, htag⟩
    · intro e he
      obtain ⟨f, hf, haddr, htag, hidx, hdata⟩ := mem_setNewestEntry he
      obtain ⟨h1, h2, h3, h4, h5⟩ := hentries f hf
      exact ⟨hidx ▸ h1, htag ▸ h2, by rw [← haddr, h3, htag, hidx], haddr ▸ h4, hdata ▸ h5⟩
    · exact (setNewestEntry_length _ _ _ _).trans_le hocc
  · obtain ⟨hclean, hempty⟩ := h.writeThrough hp
    exact ⟨hclean, by simp [hempty, Machine.setNewestEntry]⟩

/-- Log entry 7: a store of `ArchMem` inside the window, wherever the word is kept. -/
theorem MemorySideOk.archWrite_of_cached {a : Word} (ha : a.toNat < s.cfg.memSize) (v : Word) :
    MemorySideOk (s.archWrite a v) := by
  rcases s.archWrite_cases a v with ⟨hoff, -⟩ | ⟨-, l, hhit, he⟩ | ⟨-, -, -, he⟩ | ⟨-, hmiss, -, he⟩
  · rw [hon] at hoff
    cases hoff
  · exact he ▸ h.storeHit hc hon ha hhit v
  · exact he ▸ h.setNewestEntry hon _ _ v
  · exact he ▸ h.backWrite_of_no_hit hc hon ha v hmiss

/-! ### Drain (R343) -/

omit hc in
/-- R344: a drain empties the buffer. -/
theorem MemorySideOk.drainOne_wbuf : (drainOne s).wbuf = [] := by
  have hocc := (h.cache hon).occupancy
  rw [Machine.drainOne_wbuf]
  exact List.length_eq_zero_iff.mp (by rw [List.length_tail]; omega)

/-- R343: a drain overwrites no clean word of a valid line. -/
theorem MemorySideOk.drainOne : MemorySideOk (drainOne s) := by
  have hempty := h.drainOne_wbuf hon
  obtain ⟨hcount, hlines, hfill, hentries, -⟩ := (cacheOk_iff s).mp (h.cache hon)
  rcases drainOne_cases s with ⟨-, he⟩ | ⟨e, rest, hbuf, he⟩
  · rwa [he]
  · have hmem : e ∈ s.wbuf := hbuf ▸ List.mem_cons_self
    have hmemory := h.memory.writeBlock hc ((hentries e hmem).words_inWindow (Config.cacheShape_of_check hc hon))
    obtain rfl : rest = [] := by rw [he] at hempty; exact hempty
    have hback : ∀ a, State.backRead { s with back := (s.writeBlock e.addr e.data).back, wbuf := [] } a =
        (s.writeBlock e.addr e.data).backRead a := State.backRead_congr (by simp) rfl
    rw [he, State.writeBlock_frame]
    refine MemorySideOk.of_cached hon ⟨hmemory.wf, by simpa using hmemory.within⟩ ?_
      fun hp => ⟨(h.writeThrough hp).1, rfl⟩
    refine (cacheOk_iff _).mpr ⟨hcount, fun i hi => ?_, fun hact => (hfill hact).mono rfl rfl rfl rfl, by simp, by simp⟩
    refine (hlines i hi).mono rfl (fun hv k hk hland => ⟨hland, (hback _).trans ?_⟩) (by simp)
    refine (hentries e hmem).backRead_writeBlock_other (Config.cacheShape_of_check hc hon) h.memory.wf (hlines i hi).tag hi hk ?_
    exact fun ⟨hidx, htag⟩ => (hlines i hi).noEntry e hmem hidx ⟨hv, htag⟩

/-! ### Fill tick (R310 to R312) -/

omit hc in
/-- R310: the counter advances below its threshold. -/
theorem MemorySideOk.tickedFill (hcnt : s.fill.cnt + 1 ≠ s.fill.thr) : MemorySideOk (tickedFill s) := by
  obtain ⟨hcount, hlines, hfill, hentries, hocc⟩ := (cacheOk_iff s).mp (h.cache hon)
  refine MemorySideOk.of_cached hon ⟨h.memory.wf, h.memory.within⟩ ?_ h.writeThrough
  refine (cacheOk_iff _).mpr ⟨hcount, fun i hi => ?_, fun hact => ?_, hentries, hocc⟩
  · exact (hlines i hi).mono rfl (fun _ k _ hland => ⟨hland, rfl⟩) fun e he hei => ⟨e, he, hei, rfl⟩
  · obtain ⟨h1, h2, h3, h4, h5, h6, h7, h8⟩ := hfill hact
    exact ⟨h1, h2, h3, h4, lt_of_le_of_ne h5 hcnt, h6, h7, h8⟩

/-- R310 to R312: a word lands in its line; it is the word of the backing store. The write buffer has been drained. -/
theorem MemorySideOk.landWord {t : State} (hact : s.fill.active = true) (hempty : s.wbuf = [])
    (ht : landWord (Machine.tickedFill s) = .ok t) : MemorySideOk t := by
  obtain ⟨hcount, hlines, hfill, hentries, hocc⟩ := (cacheOk_iff s).mp (h.cache hon)
  obtain ⟨l, hget, hcheck, rfl⟩ := landWord_tickedFill ht
  have hf := hfill hact
  have hline := hlines _ hf.idx
  rw [State.line_of_getElem? hget] at hline
  obtain ⟨-, -, -, hdirty, -⟩ := landedLine_spec hcheck (s.backRead s.fill.nextAddr)
  refine MemorySideOk.of_cached hon ⟨h.memory.wf, h.memory.within⟩ ?_ fun hp =>
    ⟨clean_of_mem_set (h.writeThrough hp).1 hget hdirty, hempty⟩
  refine cacheOk_of_set (s := s) rfl rfl hcount hf.idx ?_ (fun i hi hne => ?_) ?_ hentries hocc
  · exact lineOk_landedLine hf hact hline hcheck rfl rfl hempty rfl
  · exact (hlines i hi).mono rfl (fun _ k _ _ => ⟨State.landed_of_idx_ne hne.symm k, rfl⟩) fun e he hei => ⟨e, he, hei, rfl⟩
  · exact fillOk_afterLanding (Config.cacheShape_of_check hc hon) hf (hcount ▸ hf.idx) hcheck rfl rfl rfl

/-- R310: the fill tick of a drained cycle. -/
theorem MemorySideOk.fillTick {t : State} (hempty : s.wbuf = []) (ht : fillTick s = .ok t) :
    MemorySideOk t ∧ t.wbuf = [] := by
  refine ⟨?_, by rw [fillTick_frame ht]; exact hempty⟩
  rcases fillTick_cases ht with ⟨-, rfl⟩ | ⟨-, hcnt, rfl⟩ | ⟨hact, -, hland⟩
  · exact h
  · exact h.tickedFill hon hcnt
  · exact h.landWord hc hon hact hempty hland

/-! ### Fill start (R306 to R309) -/

/-- R306, R307, R309: a fill begins for the block of an address inside the window; the victim leaves its line. -/
theorem MemorySideOk.startFill {a : Word} {victim : Line} (ha : a.toNat < s.cfg.memSize) (hempty : s.wbuf = [])
    (hidle : s.fill.active = false) (hget : s.lines[s.cfg.index a]? = some victim) :
    MemorySideOk (startFill s a victim) := by
  have hg := Config.cacheShape_of_check hc hon
  have hindex := hg.index_lt a
  obtain ⟨hcount, hlines, -⟩ := (cacheOk_iff s).mp (h.cache hon)
  have hline := hlines _ hindex
  rw [State.line_of_getElem? hget] at hline
  rcases startFill_cases s a victim with ⟨-, he⟩ | ⟨buf, hevict, he⟩ <;> rw [he]
  · exact h
  obtain ⟨hocc, hbuf⟩ := mem_of_evict hempty hevict
  refine MemorySideOk.of_cached hon ⟨h.memory.wf, h.memory.within⟩ ?_ fun hp => ?_
  · refine cacheOk_of_set (s := s) rfl rfl hcount hindex ?_ (fun i hi hne => ?_) (fun _ => ?_) (fun e hmem => ?_) hocc
    · exact ⟨hline.words, hline.tag, fun hv => (by cases hv), fun hd => (by cases hd), fun hv => (by cases hv),
        fun _ _ _ hv => by cases hv.1⟩
    · refine (hlines i hi).mono rfl (fun _ k _ _ => ⟨by simp [State.landed, hidle], rfl⟩) fun e hmem hei => ?_
      obtain ⟨-, -, rfl⟩ := hbuf e hmem
      exact absurd hei hne.symm
    · exact fillOk_start (s := s) hg ha rfl rfl rfl (hcount ▸ hindex) rfl
    · obtain ⟨hv, -, rfl⟩ := hbuf e hmem
      exact hline.victimEntry hindex hv
  · obtain ⟨hclean, -⟩ := h.writeThrough hp
    refine ⟨clean_of_mem_set hclean hget (fun hd => by cases hd), List.eq_nil_iff_forall_not_mem.mpr fun e hmem => ?_⟩
    obtain ⟨-, hd, -⟩ := hbuf e hmem
    rw [hclean victim (List.mem_of_getElem? hget)] at hd
    cases hd

/-! ### The controller's cycle (R298) -/

/-- R298 steps 3 and 4, in a drained cycle. -/
theorem MemorySideOk.access {a : Word} {store : Option Word} {t : State} {ans : Answer} (ha : a.toNat < s.cfg.memSize)
    (hempty : s.wbuf = []) (ht : access s a store = .ok (t, ans)) : MemorySideOk t := by
  obtain ⟨victim, hget, hcases⟩ := access_cases ht
  rcases hcases with ⟨l, -, -, rfl, -⟩ | ⟨l, v, hhit, -, rfl, -⟩ | ⟨-, -, rfl, -⟩ | ⟨-, hidle, rfl, -⟩
  · exact h
  · exact h.storeHit hc hon ha hhit v
  · exact h
  · exact h.startFill hc hon ha hempty hidle hget

/-- R298: drain, fill tick, lookup and fill start, for a request inside the window. -/
theorem MemorySideOk.cacheCycle {req : Request} {t : State} {ans : Answer} (hreq : req.inWindow s.cfg)
    (ht : cacheCycle s req = .ok (t, ans)) : MemorySideOk t := by
  obtain ⟨m, hm, hcases⟩ := cacheCycle_cases ht
  have hcfg : m.cfg = s.cfg := by rw [fillTick_frame hm]; exact drainOne_cfg s
  have hdrained := h.drainOne hc hon
  rw [← drainOne_cfg s] at hc hon
  obtain ⟨hmOk, hempty⟩ := hdrained.fillTick hc hon (h.drainOne_wbuf (drainOne_cfg s ▸ hon)) hm
  rw [drainOne_cfg, ← hcfg] at hc hon
  rw [← hcfg] at hreq
  rcases hcases with ⟨-, rfl, -⟩ | ⟨a, rfl, hacc⟩ | ⟨a, v, rfl, hacc⟩
  · exact hmOk
  · exact hmOk.access hc hon hreq hempty hacc
  · exact hmOk.access hc hon hreq hempty hacc

end Operations

end Sys2Proof.Machine
end

section
/-! O28, O27: every step keeps the invariant of the machine, and reset has it (spec/10_state.md R32, R46, R54;
spec/47_cache_controller.md R316, R317; spec/48_write_buffer.md R344). -/

namespace Sys2Proof.Machine

open Sys2Proof

/-! ### The memory side of a step -/

/-- R92: with the cache disabled a write inside the window goes to the backing store, and there is nothing else. -/
theorem MemorySideOk.backWrite_of_uncached {s : State} (hc : s.cfg.check = none) (hoff : s.cfg.cached = false)
    (h : MemorySideOk s) {a : Word} (ha : a.toNat < s.cfg.memSize) (v : Word) : MemorySideOk (s.backWrite a v) where
  memory := h.memory.backWrite hc ha v
  cache := fun hon => by
    rw [State.backWrite_cfg, hoff] at hon
    cases hon
  writeThrough := h.writeThrough
  uncached := h.uncached

/-- R350 step 3: the memory side of a cycle keeps its invariants, for a request inside the window. -/
theorem MemorySideOk.memorySide {s t : State} {req : Request} {ans : Answer} (h : MemorySideOk s)
    (hc : s.cfg.check = none) (hreq : req.inWindow s.cfg) (ht : memorySide s req = .ok (t, ans)) : MemorySideOk t := by
  rcases memorySide_cases ht with ⟨hon, hcycle⟩ | ⟨hoff, ⟨-, rfl, -⟩ | ⟨a, -, rfl, -⟩ | ⟨a, v, rfl, rfl, -⟩⟩
  · exact h.cacheCycle hc hon hreq hcycle
  · exact h
  · exact h
  · exact h.backWrite_of_uncached hc hoff hreq v

/-- R75: a store of `ArchMem` inside the window keeps the invariants of the memory side. -/
theorem MemorySideOk.archWrite {s : State} (h : MemorySideOk s) (hc : s.cfg.check = none) {a : Word}
    (ha : a.toNat < s.cfg.memSize) (v : Word) : MemorySideOk (s.archWrite a v) := by
  cases hon : s.cfg.cached with
  | true => exact h.archWrite_of_cached hc hon ha v
  | false =>
    have he : s.archWrite a v = s.backWrite a v := by simp [State.archWrite, hon]
    exact he ▸ h.backWrite_of_uncached hc hon ha v

/-- R240, R290: the Memory stage asks only for addresses inside the window. -/
theorem memRequest_inWindow {s : State} {req : Request} (h : memRequest s = .ok req) : req.inWindow s.cfg := by
  rcases memRequest_cases s with ⟨he, -⟩ | ⟨he, -⟩ | ⟨he, -, -, hw⟩ | ⟨he, -, -, -, hw⟩ <;> rw [he] at h
  · exact Except.ok.inj h ▸ trivial
  · cases h
  · exact Except.ok.inj h ▸ (s.inWindow_eq_true_iff _).mp hw
  · exact Except.ok.inj h ▸ (s.inWindow_eq_true_iff _).mp hw

theorem cycle_memorySideOk {s t : State} (hc : s.cfg.check = none) (h : cycle s = .ok t) (hs : MemorySideOk s) :
    MemorySideOk t := by
  obtain ⟨req, after, answer, id, fetch, hreq, hafter, -, -, rfl⟩ := cycle_ok h
  exact (hs.memorySide hc (memRequest_inWindow hreq) hafter).congr ⟨rfl, rfl, rfl, rfl, rfl⟩

theorem exec_memorySideOk {i : Instr} {s t : State} (hc : s.cfg.check = none) (h : exec i s = .next t)
    (hs : MemorySideOk s) : MemorySideOk t := by
  rcases exec_next_cases h with ⟨d, v, rfl⟩ | ⟨a, rfl⟩ | ⟨f, rfl⟩ | ⟨a, v, ha, rfl⟩ | rfl
  · exact hs.congr (by constructor <;> simp)
  · exact hs.congr ⟨rfl, rfl, rfl, rfl, rfl⟩
  · exact hs.congr (s.raise_sameMemorySide f)
  · exact (hs.archWrite hc ha v).congr ⟨rfl, rfl, rfl, rfl, rfl⟩
  · exact hs.congr ⟨rfl, rfl, rfl, rfl, rfl⟩

theorem step_memorySideOk {s t : State} (h : step s = .next t) (hs : MemorySideOk s) : MemorySideOk t := by
  obtain ⟨hc, rfl | ⟨f, rfl⟩ | hcycle | ⟨i, hexec⟩⟩ := step_next_cases h
  · exact hs
  · exact hs.congr (s.raise_sameMemorySide f)
  · exact cycle_memorySideOk hc hcycle hs
  · exact exec_memorySideOk hc hexec hs

/-! ### The machine -/

theorem MachineOk.of_memorySide {s : State} (hregisters : RegistersOk s) (hbubbles : BubblesOk s)
    (hlatches : LatchesOk s) (hside : MemorySideOk s) : MachineOk s :=
  ⟨hregisters, hbubbles, hlatches, hside.memory, hside.cache, hside.writeThrough, hside.uncached⟩

/-- Settles O28: register 0, the bubbles, the latches and the memory side are each kept. -/
theorem machineInvariantKept : Obligations.MachineInvariantKept := fun _ _ hs h =>
  MachineOk.of_memorySide ((step_x_zero h).trans hs.registers) (step_bubblesOk h hs.bubbles)
    (step_latchesOk h hs.latches) (step_memorySideOk h hs.memorySide)

/-! ### Reset (R54) -/

/-- R54: every line after reset is invalid, clean and zero. -/
theorem State.line_ofConfig (c : Config) (mem : Memory) (i : Nat) :
    (State.ofConfig c mem).line i = Line.reset c.blockWords := by
  unfold State.line State.ofConfig
  split
  · rw [List.getD_eq_getElem?_getD]
    exact List.getElem?_getD_replicate_default_eq _ c.numLines i
  · rfl

theorem lineOk_reset (c : Config) (mem : Memory) (i : Nat) :
    LineOk (State.ofConfig c mem) i (Line.reset c.blockWords) where
  words := List.length_replicate
  tag := Nat.two_pow_pos _
  inWindow := fun hv => by cases hv
  dirtyIsValid := fun hd => by cases hd
  clean := fun hv => by cases hv
  noEntry := fun _ he => by cases he

theorem ofConfig_memorySideOk {c : Config} {mem : Memory} (hwf : mem.Wf) (hwithin : mem.Within c.memSize) :
    MemorySideOk (State.ofConfig c mem) where
  memory := ⟨hwf, hwithin⟩
  cache := fun hon => by
    have hlines : (State.ofConfig c mem).lines = List.replicate c.numLines (Line.reset c.blockWords) :=
      if_pos (c.cached_eq_true_iff.mp hon)
    refine (cacheOk_iff _).mpr ⟨by rw [hlines]; exact List.length_replicate, fun i _ => ?_, fun hact => (by cases hact),
      fun _ he => (by cases he), Nat.zero_le _⟩
    rw [State.line_ofConfig]
    exact lineOk_reset c mem i
  writeThrough := fun _ => by
    refine ⟨fun l hl => ?_, rfl⟩
    simp only [State.ofConfig] at hl
    split at hl
    · rw [List.eq_of_mem_replicate hl]; rfl
    · cases hl
  uncached := fun hoff => by
    have hmode : ¬ c.cacheMode = .data := fun hdata => by
      exact Bool.noConfusion (hoff.symm.trans (c.cached_eq_true_iff.mpr hdata))
    exact ⟨if_neg hmode, rfl, rfl⟩

/-- R54: the machine after reset, whatever its registers, has the invariant when its memory is in order. -/
theorem ofConfig_machineOk {c : Config} {mem : Memory} (hwf : mem.Wf) (hwithin : mem.Within c.memSize) :
    MachineOk (State.ofConfig c mem) := by
  refine MachineOk.of_memorySide ?_ ?_ ?_ (ofConfig_memorySideOk hwf hwithin)
  · exact Vector.getElem_append_left (by decide)
  · exact ⟨fun _ => rfl, fun _ => rfl, fun _ => rfl, fun _ => rfl⟩
  · exact ⟨rfl, Latch.bubble_decoded, ⟨rfl, rfl⟩, Latch.bubble_decoded, rfl, Latch.bubble_decoded⟩

/-- Settles O27, for every loaded memory and for the empty one of `State.reset`. -/
theorem resetSatisfiesInvariant : Obligations.ResetSatisfiesInvariant :=
  ⟨fun _ _ _ hwf hwithin => ofConfig_machineOk hwf hwithin, ofConfig_machineOk Memory.nil_wf (Memory.nil_within _)⟩

end Sys2Proof.Machine
end

section
/-! O58: the uncached path (spec/20_memory.md R92). -/

namespace Sys2Proof.Machine

open Sys2Proof

/-- R14: the cache is off exactly when it is not the data cache. -/
theorem cached_eq_false_of_disabled {c : Config} (h : c.cacheMode = .disabled) : c.cached = false := by
  simp [Config.cached, h]

/-- R92: with the cache off the memory side is the uncached path, for every request. -/
theorem memorySide_of_uncached {s : State} (hoff : s.cfg.cached = false) (req : Request) :
    memorySide s req = .ok (uncachedCycle s req) := by
  simp [memorySide, hoff]

/-- R76, R92: with the cache off `ArchMem` is the backing store. -/
theorem State.archRead_of_uncached {s : State} (hoff : s.cfg.cached = false) (a : Word) :
    s.archRead a = s.backRead a := by
  simp [State.archRead, hoff]

/-- R75, R92: with the cache off a write of `ArchMem` goes to the backing store. -/
theorem State.archWrite_of_uncached {s : State} (hoff : s.cfg.cached = false) (a v : Word) :
    s.archWrite a v = s.backWrite a v := by
  simp [State.archWrite, hoff]

/-- R92: the uncached path never misses. -/
theorem uncachedCycle_ne_miss (s : State) (req : Request) : (uncachedCycle s req).2 ≠ .miss := by
  cases req <;> simp [uncachedCycle]

/-- Settles O58, from what the uncached path does with each request. -/
theorem uncachedPath : Obligations.UncachedPath := by
  intro s a v hmode
  have hoff := cached_eq_false_of_disabled hmode
  refine ⟨memorySide_of_uncached hoff _, memorySide_of_uncached hoff _, State.archRead_of_uncached hoff a, ?_⟩
  intro req t ht
  rw [memorySide_of_uncached hoff, Except.ok.injEq] at ht
  exact uncachedCycle_ne_miss s req (by rw [ht])

end Sys2Proof.Machine
end

section
/-! O46: everything the memory side does with an address depends on its word alone (spec/20_memory.md R73;
spec/47_cache_controller.md R292). -/

namespace Sys2Proof.Machine

open Sys2Proof

/-! ### The operations at two addresses of one word -/

/-- R73, R77: the backing store reads words. -/
theorem State.backRead_congr_word (s : State) {a b : Word} (hab : wordIndex a = wordIndex b) :
    s.backRead a = s.backRead b := by
  rw [State.backRead, State.backRead, hab]

/-- R73, R78: the backing store writes words. -/
theorem State.backWrite_congr_word (s : State) {a b : Word} (hab : wordIndex a = wordIndex b) (v : Word) :
    s.backWrite a v = s.backWrite b v := by
  rw [State.backWrite, State.backWrite, hab]

section SameWord

variable {s : State} (hg : s.cfg.CacheShape) {a b : Word} (hab : wordIndex a = wordIndex b)

include hg hab

/-- R294: the addresses of one word lie in one block. -/
theorem blockBase_congr_word : s.cfg.blockBase a = s.cfg.blockBase b := by
  obtain ⟨htag, hindex, -⟩ := hg.fields_congr hab
  rw [hg.blockBase_eq_lineAddr, hg.blockBase_eq_lineAddr, htag, hindex]

/-- R300: the addresses of one word are looked up alike. -/
theorem State.hitLine_congr_word : s.hitLine a = s.hitLine b := by
  obtain ⟨htag, hindex, hoffset⟩ := hg.fields_congr hab
  have hready : s.wordReady a = s.wordReady b := by rw [State.wordReady, State.wordReady, hindex, hoffset]
  ext l
  rw [State.hitLine_eq_some, State.hitLine_eq_some, htag, hindex, hready]

theorem classify_congr_word : classify s a = classify s b := by
  rw [classify, classify, State.hitLine_congr_word hg hab]

/-- R302, R303: a write hit stores a word. -/
theorem State.storeHit_congr_word (l : Line) (v : Word) : s.storeHit a l v = s.storeHit b l v := by
  obtain ⟨-, hindex, hoffset⟩ := hg.fields_congr hab
  simp only [State.storeHit, hindex, hoffset, hab]

/-- R306: the addresses of one word start one fill. -/
theorem startFill_congr_word (victim : Line) : startFill s a victim = startFill s b victim := by
  obtain ⟨htag, hindex, -⟩ := hg.fields_congr hab
  simp only [startFill, Fill.start, htag, hindex, blockBase_congr_word hg hab]

/-- R298: an access whose line exists depends on the word alone; only the fault of a missing line (R295) records the
address. -/
theorem access_congr_word (hline : s.cfg.index a < s.lines.length) (store : Option Word) :
    access s a store = access s b store := by
  obtain ⟨-, hindex, hoffset⟩ := hg.fields_congr hab
  have hget := State.lines_getElem?_of_lt hline
  simp only [access, ← hindex, hget, ← hoffset, classify_congr_word hg hab, State.storeHit_congr_word hg hab,
    startFill_congr_word hg hab]

/-- R76: the addresses of one word read one word of `ArchMem`. -/
theorem State.archRead_congr_word_of_cached : s.archRead a = s.archRead b := by
  obtain ⟨-, -, hoffset⟩ := hg.fields_congr hab
  simp only [State.archRead, State.hitLine_congr_word hg hab, hoffset, blockBase_congr_word hg hab,
    s.backRead_congr_word hab]

/-- R75: the addresses of one word write one word of `ArchMem`. -/
theorem State.archWrite_congr_word_of_cached (v : Word) : s.archWrite a v = s.archWrite b v := by
  obtain ⟨-, -, hoffset⟩ := hg.fields_congr hab
  simp only [State.archWrite, State.hitLine_congr_word hg hab, hoffset, blockBase_congr_word hg hab,
    State.storeHit_congr_word hg hab, s.backWrite_congr_word hab]

end SameWord

/-! ### The state between the fill tick and the lookup (R298) -/

/-- R298 steps 1 and 2: drain and fill tick keep the parameters and the invariants, and leave no buffered entry. -/
theorem MemorySideOk.ticked {s m : State} (hc : s.cfg.check = none) (hon : s.cfg.cached = true) (h : MemorySideOk s)
    (hm : Machine.fillTick (Machine.drainOne s) = .ok m) : m.cfg = s.cfg ∧ MemorySideOk m ∧ m.wbuf = [] := by
  have hcfg := drainOne_cfg s
  refine ⟨by rw [fillTick_frame hm]; exact hcfg, ?_⟩
  exact (h.drainOne hc hon).fillTick (hcfg ▸ hc) (hcfg ▸ hon) (h.drainOne_wbuf hon) hm

/-- R295: from the invariant the line of every address exists. -/
theorem CacheOk.index_lt {s : State} (h : CacheOk s) (hg : s.cfg.CacheShape) (a : Word) :
    s.cfg.index a < s.lines.length :=
  h.lineCount ▸ hg.index_lt a

/-- R298: the controller's cycle does to two requests what its lookup does to them. -/
theorem cacheCycle_congr {s : State} {req req' : Request}
    (h : ∀ m, fillTick (drainOne s) = .ok m → lookup m req = lookup m req') : cacheCycle s req = cacheCycle s req' := by
  unfold cacheCycle
  cases hm : fillTick (drainOne s) with
  | error f => rfl
  | ok m => exact h m hm

/-! ### Either path -/

section EitherPath

variable {s : State} (hc : s.cfg.check = none) (h : MemorySideOk s) {a b : Word} (hab : wordIndex a = wordIndex b)

include hc hab

theorem State.archRead_congr_word : s.archRead a = s.archRead b := by
  cases hon : s.cfg.cached with
  | true => exact State.archRead_congr_word_of_cached (Config.cacheShape_of_check hc hon) hab
  | false =>
    rw [State.archRead_of_uncached hon, State.archRead_of_uncached hon, s.backRead_congr_word hab]

theorem State.archWrite_congr_word (v : Word) : s.archWrite a v = s.archWrite b v := by
  cases hon : s.cfg.cached with
  | true => exact State.archWrite_congr_word_of_cached (Config.cacheShape_of_check hc hon) hab v
  | false =>
    rw [State.archWrite_of_uncached hon, State.archWrite_of_uncached hon, s.backWrite_congr_word hab]

include h

/-- R298: the lookup of the controller's cycle, at two addresses of one word. -/
theorem access_congr_word_of_ticked (hon : s.cfg.cached = true) {m : State} (hm : fillTick (drainOne s) = .ok m)
    (store : Option Word) : access m a store = access m b store := by
  obtain ⟨hcfg, hmOk, -⟩ := h.ticked hc hon hm
  have hg : m.cfg.CacheShape := Config.cacheShape_of_check (hcfg ▸ hc) (hcfg ▸ hon)
  exact access_congr_word hg hab ((hmOk.cache (hcfg ▸ hon)).index_lt hg a) store

theorem memorySide_read_congr_word : memorySide s (.read a) = memorySide s (.read b) := by
  cases hon : s.cfg.cached with
  | true =>
    simp only [memorySide, hon, if_true]
    exact cacheCycle_congr fun m hm => access_congr_word_of_ticked hc h hab hon hm none
  | false => simp only [memorySide_of_uncached hon, uncachedCycle, s.backRead_congr_word hab]

theorem memorySide_write_congr_word (v : Word) : memorySide s (.write a v) = memorySide s (.write b v) := by
  cases hon : s.cfg.cached with
  | true =>
    simp only [memorySide, hon, if_true]
    exact cacheCycle_congr fun m hm => access_congr_word_of_ticked hc h hab hon hm (some v)
  | false => simp only [memorySide_of_uncached hon, uncachedCycle, s.backWrite_congr_word hab v]

end EitherPath

/-- Settles O46: the fields of an address (R292) and its word index are all that the memory side reads of it. -/
theorem lowAddressBitsIgnored : Obligations.LowAddressBitsIgnored := by
  intro s a b v hc hs hab
  exact ⟨State.archRead_congr_word hc hab, State.archWrite_congr_word hc hab v, s.backRead_congr_word hab,
    memorySide_read_congr_word hc hs.memorySide hab, memorySide_write_congr_word hc hs.memorySide hab v⟩

end Sys2Proof.Machine
end

section
/-! O54: what each operation of the memory side does to `ArchMem` (spec/20_memory.md R76, R86; spec/47_cache_controller.md
R302 to R312; spec/48_write_buffer.md R343, R345). -/

namespace Sys2Proof.Machine

open Sys2Proof

/-! ### The lookup after a change of one line -/

/-- R300: a lookup reads the line of its index and the words of it that are real. -/
theorem State.hitLine_congr {s t : State} {a : Word} (hcfg : t.cfg = s.cfg)
    (hget : t.lines[s.cfg.index a]? = s.lines[s.cfg.index a]?)
    (hready : t.landed (s.cfg.index a) (s.cfg.offset a) = s.landed (s.cfg.index a) (s.cfg.offset a)) :
    t.hitLine a = s.hitLine a := by
  have hword : t.wordReady a = s.wordReady a := by
    rw [State.wordReady, hcfg]
    exact hready
  ext l
  rw [State.hitLine_eq_some, State.hitLine_eq_some, hcfg, hget, hword]

/-- R300: a lookup in the line of the address. -/
theorem State.hitLine_of_getElem? {s : State} {l : Line} {a : Word} (hget : s.lines[s.cfg.index a]? = some l) :
    s.hitLine a =
      if l.valid = true ∧ l.tag = s.cfg.tag a ∧ s.landed (s.cfg.index a) (s.cfg.offset a) = true then some l else none := by
  ext m
  rw [State.hitLine_eq_some, hget, Option.some.injEq, Option.ite_none_right_eq_some, Option.some.injEq]
  constructor
  · rintro ⟨rfl, hhit⟩
    exact ⟨hhit, rfl⟩
  · rintro ⟨hhit, rfl⟩
    exact ⟨rfl, hhit⟩

/-- R300: a lookup in a line that was just replaced. -/
theorem State.hitLine_of_set {s t : State} {j : Nat} {l : Line} {a : Word} (hcfg : t.cfg = s.cfg)
    (hset : t.lines = s.lines.set j l) (hj : j < s.lines.length) (ha : s.cfg.index a = j) :
    t.hitLine a =
      if l.valid = true ∧ l.tag = s.cfg.tag a ∧ t.landed j (s.cfg.offset a) = true then some l else none := by
  rw [State.hitLine_of_getElem? (l := l) (by rw [hset, hcfg, ha, List.getElem?_set_self hj]), hcfg, ha]

/-- R300: with no fill active every word of a line is real. -/
theorem State.landed_of_idle {s : State} (h : s.fill.active = false) (i k : Nat) : s.landed i k = true := by
  simp [State.landed, h]

/-- R300: in the line of an active fill the words landed so far are real. -/
theorem State.landed_fill_idx {s : State} (h : s.fill.active = true) (k : Nat) :
    s.landed s.fill.idx k = true ↔ k < s.fill.word := by
  simp [State.landed, h]

/-- R300, R312: after a landing the new word of the line is real too, and nothing else of its block. -/
theorem State.landed_afterLanding {t : State} {c : Config} {f : Fill} {k : Nat} (hfill : t.fill = f.afterLanding c)
    (hact : f.active = true) (hk : k < c.blockWords) : t.landed f.idx k = true ↔ k < f.word + 1 := by
  refine ⟨State.lt_of_landed_afterLanding hfill hact hk, fun hlt => ?_⟩
  simp [State.landed, hfill, hlt]

/-! ### Where `ArchMem` reads a word (R76) -/

section ArchRead

variable {s : State} (hon : s.cfg.cached = true) {a : Word}

include hon

theorem State.archRead_of_hit {l : Line} (hhit : s.hitLine a = some l) :
    s.archRead a = wordAt l.data (s.cfg.offset a) := by
  simp [State.archRead, hon, hhit]

theorem State.archRead_of_entry {e : WbEntry} (hmiss : s.hitLine a = none)
    (he : newestEntry s.wbuf (s.cfg.blockBase a) = some e) : s.archRead a = wordAt e.data (s.cfg.offset a) := by
  simp [State.archRead, hon, hmiss, he]

theorem State.archRead_of_no_entry (hmiss : s.hitLine a = none) (he : ∀ e ∈ s.wbuf, e.addr ≠ s.cfg.blockBase a) :
    s.archRead a = s.backRead a := by
  simp [State.archRead, hon, hmiss, newestEntry_eq_none.mpr he]

theorem State.archRead_of_empty (hmiss : s.hitLine a = none) (hempty : s.wbuf = []) : s.archRead a = s.backRead a :=
  State.archRead_of_no_entry hon hmiss (by simp [hempty])

/-- R76: a word looked up alike, and elsewhere buffered and stored alike, is read alike. -/
theorem State.archRead_congr {t : State} (hcfg : t.cfg = s.cfg) (hhit : t.hitLine a = s.hitLine a)
    (hentry : s.hitLine a = none → newestEntry t.wbuf (s.cfg.blockBase a) = newestEntry s.wbuf (s.cfg.blockBase a))
    (hback : s.hitLine a = none → t.backRead a = s.backRead a) : t.archRead a = s.archRead a := by
  cases hl : s.hitLine a with
  | some l => rw [State.archRead_of_hit (hcfg ▸ hon) (hhit.trans hl), State.archRead_of_hit hon hl, hcfg]
  | none => simp only [State.archRead, hcfg, hhit, hl, hentry hl, hback hl]

end ArchRead

/-! ### A block of words (R343) -/

/-- The words of a block whose addresses name different words are read back after the block is written. -/
theorem State.backRead_writeBlock_word (s : State) (a b : Word) (vs : List Word) (hs : s.back.Wf)
    (hinj : ∀ i < vs.length, ∀ j < vs.length,
      wordIndex (a + BitVec.ofNat 32 (4 * i)) = wordIndex (a + BitVec.ofNat 32 (4 * j)) → i = j)
    {k : Nat} (hk : k < vs.length) (hb : wordIndex b = wordIndex (a + BitVec.ofNat 32 (4 * k))) :
    (s.writeBlock a vs).backRead b = wordAt vs k := by
  induction vs generalizing s a k with
  | nil => simp at hk
  | cons v vs ih =>
    rw [State.writeBlock]
    cases k with
    | zero =>
      rw [State.backRead_writeBlock_other _ _ _ _ (s.backWrite_wf a v hs), s.backRead_backWrite _ _ _ hs, if_pos]
      · rfl
      · simpa using hb
      · intro j hj hw
        rw [word_add_four_add] at hw
        have := hinj 0 (by simp) (j + 1) (by simpa using hj) (hb.symm.trans hw)
        omega
    | succ k =>
      rw [ih (s.backWrite a v) (a + 4) (s.backWrite_wf a v hs) (fun i hi j hj hij => ?_) (k := k) (by simpa using hk)]
      · rfl
      · rw [word_add_four_add]
        exact hb
      · rw [word_add_four_add, word_add_four_add] at hij
        have := hinj (i + 1) (by simpa using hi) (j + 1) (by simpa using hj) hij
        omega

/-- R294: the base of a block names its tag and its line. -/
theorem lineAddr_eq_blockBase_iff {c : Config} (hg : c.CacheShape) {t i : Nat} (ht : t < 2 ^ c.tagBits)
    (hi : i < c.numLines) (a : Word) : c.lineAddr t i = c.blockBase a ↔ t = c.tag a ∧ i = c.index a := by
  rw [hg.blockBase_eq_lineAddr]
  constructor
  · intro hbase
    have hfirst : c.wordAddr t i 0 = c.wordAddr (c.tag a) (c.index a) 0 := by
      rw [Config.wordAddr, hbase, Config.wordAddr]
    constructor
    · rw [← hg.tag_wordAddr ht hi hg.blockWords_pos, hfirst,
        hg.tag_wordAddr (c.tag_lt a) (hg.index_lt a) hg.blockWords_pos]
    · rw [← hg.index_wordAddr ht hi hg.blockWords_pos, hfirst,
        hg.index_wordAddr (c.tag_lt a) (hg.index_lt a) hg.blockWords_pos]
  · rintro ⟨rfl, rfl⟩
    rfl

/-- R292: two addresses are of one word exactly when their fields agree. -/
theorem wordIndex_eq_iff {c : Config} (hg : c.CacheShape) (a b : Word) :
    wordIndex a = wordIndex b ↔ c.tag a = c.tag b ∧ c.index a = c.index b ∧ c.offset a = c.offset b := by
  rw [← hg.wordIndex_wordAddr_fields a,
    hg.wordIndex_wordAddr_eq_iff (c.tag_lt a) (hg.index_lt a) (hg.offset_lt a)]

section Entry

variable {s : State} (hg : s.cfg.CacheShape) {e : WbEntry} (he : EntryOk s.cfg e) {a : Word}

include hg he

/-- R307: the block of a buffered line. -/
theorem EntryOk.addr_eq_blockBase_iff :
    e.addr = s.cfg.blockBase a ↔ e.tag = s.cfg.tag a ∧ e.idx = s.cfg.index a := by
  rw [he.addr, lineAddr_eq_blockBase_iff hg he.tag he.idx]

/-- R343: the drain of an entry puts each word of its block where the entry had it. -/
theorem EntryOk.backRead_writeBlock_of_block (hwf : s.back.Wf) (ha : e.addr = s.cfg.blockBase a) :
    (s.writeBlock e.addr e.data).backRead a = wordAt e.data (s.cfg.offset a) := by
  obtain ⟨htag, hidx⟩ := (he.addr_eq_blockBase_iff hg).mp ha
  have hword : ∀ k, e.addr + BitVec.ofNat 32 (4 * k) = s.cfg.wordAddr e.tag e.idx k := fun k => by
    rw [he.addr, Config.wordAddr]
  refine s.backRead_writeBlock_word _ _ _ hwf (fun i hi j hj hij => ?_) (he.data ▸ hg.offset_lt a) ?_
  · rw [he.data] at hi hj
    rw [hword, hword] at hij
    obtain ⟨-, -, hoffset⟩ := hg.fields_congr hij
    rwa [hg.offset_wordAddr he.tag he.idx hi, hg.offset_wordAddr he.tag he.idx hj] at hoffset
  · rw [hword, htag, hidx, hg.wordIndex_wordAddr_fields]

/-- R343: the drain of an entry leaves the words of the other blocks. -/
theorem EntryOk.backRead_writeBlock_of_other_block (hwf : s.back.Wf) (ha : e.addr ≠ s.cfg.blockBase a) :
    (s.writeBlock e.addr e.data).backRead a = s.backRead a := by
  have hword := hg.wordIndex_wordAddr_fields a
  rw [← State.backRead_congr_word _ hword, ← State.backRead_congr_word _ hword]
  refine he.backRead_writeBlock_other hg hwf (s.cfg.tag_lt a) (hg.index_lt a) (hg.offset_lt a) fun ⟨hidx, htag⟩ => ?_
  exact ha ((he.addr_eq_blockBase_iff hg).mpr ⟨htag.symm, hidx⟩)

end Entry

/-! ### The line of a landing (R310) -/

/-- R300, R310: the lookup in the line of a fill, before and after a landing that passed its check. -/
theorem hitLine_landedLine {s t : State} {l : Line} {v a : Word} (hg : s.cfg.CacheShape) (hact : s.fill.active = true)
    (hget : s.lines[s.fill.idx]? = some l) (hcheck : s.fill.word = 0 ∨ (l.valid = true ∧ l.tag = s.fill.tag))
    (hcfg : t.cfg = s.cfg) (hset : t.lines = s.lines.set s.fill.idx (landedLine l s.fill v))
    (hafter : t.fill = (tickedFill s).fill.afterLanding s.cfg) (ha : s.cfg.index a = s.fill.idx) :
    (s.hitLine a = if l.valid = true ∧ l.tag = s.cfg.tag a ∧ s.cfg.offset a < s.fill.word then some l else none) ∧
    (t.hitLine a =
      if s.fill.tag = s.cfg.tag a ∧ s.cfg.offset a < s.fill.word + 1 then some (landedLine l s.fill v) else none) := by
  obtain ⟨hv, htag, -⟩ := landedLine_spec hcheck v
  have hland : t.landed s.fill.idx (s.cfg.offset a) = true ↔ s.cfg.offset a < s.fill.word + 1 :=
    State.landed_afterLanding (f := (tickedFill s).fill) hafter hact (hg.offset_lt a)
  have hbefore := State.hitLine_of_getElem? (s := s) (a := a) (ha ▸ hget)
  have hlater := State.hitLine_of_set hcfg hset (List.getElem?_eq_some_iff.mp hget).1 ha
  simp only [ha, State.landed_fill_idx hact] at hbefore
  simp only [hv, htag, hland, true_and] at hlater
  exact ⟨hbefore, hlater⟩

/-! ### The victim of a fill (R307) -/

section Victim

variable {s : State} (hg : s.cfg.CacheShape) {i : Nat} {victim : Line} {buf : List WbEntry} (hi : i < s.cfg.numLines)
  (hline : LineOk s i victim) (hempty : s.wbuf = []) (hevict : evict s i victim = some buf) {a : Word}

include hg hi hline hempty hevict

/-- R307: an eviction buffers only the block of the victim. -/
theorem LineOk.fields_of_mem_evict {e : WbEntry} (he : e ∈ buf) (ha : e.addr = s.cfg.blockBase a) :
    victim.valid = true ∧ victim.tag = s.cfg.tag a ∧ i = s.cfg.index a := by
  obtain ⟨hv, -, rfl⟩ := (mem_of_evict hempty hevict).2 e he
  obtain ⟨htag, hidx⟩ := ((hline.victimEntry hi hv).addr_eq_blockBase_iff hg).mp ha
  exact ⟨hv, htag, hidx⟩

/-- R307, R317 f: the words of a dirty victim are in the write buffer, those of a clean one are in the backing store. -/
theorem LineOk.victim_word_kept (hidle : s.fill.active = false) (hv : victim.valid = true)
    (htag : victim.tag = s.cfg.tag a) (hidx : i = s.cfg.index a) :
    newestEntry buf (s.cfg.blockBase a) = some (Machine.victimEntry s.cfg i victim) ∨
    (buf = [] ∧ s.backRead a = wordAt victim.data (s.cfg.offset a)) := by
  rcases evict_eq_some.mp hevict with ⟨-, -, -, hbuf⟩ | ⟨hclean, hbuf⟩
  · have hblock := ((hline.victimEntry hi hv).addr_eq_blockBase_iff hg).mpr ⟨htag, hidx⟩
    exact .inl (by simp [hbuf, hempty, newestEntry, hblock])
  · refine .inr ⟨hbuf.trans hempty, ?_⟩
    rw [hline.clean hv (by simpa [hv] using hclean) _ (hg.offset_lt a) (State.landed_of_idle hidle _ _), htag, hidx]
    exact (s.backRead_congr_word (hg.wordIndex_wordAddr_fields a)).symm

end Victim

/-! ### The line of a write hit (R302, R303) -/

/-- R302, R303: under either policy a write hit replaces its line by one of the same block with the word stored. -/
theorem State.storeHit_lines (s : State) (a : Word) (l : Line) (v : Word) :
    ∃ l' : Line, (s.storeHit a l v).lines = s.lines.set (s.cfg.index a) l' ∧ l'.valid = l.valid ∧ l'.tag = l.tag ∧
      l'.data = l.data.set (s.cfg.offset a) v := by
  cases hp : s.cfg.writePolicy with
  | writeBack =>
    refine ⟨{ l with data := l.data.set (s.cfg.offset a) v, dirty := true }, ?_, rfl, rfl, rfl⟩
    rw [State.storeHit_writeBack hp]
  | writeThrough =>
    refine ⟨{ l with data := l.data.set (s.cfg.offset a) v }, ?_, rfl, rfl, rfl⟩
    rw [State.storeHit_writeThrough hp]

/-- R302, R303: under either policy a write hit leaves every other word of the backing store. -/
theorem State.backRead_storeHit_other (s : State) {a b : Word} (l : Line) (v : Word) (hwf : s.back.Wf)
    (hne : wordIndex b ≠ wordIndex a) : (s.storeHit a l v).backRead b = s.backRead b := by
  cases hp : s.cfg.writePolicy with
  | writeBack => exact State.backRead_congr (by simp) (by rw [State.storeHit_writeBack hp]) b
  | writeThrough =>
    calc (s.storeHit a l v).backRead b
        = (s.backWrite a v).backRead b := State.backRead_congr (by simp) (by rw [State.storeHit_writeThrough hp]) b
      _ = s.backRead b := by rw [s.backRead_backWrite a b v hwf, if_neg hne]

/-! ### The operations -/

section Operations

variable {s : State} (hc : s.cfg.check = none) (hon : s.cfg.cached = true) (h : MemorySideOk s)

include hc hon h

/-- R343, R345: no line holds a buffered block, so `ArchMem` reads its words from the entry before the drain, and from the
backing store, where the drain puts them, after it. -/
theorem MemorySideOk.drainOne_archRead (a : Word) : (Machine.drainOne s).archRead a = s.archRead a := by
  have hg := Config.cacheShape_of_check hc hon
  have hempty := h.drainOne_wbuf hon
  rcases drainOne_cases s with ⟨-, he⟩ | ⟨e, rest, hbuf, he⟩
  · rw [he]
  obtain rfl : rest = [] := by rw [he] at hempty; exact hempty
  have hentry := (h.cache hon).entries e (hbuf ▸ List.mem_cons_self)
  have hcfg := drainOne_cfg s
  have hhit : (Machine.drainOne s).hitLine a = s.hitLine a := by
    rw [drainOne_frame]
    exact State.hitLine_congr rfl rfl rfl
  have hback : (Machine.drainOne s).backRead a = (s.writeBlock e.addr e.data).backRead a := by
    rw [he]
    exact State.backRead_congr rfl rfl a
  cases hl : s.hitLine a with
  | some l =>
    rw [State.archRead_of_hit (hcfg ▸ hon) (hhit.trans hl), State.archRead_of_hit hon hl, hcfg]
  | none =>
    rw [State.archRead_of_empty (hcfg ▸ hon) (hhit.trans hl) hempty, hback]
    by_cases hblock : e.addr = s.cfg.blockBase a
    · rw [hentry.backRead_writeBlock_of_block hg h.memory.wf hblock]
      exact (State.archRead_of_entry hon hl (by simp [hbuf, newestEntry, hblock])).symm
    · rw [hentry.backRead_writeBlock_of_other_block hg h.memory.wf hblock]
      exact (State.archRead_of_no_entry hon hl (by simpa [hbuf] using hblock)).symm

/-- R300, R310: a landing makes one more word of its line real, the word that the backing store has; a word of the line that
was real before keeps its place and its value. -/
theorem MemorySideOk.landWord_archRead {t : State} (hact : s.fill.active = true) (hempty : s.wbuf = [])
    (ht : Machine.landWord (Machine.tickedFill s) = .ok t) (a : Word) : t.archRead a = s.archRead a := by
  have hg := Config.cacheShape_of_check hc hon
  have hf := (h.cache hon).fill hact
  obtain ⟨l, hget, hcheck, ht⟩ := landWord_tickedFill ht
  have hcfg : t.cfg = s.cfg := by rw [ht]
  have hset : t.lines = s.lines.set s.fill.idx (landedLine l s.fill (s.backRead s.fill.nextAddr)) := by rw [ht]
  have hafter : t.fill = (Machine.tickedFill s).fill.afterLanding s.cfg := by rw [ht]
  have hwbuf : t.wbuf = s.wbuf := by rw [ht]
  have hback : t.backRead a = s.backRead a := State.backRead_congr hcfg (by rw [ht]) a
  by_cases ha : s.cfg.index a = s.fill.idx
  · obtain ⟨-, -, hdata, -⟩ := landedLine_spec hcheck (s.backRead s.fill.nextAddr)
    obtain ⟨hbefore, hlater⟩ := hitLine_landedLine hg hact hget hcheck hcfg hset hafter ha
    by_cases hhit : s.fill.tag = s.cfg.tag a ∧ s.cfg.offset a < s.fill.word + 1
    · obtain ⟨hsame, hle⟩ := hhit
      have hlen : s.fill.word < l.data.length := by
        obtain ⟨-, hlines, -⟩ := (cacheOk_iff s).mp (h.cache hon)
        rw [← State.line_of_getElem? hget, (hlines _ hf.idx).words]
        exact hf.word
      rw [if_pos ⟨hsame, hle⟩] at hlater
      rw [State.archRead_of_hit (hcfg ▸ hon) hlater, hdata, hcfg, wordAt_set hlen]
      split
      · next hnew =>
        rw [if_neg (by omega)] at hbefore
        rw [State.archRead_of_empty hon hbefore hempty, hf.nextAddr, hsame, ← ha, ← hnew]
        exact s.backRead_congr_word (hg.wordIndex_wordAddr_fields a)
      · next hold =>
        obtain ⟨hlv, hltag⟩ := hcheck.resolve_left (by omega)
        rw [if_pos ⟨hlv, hltag.trans hsame, by omega⟩] at hbefore
        rw [State.archRead_of_hit hon hbefore]
    · have hmiss : ¬ (l.valid = true ∧ l.tag = s.cfg.tag a ∧ s.cfg.offset a < s.fill.word) := by
        rintro ⟨-, hltag, hlt⟩
        obtain ⟨-, hsame⟩ := hcheck.resolve_left (by omega)
        exact hhit ⟨hsame.symm.trans hltag, by omega⟩
      rw [if_neg hhit] at hlater
      rw [if_neg hmiss] at hbefore
      rw [State.archRead_of_empty (hcfg ▸ hon) hlater (hwbuf.trans hempty), State.archRead_of_empty hon hbefore hempty,
        hback]
  · refine State.archRead_congr hon hcfg (State.hitLine_congr hcfg ?_ ?_) (fun _ => by rw [hwbuf]) fun _ => hback
    · rw [hset, List.getElem?_set_ne (Ne.symm ha)]
    · rw [State.landed_of_idx_ne (Ne.symm ha), State.landed_of_idx_ne]
      rw [hafter, Fill.afterLanding_idx]
      exact Ne.symm ha

/-- R310: the counter is no part of `ArchMem`, and a landing leaves it. -/
theorem MemorySideOk.fillTick_archRead {t : State} (hempty : s.wbuf = []) (ht : Machine.fillTick s = .ok t) (a : Word) :
    t.archRead a = s.archRead a := by
  rcases fillTick_cases ht with ⟨-, rfl⟩ | ⟨-, -, rfl⟩ | ⟨hact, -, hland⟩
  · rfl
  · rfl
  · exact h.landWord_archRead hc hon hact hempty hland a

/-- R306, R307, R309: the words of a dirty victim go on being read from the write buffer, those of a clean one from the
backing store, which has them already (R317 f). -/
theorem MemorySideOk.startFill_archRead {b : Word} {victim : Line} (hempty : s.wbuf = []) (hidle : s.fill.active = false)
    (hget : s.lines[s.cfg.index b]? = some victim) (a : Word) :
    (Machine.startFill s b victim).archRead a = s.archRead a := by
  have hg := Config.cacheShape_of_check hc hon
  have hindex := hg.index_lt b
  have hline : LineOk s (s.cfg.index b) victim := by
    obtain ⟨-, hlines, -⟩ := (cacheOk_iff s).mp (h.cache hon)
    exact State.line_of_getElem? hget ▸ hlines _ hindex
  rcases startFill_cases s b victim with ⟨-, he⟩ | ⟨buf, hevict, he⟩
  · rw [he]
  generalize Machine.startFill s b victim = t at he ⊢
  have hcfg : t.cfg = s.cfg := by rw [he]
  have hset : t.lines = s.lines.set (s.cfg.index b) { victim with valid := false, dirty := false } := by rw [he]
  have hwbuf : t.wbuf = buf := by rw [he]
  have hback : t.backRead a = s.backRead a := State.backRead_congr hcfg (by rw [he]) a
  by_cases ha : s.cfg.index a = s.cfg.index b
  · have hmiss : t.hitLine a = none := by
      rw [State.hitLine_of_set hcfg hset (List.getElem?_eq_some_iff.mp hget).1 ha, if_neg (by simp)]
    have hbefore := State.hitLine_of_getElem? (s := s) (a := a) (ha ▸ hget)
    simp only [State.landed_of_idle hidle, and_true] at hbefore
    by_cases hhit : victim.valid = true ∧ victim.tag = s.cfg.tag a
    · rw [if_pos hhit] at hbefore
      obtain ⟨hv, htag⟩ := hhit
      rw [State.archRead_of_hit hon hbefore]
      rcases hline.victim_word_kept hg hindex hempty hevict hidle hv htag ha.symm with hentry | ⟨hbuf, hword⟩
      · rw [State.archRead_of_entry (hcfg ▸ hon) hmiss (by rw [hwbuf, hcfg]; exact hentry), hcfg]
        rfl
      · rw [State.archRead_of_empty (hcfg ▸ hon) hmiss (hwbuf.trans hbuf), hback, hword]
    · rw [if_neg hhit] at hbefore
      rw [State.archRead_of_empty hon hbefore hempty, State.archRead_of_no_entry (hcfg ▸ hon) hmiss, hback]
      intro e hmem hblock
      rw [hwbuf] at hmem
      rw [hcfg] at hblock
      obtain ⟨hv, htag, -⟩ := hline.fields_of_mem_evict hg hindex hempty hevict hmem hblock
      exact hhit ⟨hv, htag⟩
  · refine State.archRead_congr hon hcfg (State.hitLine_congr hcfg ?_ ?_) (fun _ => ?_) fun _ => hback
    · rw [hset, List.getElem?_set_ne (Ne.symm ha)]
    · rw [State.landed_of_idle hidle, State.landed_of_idx_ne]
      rw [he]
      exact Ne.symm ha
    · rw [hwbuf, hempty]
      refine newestEntry_eq_none.mpr fun e hmem hblock => ?_
      obtain ⟨-, -, hidx⟩ := hline.fields_of_mem_evict hg hindex hempty hevict hmem hblock
      exact ha hidx.symm

/-- R302, R303: a write hit changes its word, in the line and under `write_through` in the backing store too. -/
theorem MemorySideOk.storeHit_archRead {a : Word} {l : Line} (hhit : s.hitLine a = some l) (v b : Word) :
    (s.storeHit a l v).archRead b = if wordIndex b = wordIndex a then v else s.archRead b := by
  have hg := Config.cacheShape_of_check hc hon
  obtain ⟨hj, hl, hvalid, htag, hoffset, -⟩ := (h.cache hon).of_hitLine hg hhit
  have hget : s.lines[s.cfg.index a]? = some l := (State.hitLine_eq_some.mp hhit).1
  obtain ⟨l', hset, hvalid', htag', hdata'⟩ := s.storeHit_lines a l v
  have hother : wordIndex b ≠ wordIndex a → (s.storeHit a l v).backRead b = s.backRead b :=
    s.backRead_storeHit_other l v h.memory.wf
  have hcfg : (s.storeHit a l v).cfg = s.cfg := by simp
  have hfill : (s.storeHit a l v).fill = s.fill := by simp
  have hwbuf : (s.storeHit a l v).wbuf = s.wbuf := by simp
  generalize s.storeHit a l v = t at *
  have hland : ∀ i k, t.landed i k = s.landed i k := fun i k => by rw [State.landed, hfill, State.landed]
  by_cases hb : s.cfg.index b = s.cfg.index a
  · have hbefore := State.hitLine_of_getElem? (s := s) (a := b) (hb ▸ hget)
    have hafter := State.hitLine_of_set hcfg hset hj hb
    rw [hb] at hbefore
    rw [hvalid', htag', hland] at hafter
    by_cases hfound : l.valid = true ∧ l.tag = s.cfg.tag b ∧ s.landed (s.cfg.index a) (s.cfg.offset b) = true
    · rw [if_pos hfound] at hbefore hafter
      obtain ⟨-, htag_b, -⟩ := hfound
      have hsame : wordIndex b = wordIndex a ↔ s.cfg.offset b = s.cfg.offset a := by
        simp [wordIndex_eq_iff hg, hb, ← htag, htag_b]
      rw [State.archRead_of_hit (hcfg ▸ hon) hafter, hcfg, hdata', wordAt_set hoffset, State.archRead_of_hit hon hbefore]
      simp only [hsame]
    · rw [if_neg hfound] at hbefore hafter
      have hne : wordIndex b ≠ wordIndex a := fun hw => by
        rw [State.hitLine_congr_word hg hw, hhit] at hbefore
        cases hbefore
      rw [if_neg hne]
      exact State.archRead_congr hon hcfg (hafter.trans hbefore.symm) (fun _ => by rw [hwbuf]) fun _ => hother hne
  · have hne : wordIndex b ≠ wordIndex a := fun hw => by
      obtain ⟨-, hindex, -⟩ := hg.fields_congr hw
      exact hb hindex
    rw [if_neg hne]
    refine State.archRead_congr hon hcfg (State.hitLine_congr hcfg ?_ (hland _ _)) (fun _ => by rw [hwbuf]) ?_
    · rw [hset, List.getElem?_set_ne (Ne.symm hb)]
    · exact fun _ => hother hne

/-- R298 steps 3 and 4, in a drained cycle: a write that hits sets its word of `ArchMem`, every other access leaves it. -/
theorem MemorySideOk.access_archRead {a : Word} {store : Option Word} {t : State} {ans : Answer} (hempty : s.wbuf = [])
    (ht : Machine.access s a store = .ok (t, ans)) :
    (∃ v, store = some v ∧ ans = .hit v ∧ ∀ b, t.archRead b = if wordIndex b = wordIndex a then v else s.archRead b) ∨
    ((store = none ∨ ans = .miss) ∧ ∀ b, t.archRead b = s.archRead b) := by
  obtain ⟨victim, hget, hcases⟩ := access_cases ht
  rcases hcases with ⟨l, -, hs, rfl, -⟩ | ⟨l, v, hhit, hs, rfl, hans⟩ | ⟨-, -, rfl, hans⟩ | ⟨-, hidle, rfl, hans⟩
  · exact .inr ⟨.inl hs, fun _ => rfl⟩
  · exact .inl ⟨v, hs, hans, h.storeHit_archRead hc hon hhit v⟩
  · exact .inr ⟨.inr hans, fun _ => rfl⟩
  · exact .inr ⟨.inr hans, h.startFill_archRead hc hon hempty hidle hget⟩

/-- R298 steps 1 and 2: drain and fill tick leave `ArchMem`. -/
theorem MemorySideOk.ticked_archRead {m : State} (hm : Machine.fillTick (Machine.drainOne s) = .ok m) (a : Word) :
    m.archRead a = s.archRead a := by
  have hcfg := drainOne_cfg s
  calc m.archRead a
      = (Machine.drainOne s).archRead a :=
        (h.drainOne hc hon).fillTick_archRead (hcfg ▸ hc) (hcfg ▸ hon) (h.drainOne_wbuf hon) hm a
    _ = s.archRead a := h.drainOne_archRead hc hon a

end Operations

/-! ### The memory side of a cycle -/

/-- R76, R86: what a cycle of the memory side does to `ArchMem`. A write that hits sets its word; a miss, a read and a cycle
without a request leave every word. -/
def ArchMemEffect (s t : State) (req : Request) (ans : Answer) : Prop :=
  (∃ a v, req = .write a v ∧ ans = .hit v ∧
    ∀ b, t.archRead b = if wordIndex b = wordIndex a then v else s.archRead b) ∨
  ((ans = .miss ∨ ∀ a v, req ≠ .write a v) ∧ ∀ b, t.archRead b = s.archRead b)

/-- R298: a write that hits sets its word of `ArchMem`; in every other cycle the controller leaves `ArchMem`. -/
theorem MemorySideOk.cacheCycle_archRead {s t : State} {req : Request} {ans : Answer} (hc : s.cfg.check = none)
    (hon : s.cfg.cached = true) (h : MemorySideOk s) (ht : Machine.cacheCycle s req = .ok (t, ans)) :
    ArchMemEffect s t req ans := by
  obtain ⟨m, hm, hcases⟩ := cacheCycle_cases ht
  obtain ⟨hcfg, hmOk, hempty⟩ := h.ticked hc hon hm
  have hticked := h.ticked_archRead hc hon hm
  rw [← hcfg] at hc hon
  rcases hcases with ⟨rfl, rfl, -⟩ | ⟨a, rfl, hacc⟩ | ⟨a, v, rfl, hacc⟩
  · exact .inr ⟨.inr (by simp), hticked⟩
  · obtain ⟨w, hw, -⟩ | ⟨-, hkept⟩ := hmOk.access_archRead hc hon hempty hacc
    · cases hw
    · exact .inr ⟨.inr (by simp), fun b => (hkept b).trans (hticked b)⟩
  · obtain ⟨w, hw, hans, hset⟩ | ⟨hno, hkept⟩ := hmOk.access_archRead hc hon hempty hacc
    · cases hw
      exact .inl ⟨a, v, rfl, hans, fun b => by rw [hset b, hticked b]⟩
    · exact .inr ⟨.inl (hno.resolve_left (by simp)), fun b => (hkept b).trans (hticked b)⟩

/-- R92, R298: a write that hits sets its word of `ArchMem`; in every other cycle the memory side leaves `ArchMem`. -/
theorem MemorySideOk.memorySide_archRead {s t : State} {req : Request} {ans : Answer} (hc : s.cfg.check = none)
    (h : MemorySideOk s) (ht : Machine.memorySide s req = .ok (t, ans)) :
    ArchMemEffect s t req ans := by
  rcases memorySide_cases ht with ⟨hon, hcycle⟩ | ⟨hoff, ⟨rfl, rfl, -⟩ | ⟨a, rfl, rfl, -⟩ | ⟨a, v, rfl, rfl, rfl⟩⟩
  · exact h.cacheCycle_archRead hc hon hcycle
  · exact .inr ⟨.inr (by simp), fun _ => rfl⟩
  · exact .inr ⟨.inr (by simp), fun _ => rfl⟩
  · refine .inl ⟨a, v, rfl, rfl, fun b => ?_⟩
    rw [State.archRead_of_uncached (by exact hoff), State.archRead_of_uncached hoff,
      s.backRead_backWrite a b v h.memory.wf]

/-- Settles O54: each step of the controller's cycle but a write hit moves words between the places that `ArchMem` reads
(R76) and changes none. -/
theorem archMemChangesOnlyByWriteHits : Obligations.ArchMemChangesOnlyByWriteHits := by
  intro s t req ans hc hs _ ht
  obtain ⟨a, v, rfl, rfl, hset⟩ | ⟨hno, hkept⟩ := hs.memorySide.memorySide_archRead hc ht
  · refine ⟨fun a' v' hreq _ => ?_, fun hno => ?_⟩
    · cases hreq
      exact hset
    · rcases hno with hmiss | hread
      · cases hmiss
      · exact absurd rfl (hread a v)
  · refine ⟨fun a v hreq hhit => ?_, fun _ => hkept⟩
    obtain ⟨d, rfl⟩ := hhit
    rcases hno with hmiss | hread
    · cases hmiss
    · exact absurd hreq (hread a v)

end Sys2Proof.Machine
end

section
/-! The encoding as a bijection between words and instructions (spec/30_encoding.md R100 to R103, R111, R112, R117): the
fields of a word make the word again, the two maps of the decoder undo the encoder, and the bytes of a word make the word. -/

namespace Sys2Proof

/-! ### A word from its fields (R101 to R103) -/

section Fields

variable {w : Word}

theorem encodeR_fields (h : opcodeOf w = 0) : encodeR (rsOf w) (rtOf w) (rdOf w) (shamtOf w) (functOf w) = w := by
  have hop := congrArg BitVec.toNat h
  have hw := w.isLt
  apply BitVec.eq_of_toNat_eq
  simp only [opcodeOf, rsOf, rtOf, rdOf, shamtOf, functOf, encodeR_toNat, BitVec.extractLsb'_toNat,
    Nat.shiftRight_eq_div_pow, BitVec.ofNat_eq_ofNat, BitVec.toNat_ofNat] at hop ⊢
  omega

theorem encodeI_fields : encodeI (opcodeOf w) (rsOf w) (rtOf w) (imm16Of w) = w := by
  have hw := w.isLt
  apply BitVec.eq_of_toNat_eq
  simp only [opcodeOf, rsOf, rtOf, imm16Of, encodeI_toNat, BitVec.extractLsb'_toNat, Nat.shiftRight_eq_div_pow]
  omega

theorem encodeJ_fields (h : opcodeOf w = 2) : encodeJ (jaddrOf w) = w := by
  have hop := congrArg BitVec.toNat h
  have hw := w.isLt
  apply BitVec.eq_of_toNat_eq
  simp only [opcodeOf, jaddrOf, encodeJ_toNat, BitVec.extractLsb'_toNat, Nat.shiftRight_eq_div_pow,
    BitVec.ofNat_eq_ofNat, BitVec.toNat_ofNat] at hop ⊢
  omega

end Fields

/-! ### What the decoder answers (R108) -/

/-- The key is `funct` under opcode 0 and the opcode otherwise (R108). -/
theorem decode_eq_ok_iff {w : Word} {i : Instr} : decode w = .ok i ↔
    (opcodeOf w = 0 ∧ decodeFunct (rsOf w) (rtOf w) (rdOf w) (shamtOf w) (functOf w) = some i) ∨
    (opcodeOf w ≠ 0 ∧ decodeOpcode (opcodeOf w) (rsOf w) (rtOf w) (imm16Of w) (jaddrOf w) = some i) := by
  unfold decode
  by_cases h : opcodeOf w = 0#6
  · cases decodeFunct (rsOf w) (rtOf w) (rdOf w) (shamtOf w) (functOf w) <;> simp [h]
  · cases decodeOpcode (opcodeOf w) (rsOf w) (rtOf w) (imm16Of w) (jaddrOf w) <;> simp [h]

theorem decode_illegal_iff {w : Word} : (∀ i, decode w ≠ .ok i) ↔
    (opcodeOf w = 0 ∧ decodeFunct (rsOf w) (rtOf w) (rdOf w) (shamtOf w) (functOf w) = none) ∨
    (opcodeOf w ≠ 0 ∧ decodeOpcode (opcodeOf w) (rsOf w) (rtOf w) (imm16Of w) (jaddrOf w) = none) := by
  by_cases h : opcodeOf w = 0#6 <;> simp [decode_eq_ok_iff, h, Option.eq_none_iff_forall_ne_some]

theorem decode_encodeR {rs rt rd : RegIdx} {shamt : Shamt} {funct : BitVec 6} {i : Instr}
    (h : decodeFunct rs rt rd shamt funct = some i) : decode (encodeR rs rt rd shamt funct) = .ok i :=
  decode_eq_ok_iff.mpr (.inl ⟨by simp, by simpa using h⟩)

theorem decode_encodeI {opcode : BitVec 6} {rs rt : RegIdx} {imm : Imm16} {i : Instr} (hop : opcode ≠ 0)
    (h : ∀ jaddr, decodeOpcode opcode rs rt imm jaddr = some i) : decode (encodeI opcode rs rt imm) = .ok i :=
  decode_eq_ok_iff.mpr (.inr ⟨by simpa using hop, by simpa using h _⟩)

theorem decode_encodeJ (jaddr : JAddr) : decode (encodeJ jaddr) = .ok (.j jaddr) :=
  decode_eq_ok_iff.mpr (.inr ⟨by simp, by rw [opcodeOf_encodeJ, jaddrOf_encodeJ]; rfl⟩)

/-! ### Decoding what was encoded -/

/-- Every row of the two maps (R111, R112) is read back; the sentinel has no row. -/
theorem decode_encode (haltWord : Word) {i : Instr} (h : i ≠ .halt) : decode (encode haltWord i) = .ok i := by
  cases i with
  | sll | srl | sra | jr | add | addu | sub | subu | and | or | xor | nor | slt | sltu => exact decode_encodeR rfl
  | beq | bne | addi | addiu | slti | sltiu | andi | ori | xori | lui | lw | sw =>
    exact decode_encodeI (by decide) fun _ => rfl
  | j jaddr => exact decode_encodeJ jaddr
  | halt => exact absurd rfl h

theorem Instr.wellFormed_iff {haltWord : Word} {i : Instr} :
    i.wellFormed haltWord = true ↔ i = .halt ∨ encode haltWord i ≠ haltWord := by
  simp [Instr.wellFormed]

theorem decodeFetched_encode {haltWord : Word} {i : Instr} (h : i.wellFormed haltWord = true) :
    decodeFetched haltWord (encode haltWord i) = .ok i := by
  by_cases hi : i = .halt
  · subst hi
    exact decodeFetched_haltWord haltWord
  · have hne : encode haltWord i ≠ haltWord := (Instr.wellFormed_iff.mp h).resolve_left hi
    rw [decodeFetched_of_ne hne, decode_encode haltWord hi]

/-- R72: in either byte order a word is made of its four bytes. -/
theorem exists_bytesOfWord (order : ByteOrder) (w : Word) :
    ∃ b0 b1 b2 b3, bytesOfWord order w = [b0, b1, b2, b3] ∧ wordOfBytes order b0 b1 b2 b3 = w := by
  cases order with
  | little => exact ⟨_, _, _, _, rfl, Machine.wordOfBytes_little w⟩
  | big => exact ⟨_, _, _, _, rfl, Machine.wordOfBytes_little w⟩

theorem decodeBytes_bytesOfWord {haltWord w : Word} {i : Instr} (h : decodeFetched haltWord w = .ok i)
    (order : ByteOrder) (rest : List Byte) :
    decodeBytes order haltWord (bytesOfWord order w ++ rest) = .ok (i, rest) := by
  obtain ⟨b0, b1, b2, b3, hbytes, hword⟩ := exists_bytesOfWord order w
  rw [hbytes]
  exact (decodeBytes_eq_ok_iff ..).mpr ⟨by rw [hword, h], rfl⟩

/-- Settles O2: the word by its format's fields, its bytes by the word they make. -/
theorem decodeAfterEncode : Obligations.DecodeAfterEncode := fun _ _ hwf =>
  ⟨decodeFetched_encode hwf, decodeBytes_bytesOfWord (decodeFetched_encode hwf)⟩

/-! ### Encoding what was decoded -/

/-- Every row of the function map (R112) is an R-format word of that `funct`. -/
theorem encode_of_decodeFunct (haltWord : Word) {rs rt rd : RegIdx} {shamt : Shamt} {funct : BitVec 6} {i : Instr}
    (h : decodeFunct rs rt rd shamt funct = some i) : encode haltWord i = encodeR rs rt rd shamt funct := by
  unfold decodeFunct at h
  split at h
  case h_15 => cases h
  all_goals
    next hfunct =>
      obtain rfl := Option.some.inj h
      exact congrArg (encodeR rs rt rd shamt) (BitVec.eq_of_toNat_eq hfunct.symm)

/-- Every row of the opcode map (R111) but `J` is an I-format word of that opcode. -/
theorem encode_of_decodeOpcode (haltWord : Word) {opcode : BitVec 6} {rs rt : RegIdx} {imm : Imm16} {jaddr : JAddr}
    {i : Instr} (h : decodeOpcode opcode rs rt imm jaddr = some i) :
    encode haltWord i = encodeI opcode rs rt imm ∨ (opcode = 2 ∧ encode haltWord i = encodeJ jaddr) := by
  unfold decodeOpcode at h
  split at h
  case h_1 hopcode =>
    obtain rfl := Option.some.inj h
    exact .inr ⟨BitVec.eq_of_toNat_eq hopcode, rfl⟩
  case h_14 => cases h
  all_goals
    next hopcode =>
      obtain rfl := Option.some.inj h
      exact .inl (congrArg (encodeI · rs rt imm) (BitVec.eq_of_toNat_eq hopcode.symm))

theorem encode_of_decode (haltWord : Word) {w : Word} {i : Instr} (h : decode w = .ok i) : encode haltWord i = w := by
  rcases decode_eq_ok_iff.mp h with ⟨hop, hfunct⟩ | ⟨-, hopcode⟩
  · exact (encode_of_decodeFunct haltWord hfunct).trans (encodeR_fields hop)
  · rcases encode_of_decodeOpcode haltWord hopcode with hI | ⟨hop, hJ⟩
    · exact hI.trans encodeI_fields
    · exact hJ.trans (encodeJ_fields hop)

/-- Settles O3: the sentinel's word is the sentinel, and every other word is made of its fields. -/
theorem encodeAfterDecode : Obligations.EncodeAfterDecode := by
  intro haltWord w i h
  by_cases hw : w = haltWord
  · subst hw
    obtain rfl : Instr.halt = i := Except.ok.inj ((decodeFetched_haltWord w).symm.trans h)
    exact ⟨rfl, Instr.wellFormed_iff.mpr (.inl rfl)⟩
  · rw [decodeFetched_of_ne hw] at h
    have hword := encode_of_decode haltWord h
    exact ⟨hword, Instr.wellFormed_iff.mpr (.inr (by rwa [hword]))⟩

/-- Settles O1: each of the four words is evaluated. -/
theorem writtenOutWordsDecode : Obligations.WrittenOutWordsDecode := ⟨rfl, rfl, rfl, rfl⟩

end Sys2Proof
end

section
/-! O4: the illegal words (spec/30_encoding.md R115), and the fault of a clock edge with one in Decode (spec/60_exceptions.md
R384). -/

namespace Sys2Proof

/-- The values of `funct` in the function map (R112). -/
def recognisedFuncts : List Nat :=
  [0x00, 0x02, 0x03, 0x08, 0x20, 0x21, 0x22, 0x23, 0x24, 0x25, 0x26, 0x27, 0x2A, 0x2B]

/-- The opcodes of the opcode map (R111), opcode 0 aside. -/
def recognisedOpcodes : List Nat :=
  [0x02, 0x04, 0x05, 0x08, 0x09, 0x0A, 0x0B, 0x0C, 0x0D, 0x0E, 0x0F, 0x23, 0x2B]

/-- The opcodes of the illegal encodings (R115). -/
def unrecognisedOpcodes : List Nat := [1, 3, 6, 7] ++ List.range' 16 19 ++ List.range' 36 7 ++ List.range' 44 20

theorem decodeFunct_eq_none_iff (rs rt rd : RegIdx) (shamt : Shamt) (funct : BitVec 6) :
    decodeFunct rs rt rd shamt funct = none ↔ funct.toNat ∉ recognisedFuncts := by
  unfold decodeFunct
  split <;> simp_all [recognisedFuncts]

theorem decodeOpcode_eq_none_iff (opcode : BitVec 6) (rs rt : RegIdx) (imm : Imm16) (jaddr : JAddr) :
    decodeOpcode opcode rs rt imm jaddr = none ↔ opcode.toNat ∉ recognisedOpcodes := by
  unfold decodeOpcode
  split <;> simp_all [recognisedOpcodes]

/-- R115: the opcodes that are neither 0 nor in the opcode map. -/
theorem mem_unrecognisedOpcodes_iff (opcode : BitVec 6) :
    opcode.toNat ∈ unrecognisedOpcodes ↔ opcode ≠ 0 ∧ opcode.toNat ∉ recognisedOpcodes := by
  have hlt := opcode.isLt
  have hzero : opcode = 0 ↔ opcode.toNat = 0 := BitVec.toNat_inj.symm
  simp only [recognisedOpcodes, unrecognisedOpcodes, ne_eq, hzero, List.mem_append, List.mem_cons,
    List.not_mem_nil, or_false, List.mem_range'_1]
  omega

/-- R115: a word is illegal by its `funct` under opcode 0 and by its opcode otherwise. -/
theorem decode_illegal_iff_lists (w : Word) : (∀ i, decode w ≠ .ok i) ↔
    (opcodeOf w = 0 ∧ (functOf w).toNat ∉ recognisedFuncts) ∨ (opcodeOf w).toNat ∈ unrecognisedOpcodes := by
  rw [decode_illegal_iff, decodeFunct_eq_none_iff, decodeOpcode_eq_none_iff, ← mem_unrecognisedOpcodes_iff]

namespace Machine

/-- A halted machine has no instruction in Decode. -/
theorem State.halted_eq_false_of_ifid {s : State} (h : s.ifid.valid = true) : s.halted = false := by
  simp [State.halted, h]

/-- R382: a cycle that fails names one of the four faults. -/
theorem cycle_error_code_ne_none {s : State} {f : FaultInfo} (h : cycle s = .error f) : f.code ≠ .none := by
  rcases cycle_error h with hmem | ⟨req, -, hside | ⟨after, answer, -, hdecode | ⟨id, -, hfetch⟩⟩⟩
  · rcases memRequest_cases s with ⟨hok, -⟩ | ⟨herr, -⟩ | ⟨hok, -⟩ | ⟨hok, -⟩
    · cases hok.symm.trans hmem
    · cases herr.symm.trans hmem
      simp
    · cases hok.symm.trans hmem
    · cases hok.symm.trans hmem
  · obtain ⟨-, hcode⟩ := memorySide_error hside
    simp [hcode]
  · obtain ⟨-, -, rfl⟩ := decodeStage_error hdecode
    simp
  · obtain ⟨-, -, rfl⟩ := fetchStage_error hfetch
    simp

/-- R229: a cycle completes only with a legal word in a valid `IFID`. -/
theorem exists_decode_of_cycle_ok {s t : State} (h : cycle s = .ok t) (hv : s.ifid.valid = true) :
    ∃ i, decode s.ifid.instr = .ok i := by
  obtain ⟨req, after, answer, id, fetch, -, -, hdecode, -, -⟩ := cycle_ok h
  rcases decodeStage_cases hdecode with ⟨hbubble, -⟩ | ⟨-, i, hi, -⟩
  · cases hbubble.symm.trans hv
  · exact ⟨i, hi⟩

/-- R384, R361: an illegal word in Decode faults, if no older stage does so first. -/
theorem clockEdge_fault_of_illegal {s : State} (hfault : s.fault = .none) (hv : s.ifid.valid = true)
    (hillegal : ∀ i, decode s.ifid.instr ≠ .ok i) : (clockEdge s).fault ≠ .none := by
  rcases clockEdge_cases s with ⟨hfaulted | hhalted, -⟩ | ⟨-, -, t, hcycle, -⟩ | ⟨-, -, f, hcycle, hedge⟩
  · cases ((s.faulted_eq_false_iff).mpr hfault).symm.trans hfaulted
  · cases (State.halted_eq_false_of_ifid hv).symm.trans hhalted
  · obtain ⟨i, hi⟩ := exists_decode_of_cycle_ok hcycle hv
    exact absurd hi (hillegal i)
  · rw [hedge, State.raise_fault, if_pos hfault]
    exact cycle_error_code_ne_none hcycle

end Machine

/-- Settles O4: the two lists by the two maps, their lengths by counting, the fault by the stages of the cycle. -/
theorem illegalEncodings : Obligations.IllegalEncodings :=
  ⟨decode_illegal_iff_lists, by decide, by decide, fun _ => Machine.clockEdge_fault_of_illegal⟩

end Sys2Proof
end

section
/-! O5, O15: what an instruction makes of its fields (spec/30_encoding.md R104, R108). -/

namespace Sys2Proof.Machine

open Sys2Proof

/-! ### The extended immediate (R104) -/

theorem signedValue_eq_toInt (w : Word) : signedValue w = w.toInt := by
  have h := w.isLt
  simp only [signedValue, BitVec.toInt_eq_toNat_cond]
  split <;> split <;> omega

theorem immSigned_eq_toInt (imm : Imm16) : immSigned imm = imm.toInt := by
  have h := imm.isLt
  simp only [immSigned, BitVec.toInt_eq_toNat_cond]
  split <;> split <;> omega

theorem signedValue_sext (imm : Imm16) : signedValue (sext imm) = immSigned imm := by
  rw [signedValue_eq_toInt, sext_toInt, immSigned_eq_toInt]

/-- Settles O5: each listed instruction's extended immediate is `sext`, `zext` or 0. -/
theorem immediateExtension : Obligations.ImmediateExtension := by
  refine ⟨fun rs rt imm i hi => ?_, fun rs rt imm i hi => ?_, fun rs rt rd shamt jaddr i hi => ?_⟩
  · have hsext : immextOf i = sext imm := by fin_cases hi <;> rfl
    rw [hsext, signedValue_sext]
  · have hzext : immextOf i = zext imm := by fin_cases hi <;> rfl
    rw [hzext, zext_toNat]
  · fin_cases hi <;> rfl

/-! ### Unused fields (R108) -/

/-- Settles O15: in each listed pair both instructions have the same arm of `exec`, which does not name the field. -/
theorem unusedFieldsIgnored : Obligations.UnusedFieldsIgnored := by
  refine ⟨fun rs rt rd n m s p hp => ?_, fun a b rt rd n imm s p hp => ?_, fun rs rt rd n rt' rd' n' s => rfl⟩
  · fin_cases hp <;> rfl
  · fin_cases hp <;> rfl

end Sys2Proof.Machine
end

section
/-! What an R-format instruction states (`RegisterForm`), from its row of the function map, its control bundle, its read set
and the value it writes. -/

namespace Sys2Proof

/-! ### The words of an R-format instruction (R101, R112) -/

/-- The mask of `RegisterForm` keeps the opcode and the `funct` of a word and clears the 20 bits between them. -/
theorem and_opcodeFunctMask (w : Word) :
    w &&& 0xFC00003F#32 = (opcodeOf w ++ 0#20 ++ functOf w : BitVec (6 + 20 + 6)) := by
  apply BitVec.eq_of_getLsbD_eq
  intro k hk
  simp only [opcodeOf, functOf, BitVec.getLsbD_and, BitVec.getLsbD_append, BitVec.getLsbD_extractLsb']
  interval_cases k <;> simp

/-- A masked word with only a `funct` left is one with opcode 0 and that `funct`. -/
theorem and_opcodeFunctMask_eq_iff (w : Word) (funct : BitVec 6) :
    w &&& 0xFC00003F#32 = funct.setWidth 32 ↔ opcodeOf w = 0 ∧ functOf w = funct := by
  have hop := (opcodeOf w).isLt
  have hf := (functOf w).isLt
  have hfunct := funct.isLt
  have hmasked : (w &&& 0xFC00003F#32).toNat = (opcodeOf w).toNat * 2 ^ 26 + (functOf w).toNat := by
    rw [and_opcodeFunctMask, ofFields_toNat, ofFields_toNat, BitVec.toNat_ofNat]
    omega
  simp only [← BitVec.toNat_inj, hmasked, BitVec.toNat_setWidth, BitVec.ofNat_eq_ofNat, BitVec.toNat_ofNat]
  omega

variable {mk : RegIdx → RegIdx → RegIdx → Shamt → Instr} {funct : BitVec 6}

/-- A row of the function map decodes exactly the words with opcode 0 and its `funct`. -/
theorem decode_eq_ok_iff_funct
    (hrow : ∀ rs rt rd shamt, decodeFunct rs rt rd shamt funct = some (mk rs rt rd shamt)) (w : Word) :
    decode w = .ok (mk (rsOf w) (rtOf w) (rdOf w) (shamtOf w)) ↔ opcodeOf w = 0 ∧ functOf w = funct := by
  constructor
  · intro h
    have hword : w = encodeR (rsOf w) (rtOf w) (rdOf w) (shamtOf w) funct :=
      (encode_of_decode 0 h).symm.trans (encode_of_decodeFunct 0 (hrow ..))
    rw [hword]
    exact ⟨opcodeOf_encodeR .., functOf_encodeR ..⟩
  · rintro ⟨hop, rfl⟩
    exact decode_eq_ok_iff.mpr (.inl ⟨hop, hrow ..⟩)

namespace Machine

/-! ### The end of an instruction that writes one register (R27) -/

/-- `writeResult` touches the register file and the pc, nothing else. -/
theorem State.writeResult_frame (s : State) (d : RegIdx) (v : Word) :
    s.writeResult d v = { s with x := (s.writeReg d v).x, pc := s.pc4 } := by
  rw [State.writeResult, State.writeReg_frame]
  rfl

/-- `ArchMem` does not depend on the registers and the pc (R76). -/
@[simp] theorem State.archRead_writeResult (s : State) (d : RegIdx) (v a : Word) :
    (s.writeResult d v).archRead a = s.archRead a := by
  rw [State.writeResult_frame]
  rfl

theorem writesRegister_writeResult (s : State) (d : RegIdx) (v : Word) : WritesRegister s (s.writeResult d v) d v where
  dest hd := s.readReg_writeReg_same d v hd
  others r hr := s.readReg_writeReg_other d r v hr
  zero := by rw [State.writeResult_x, State.writeReg_x_zero]
  pc := s.writeResult_pc d v
  bytes a := by rw [State.writeResult_back]
  archMem := s.archRead_writeResult d v
  rest := s.writeResult_frame d v

/-! ### R-format instructions that write a result -/

/-- The row of an R-format instruction: its place in the function map (R112), its control bundle and read set (R113), and the
`result` of `x[rs]`, `x[rt]` and `shamt` that it writes to `rd` as it goes on in sequence (R27). -/
def RegisterRow (mk : RegIdx → RegIdx → RegIdx → Shamt → Instr) (funct : BitVec 6) (op : AluOp)
    (reads : RegIdx → RegIdx → List RegIdx) (result : Word → Word → Shamt → Word) : Prop :=
  ∀ rs rt rd shamt,
    decodeFunct rs rt rd shamt funct = some (mk rs rt rd shamt) ∧
    controlOf (mk rs rt rd shamt) = Control.register op ∧
    readSet (mk rs rt rd shamt) = reads rs rt ∧
    ∀ s, exec (mk rs rt rd shamt) s = .next (s.writeResult rd (result (s.readReg rs) (s.readReg rt) shamt))

/-- An instruction with such a row has its form, for every value that its result is shown to have. -/
theorem RegisterRow.form {op : AluOp} {reads : RegIdx → RegIdx → List RegIdx} {result : Word → Word → Shamt → Word}
    (hrow : RegisterRow mk funct op reads result) {value : Word → Word → Shamt → Word → Prop}
    (hvalue : ∀ a b shamt, value a b shamt (result a b shamt)) :
    RegisterForm mk (funct.setWidth 32) op reads value := by
  refine ⟨fun w => ?words, fun rs rt rd shamt => ?fields, fun rs rt rd shamt s => ?meaning⟩
  case words =>
    rw [and_opcodeFunctMask_eq_iff]
    exact (decode_eq_ok_iff_funct (fun rs rt rd shamt => (hrow rs rt rd shamt).1) w).symm
  case fields =>
    obtain ⟨-, hctrl, hreads, -⟩ := hrow rs rt rd shamt
    exact ⟨hctrl, hreads⟩
  case meaning =>
    obtain ⟨-, -, -, hexec⟩ := hrow rs rt rd shamt
    exact ⟨_, _, hexec s, hvalue .., writesRegister_writeResult ..⟩

end Machine

end Sys2Proof
end

section
/-! O6 to O9: the register-register instructions (spec/40_alu_register.md R131 to R140). -/

namespace Sys2Proof.Machine

open Sys2Proof

/-! ### The rows of the ten instructions -/

theorem add_row : RegisterRow .add 0x20#6 .add (fun rs rt => [rs, rt]) (fun a b _ => a + b) :=
  fun _ _ _ _ => ⟨rfl, rfl, rfl, fun _ => rfl⟩

theorem addu_row : RegisterRow .addu 0x21#6 .add (fun rs rt => [rs, rt]) (fun a b _ => a + b) :=
  fun _ _ _ _ => ⟨rfl, rfl, rfl, fun _ => rfl⟩

theorem sub_row : RegisterRow .sub 0x22#6 .sub (fun rs rt => [rs, rt]) (fun a b _ => a - b) :=
  fun _ _ _ _ => ⟨rfl, rfl, rfl, fun _ => rfl⟩

theorem subu_row : RegisterRow .subu 0x23#6 .sub (fun rs rt => [rs, rt]) (fun a b _ => a - b) :=
  fun _ _ _ _ => ⟨rfl, rfl, rfl, fun _ => rfl⟩

theorem and_row : RegisterRow .and 0x24#6 .and (fun rs rt => [rs, rt]) (fun a b _ => a &&& b) :=
  fun _ _ _ _ => ⟨rfl, rfl, rfl, fun _ => rfl⟩

theorem or_row : RegisterRow .or 0x25#6 .or (fun rs rt => [rs, rt]) (fun a b _ => a ||| b) :=
  fun _ _ _ _ => ⟨rfl, rfl, rfl, fun _ => rfl⟩

theorem xor_row : RegisterRow .xor 0x26#6 .xor (fun rs rt => [rs, rt]) (fun a b _ => a ^^^ b) :=
  fun _ _ _ _ => ⟨rfl, rfl, rfl, fun _ => rfl⟩

theorem nor_row : RegisterRow .nor 0x27#6 .nor (fun rs rt => [rs, rt]) (fun a b _ => ~~~(a ||| b)) :=
  fun _ _ _ _ => ⟨rfl, rfl, rfl, fun _ => rfl⟩

theorem slt_row : RegisterRow .slt 0x2A#6 .slt (fun rs rt => [rs, rt]) (fun a b _ => flagWord (lessSigned a b)) :=
  fun _ _ _ _ => ⟨rfl, rfl, rfl, fun _ => rfl⟩

theorem sltu_row : RegisterRow .sltu 0x2B#6 .sltu (fun rs rt => [rs, rt]) (fun a b _ => flagWord (lessUnsigned a b)) :=
  fun _ _ _ _ => ⟨rfl, rfl, rfl, fun _ => rfl⟩

/-! ### Sum and difference (R131 to R134) -/

/-- Settles O6: both write the sum of words, and have the same meaning. -/
theorem addAdduWrap : Obligations.AddAdduWrap :=
  ⟨add_row.form fun a b _ => BitVec.toNat_add a b, addu_row.form fun a b _ => BitVec.toNat_add a b,
    fun _ _ _ _ _ => rfl⟩

/-- The difference of two words, as a number and as R133 computes it. -/
theorem sub_eq_wrapped_difference (a b : Word) :
    ((a - b).toNat : Int) = ((a.toNat : Int) - b.toNat) % 2 ^ 32 ∧ a - b = a + ~~~b + 1 := by
  have ha := a.isLt
  have hb := b.isLt
  constructor
  · rw [BitVec.toNat_sub]
    omega
  · rw [BitVec.sub_eq_add_neg, BitVec.neg_eq_not_add, BitVec.add_assoc]
    rfl

/-- Settles O7: both write the difference of words, and have the same meaning. -/
theorem subSubuWrap : Obligations.SubSubuWrap :=
  ⟨sub_row.form fun a b _ => sub_eq_wrapped_difference a b, subu_row.form fun a b _ => sub_eq_wrapped_difference a b,
    fun _ _ _ _ _ => rfl⟩

/-! ### Logic (R135 to R138) -/

theorem bitByBit_and (a b : Word) : BitByBit (fun p q => p && q) a b (a &&& b) := fun _ _ => BitVec.getLsbD_and

theorem bitByBit_or (a b : Word) : BitByBit (fun p q => p || q) a b (a ||| b) := fun _ _ => BitVec.getLsbD_or

theorem bitByBit_xor (a b : Word) : BitByBit (fun p q => p != q) a b (a ^^^ b) := fun _ _ => BitVec.getLsbD_xor

theorem bitByBit_nor (a b : Word) : BitByBit (fun p q => !(p || q)) a b (~~~(a ||| b)) := fun k hk => by
  rw [BitVec.getLsbD_not, BitVec.getLsbD_or, decide_eq_true hk, Bool.true_and]

/-- Settles O8: the operations on words are the operations on their bits. -/
theorem registerLogicBitByBit : Obligations.RegisterLogicBitByBit :=
  ⟨and_row.form fun a b _ => bitByBit_and a b, or_row.form fun a b _ => bitByBit_or a b,
    xor_row.form fun a b _ => bitByBit_xor a b, nor_row.form fun a b _ => bitByBit_nor a b⟩

/-! ### Comparison (R139 to R141) -/

/-- R141: the result word of a test for `x < y`. -/
theorem flagWord_of_lt_iff {α : Type} [LinearOrder α] {c : Bool} {x y : α} (h : c = true ↔ x < y) :
    (x < y → flagWord c = 1) ∧ (y ≤ x → flagWord c = 0) := by
  constructor
  · intro hlt
    rw [h.mpr hlt, flagWord_true]
  · intro hle
    rw [Bool.eq_false_iff.mpr (mt h.mp hle.not_gt), flagWord_false]

theorem lessSigned_iff_signedValue (a b : Word) : lessSigned a b = true ↔ signedValue a < signedValue b := by
  rw [lessSigned_iff, signedValue_eq_toInt, signedValue_eq_toInt]

/-- Settles O9: each writes the result word of its comparison. -/
theorem registerCompare : Obligations.RegisterCompare :=
  ⟨slt_row.form fun a b _ => flagWord_of_lt_iff (lessSigned_iff_signedValue a b),
    sltu_row.form fun a b _ => flagWord_of_lt_iff (lessUnsigned_iff a b)⟩

end Sys2Proof.Machine
end

section
/-! O10: the shifts by a constant amount (spec/41_shift.md R151 to R154). -/

namespace Sys2Proof.Machine

open Sys2Proof

/-! ### The rows of the three instructions -/

theorem sll_row : RegisterRow .sll 0x00#6 .sll (fun _ rt => [rt]) (fun _ b shamt => b <<< shamt) :=
  fun _ _ _ _ => ⟨rfl, rfl, rfl, fun _ => rfl⟩

theorem srl_row : RegisterRow .srl 0x02#6 .srl (fun _ rt => [rt]) (fun _ b shamt => b >>> shamt) :=
  fun _ _ _ _ => ⟨rfl, rfl, rfl, fun _ => rfl⟩

theorem sra_row : RegisterRow .sra 0x03#6 .sra (fun _ rt => [rt]) (fun _ b shamt => b.sshiftRight shamt.toNat) :=
  fun _ _ _ _ => ⟨rfl, rfl, rfl, fun _ => rfl⟩

/-! ### Shifting as arithmetic -/

/-- R151: a left shift multiplies modulo 2^32. -/
theorem toNat_shiftLeft_shamt (b : Word) (shamt : Shamt) :
    (b <<< shamt).toNat = b.toNat * 2 ^ shamt.toNat % 2 ^ 32 := by
  rw [BitVec.shiftLeft_eq', BitVec.toNat_shiftLeft, Nat.shiftLeft_eq]

/-- R152: a logical right shift divides the unsigned reading. -/
theorem toNat_ushiftRight_shamt (b : Word) (shamt : Shamt) :
    (b >>> shamt).toNat = b.toNat / 2 ^ shamt.toNat := by
  rw [BitVec.ushiftRight_eq', BitVec.toNat_ushiftRight, Nat.shiftRight_eq_div_pow]

/-- R153: an arithmetic right shift divides the signed reading and rounds down: by a positive divisor, Lean's Euclidean
quotient is the floor. -/
theorem signedValue_sshiftRight (b : Word) (n : Nat) :
    signedValue (b.sshiftRight n) = Int.fdiv (signedValue b) (2 ^ n) := by
  have hpow : (0 : Int) ≤ 2 ^ n := by positivity
  calc signedValue (b.sshiftRight n)
      = b.toInt >>> n := by rw [signedValue_eq_toInt, BitVec.toInt_sshiftRight]
    _ = b.toInt / 2 ^ n := by rw [Int.shiftRight_eq_div_pow, Nat.cast_pow, Nat.cast_ofNat]
    _ = Int.fdiv (signedValue b) (2 ^ n) := by rw [Int.fdiv_eq_ediv_of_nonneg _ hpow, signedValue_eq_toInt]

/-- Settles O10: each writes its shifted word, and a shift by `shamt` is that arithmetic with `2 ^ shamt`. -/
theorem shiftsMultiplyAndDivide : Obligations.ShiftsMultiplyAndDivide :=
  ⟨sll_row.form fun _ b shamt => toNat_shiftLeft_shamt b shamt,
    srl_row.form fun _ b shamt => toNat_ushiftRight_shamt b shamt,
    sra_row.form fun _ b shamt => signedValue_sshiftRight b shamt.toNat⟩

end Sys2Proof.Machine
end

section
/-! What an I-format instruction that writes `rt` states (`ImmediateForm`), from its row of the opcode map, its control bundle,
its read set and the value it writes. -/

namespace Sys2Proof

/-! ### The words of an opcode (R102, R111) -/

/-- The mask of `ImmediateForm` keeps the opcode of a word and clears the 26 bits below it. -/
theorem and_opcodeMask (w : Word) : w &&& 0xFC000000#32 = (opcodeOf w ++ 0#26 : BitVec (6 + 26)) := by
  apply BitVec.eq_of_getLsbD_eq
  intro k hk
  simp only [opcodeOf, BitVec.getLsbD_and, BitVec.getLsbD_append, BitVec.getLsbD_extractLsb']
  interval_cases k <;> simp

/-- A masked word with only an opcode left is one with that opcode. -/
theorem and_opcodeMask_eq_iff (w : Word) (opcode : BitVec 6) :
    w &&& 0xFC000000#32 = (opcode ++ 0#26 : BitVec (6 + 26)) ↔ opcodeOf w = opcode := by
  rw [and_opcodeMask, ← BitVec.toNat_inj, ← BitVec.toNat_inj, ofFields_toNat, ofFields_toNat]
  omega

variable {mk : RegIdx → RegIdx → Imm16 → Instr} {opcode : BitVec 6}

/-- A row of the opcode map that reads the I-format fields decodes exactly the words with its opcode; opcode 0 has no row. -/
theorem decode_eq_ok_iff_opcode
    (hrow : ∀ rs rt imm jaddr, decodeOpcode opcode rs rt imm jaddr = some (mk rs rt imm)) (w : Word) :
    decode w = .ok (mk (rsOf w) (rtOf w) (imm16Of w)) ↔ opcodeOf w = opcode := by
  constructor
  · intro h
    have hword := encode_of_decode 0 h
    rcases encode_of_decodeOpcode 0 (hrow (rsOf w) (rtOf w) (imm16Of w) (jaddrOf w)) with hI | ⟨hop, hJ⟩
    · rw [← hword, hI, opcodeOf_encodeI]
    · rw [← hword, hJ, opcodeOf_encodeJ, hop]
  · rintro rfl
    have hne : opcodeOf w ≠ 0 := fun h0 => by
      have hzero := hrow 0 0 0 0
      rw [h0] at hzero
      cases hzero
    exact decode_eq_ok_iff.mpr (.inr ⟨hne, hrow ..⟩)

namespace Machine

/-! ### I-format instructions that write a result -/

/-- The row of an I-format instruction that writes `rt`: its place in the opcode map (R111), its control bundle and read set
(R113), and the `result` of `x[rs]` and the immediate that it writes to `rt` as it goes on in sequence (R27). -/
def ImmediateRow (mk : RegIdx → RegIdx → Imm16 → Instr) (opcode : BitVec 6) (op : AluOp)
    (reads : RegIdx → List RegIdx) (result : Word → Imm16 → Word) : Prop :=
  ∀ rs rt imm,
    (∀ jaddr, decodeOpcode opcode rs rt imm jaddr = some (mk rs rt imm)) ∧
    controlOf (mk rs rt imm) = Control.immediate op ∧
    readSet (mk rs rt imm) = reads rs ∧
    ∀ s, exec (mk rs rt imm) s = .next (s.writeResult rt (result (s.readReg rs) imm))

/-- An instruction with such a row has its form, for every value that its result is shown to have. -/
theorem ImmediateRow.form {op : AluOp} {reads : RegIdx → List RegIdx} {result : Word → Imm16 → Word}
    (hrow : ImmediateRow mk opcode op reads result) {value : Word → Imm16 → Word → Prop}
    (hvalue : ∀ a imm, value a imm (result a imm)) :
    ImmediateForm mk (opcode ++ 0#26 : BitVec (6 + 26)) op reads value := by
  refine ⟨fun w => ?words, fun rs rt imm => ?fields, fun rs rt imm s => ?meaning⟩
  case words =>
    rw [and_opcodeMask_eq_iff]
    exact (decode_eq_ok_iff_opcode (fun rs rt imm => (hrow rs rt imm).1) w).symm
  case fields =>
    obtain ⟨-, hctrl, hreads, -⟩ := hrow rs rt imm
    exact ⟨hctrl, hreads⟩
  case meaning =>
    obtain ⟨-, -, -, hexec⟩ := hrow rs rt imm
    exact ⟨_, _, hexec s, hvalue .., writesRegister_writeResult ..⟩

end Machine

end Sys2Proof
end

section
/-! O11 to O14: the register-immediate instructions (spec/42_alu_immediate.md R161 to R168). -/

namespace Sys2Proof.Machine

open Sys2Proof

/-! ### The rows of the eight instructions -/

theorem addi_row : ImmediateRow .addi 0x08#6 .add (fun rs => [rs]) (fun a imm => a + sext imm) :=
  fun _ _ _ => ⟨fun _ => rfl, rfl, rfl, fun _ => rfl⟩

theorem addiu_row : ImmediateRow .addiu 0x09#6 .add (fun rs => [rs]) (fun a imm => a + sext imm) :=
  fun _ _ _ => ⟨fun _ => rfl, rfl, rfl, fun _ => rfl⟩

theorem slti_row : ImmediateRow .slti 0x0A#6 .slt (fun rs => [rs]) (fun a imm => flagWord (lessSigned a (sext imm))) :=
  fun _ _ _ => ⟨fun _ => rfl, rfl, rfl, fun _ => rfl⟩

theorem sltiu_row :
    ImmediateRow .sltiu 0x0B#6 .sltu (fun rs => [rs]) (fun a imm => flagWord (lessUnsigned a (sext imm))) :=
  fun _ _ _ => ⟨fun _ => rfl, rfl, rfl, fun _ => rfl⟩

theorem andi_row : ImmediateRow .andi 0x0C#6 .and (fun rs => [rs]) (fun a imm => a &&& zext imm) :=
  fun _ _ _ => ⟨fun _ => rfl, rfl, rfl, fun _ => rfl⟩

theorem ori_row : ImmediateRow .ori 0x0D#6 .or (fun rs => [rs]) (fun a imm => a ||| zext imm) :=
  fun _ _ _ => ⟨fun _ => rfl, rfl, rfl, fun _ => rfl⟩

theorem xori_row : ImmediateRow .xori 0x0E#6 .xor (fun rs => [rs]) (fun a imm => a ^^^ zext imm) :=
  fun _ _ _ => ⟨fun _ => rfl, rfl, rfl, fun _ => rfl⟩

theorem lui_row : ImmediateRow .lui 0x0F#6 .lui (fun _ => []) (fun _ imm => zext imm <<< 16) :=
  fun _ _ _ => ⟨fun _ => rfl, rfl, rfl, fun _ => rfl⟩

/-! ### Sum (R161, R162) -/

/-- R26: the unsigned reading of `sext_32(imm16)` is the signed immediate modulo 2^32. -/
theorem sext_toNat_eq_immSigned_emod (imm : Imm16) : ((sext imm).toNat : Int) = immSigned imm % 2 ^ 32 := by
  have hlt := (sext imm).isLt
  rw [← signedValue_sext, signedValue]
  split <;> omega

theorem toNat_add_sext (a : Word) (imm : Imm16) :
    ((a + sext imm).toNat : Int) = ((a.toNat : Int) + immSigned imm) % 2 ^ 32 := by
  have hsext := sext_toNat_eq_immSigned_emod imm
  rw [BitVec.toNat_add]
  omega

/-- Settles O11: both write the sum with the sign-extended immediate, and have the same meaning. -/
theorem addImmediateWrap : Obligations.AddImmediateWrap :=
  ⟨addi_row.form toNat_add_sext, addiu_row.form toNat_add_sext, fun _ _ _ _ => rfl⟩

/-! ### Comparison (R163, R164) -/

theorem lessSigned_sext_iff (a : Word) (imm : Imm16) :
    lessSigned a (sext imm) = true ↔ signedValue a < immSigned imm := by
  rw [lessSigned_iff_signedValue, signedValue_sext]

theorem lessUnsigned_sext_iff (a : Word) (imm : Imm16) :
    lessUnsigned a (sext imm) = true ↔ (a.toNat : Int) < immSigned imm % 2 ^ 32 := by
  rw [lessUnsigned_iff, ← sext_toNat_eq_immSigned_emod, Int.ofNat_lt]

/-- Settles O12: each writes the result word of its comparison with the sign-extended immediate. -/
theorem compareImmediate : Obligations.CompareImmediate :=
  ⟨slti_row.form fun a imm => flagWord_of_lt_iff (lessSigned_sext_iff a imm),
    sltiu_row.form fun a imm => flagWord_of_lt_iff (lessUnsigned_sext_iff a imm)⟩

/-! ### Logic (R165 to R167) -/

/-- The bits of `zext_32(imm16)`: those of the immediate, and zeros from bit 16 on. -/
theorem getLsbD_zext (imm : Imm16) {k : Nat} (hk : k < 32) :
    (zext imm).getLsbD k = (decide (k < 16) && imm.getLsbD k) := by
  rw [zext, BitVec.getLsbD_setWidth, decide_eq_true hk, Bool.true_and]
  by_cases h16 : k < 16
  · rw [decide_eq_true h16, Bool.true_and]
  · rw [decide_eq_false h16, Bool.false_and, BitVec.getLsbD_of_ge imm k (not_lt.mp h16)]

/-- Settles O13: the operation on words is that on their bits, of which those of the immediate are 0 from bit 16 on. -/
theorem logicImmediate : Obligations.LogicImmediate :=
  ⟨andi_row.form fun _ imm _ hk => by rw [BitVec.getLsbD_and, getLsbD_zext imm hk],
    ori_row.form fun _ imm _ hk => by rw [BitVec.getLsbD_or, getLsbD_zext imm hk],
    xori_row.form fun _ imm _ hk => by rw [BitVec.getLsbD_xor, getLsbD_zext imm hk]⟩

/-! ### Load upper (R168) -/

/-- R168: the immediate fits above 16 zeros, so nothing is shifted out. -/
theorem toNat_zext_shiftLeft_16 (imm : Imm16) : (zext imm <<< 16).toNat = imm.toNat * 2 ^ 16 := by
  have hlt := imm.isLt
  rw [BitVec.toNat_shiftLeft, zext_toNat, Nat.shiftLeft_eq]
  exact Nat.mod_eq_of_lt (by omega)

/-- Settles O14: the word it writes is the immediate shifted into the upper half. -/
theorem loadUpperImmediate : Obligations.LoadUpperImmediate :=
  lui_row.form fun _ imm => toNat_zext_shiftLeft_16 imm

end Sys2Proof.Machine
end

section
/-! What a store of the sequential reading does to `ArchMem` (spec/20_memory.md R75, R76), wherever the word is kept (log
entry 7). -/

namespace Sys2Proof.Machine

open Sys2Proof

/-! ### The words of a block (R292, R294) -/

/-- R292, R294: a word is its block and its place in the block. -/
theorem wordIndex_eq_iff_block {c : Config} (hg : c.CacheShape) (a b : Word) :
    wordIndex a = wordIndex b ↔ c.blockBase a = c.blockBase b ∧ c.offset a = c.offset b := by
  rw [wordIndex_eq_iff hg, hg.blockBase_eq_lineAddr a, lineAddr_eq_blockBase_iff hg (c.tag_lt a) (hg.index_lt a), and_assoc]

/-! ### The write buffer after a store to a buffered line -/

/-- R76: the store goes to the newest entry of its block, which stays the newest. -/
theorem newestEntry_setNewestEntry_same {buf : List WbEntry} {base : Word} {e : WbEntry}
    (he : newestEntry buf base = some e) (k : Nat) (v : Word) :
    newestEntry (setNewestEntry buf base k v) base = some { e with data := e.data.set k v } := by
  induction buf with
  | nil => cases he
  | cons f es ih =>
    cases hnewer : newestEntry es base with
    | some g =>
      simp only [newestEntry, hnewer] at he
      simp [setNewestEntry, newestEntry, hnewer, ih (hnewer.trans he)]
    | none =>
      simp only [newestEntry, hnewer, Option.ite_none_right_eq_some, Option.some.injEq] at he
      obtain ⟨hblock, rfl⟩ := he
      simp [setNewestEntry, newestEntry, hnewer, hblock]

/-- R76: a store leaves the entries of the other blocks. -/
theorem newestEntry_setNewestEntry_other (buf : List WbEntry) {base other : Word} (hne : other ≠ base) (k : Nat)
    (v : Word) : newestEntry (setNewestEntry buf base k v) other = newestEntry buf other := by
  induction buf with
  | nil => rfl
  | cons f es ih =>
    cases hnewer : newestEntry es base with
    | some g => simp [setNewestEntry, newestEntry, hnewer, ih]
    | none =>
      by_cases hblock : f.addr = base
      · simp [setNewestEntry, newestEntry, hnewer, hblock, hne.symm]
      · simp [setNewestEntry, hnewer, hblock]

/-! ### `ArchMem` after a store (R75) -/

section Store

variable {s : State} (hc : s.cfg.check = none) (hon : s.cfg.cached = true) {a : Word}

include hc hon

/-- Log entry 7: a store to a buffered line sets its word, which no line holds; the other words of the block keep their place
in the entry, or in the line of a fill in progress. -/
theorem MemorySideOk.setNewestEntry_archRead (h : MemorySideOk s) (hmiss : s.hitLine a = none) {e : WbEntry}
    (he : newestEntry s.wbuf (s.cfg.blockBase a) = some e) {v : Word} {t : State}
    (ht : t = { s with wbuf := Machine.setNewestEntry s.wbuf (s.cfg.blockBase a) (s.cfg.offset a) v }) (b : Word) :
    t.archRead b = if wordIndex b = wordIndex a then v else s.archRead b := by
  have hg := Config.cacheShape_of_check hc hon
  have hcfg : t.cfg = s.cfg := by rw [ht]
  have hwbuf : t.wbuf = Machine.setNewestEntry s.wbuf (s.cfg.blockBase a) (s.cfg.offset a) v := by rw [ht]
  have hhit : t.hitLine b = s.hitLine b := by
    rw [ht]
    exact State.hitLine_congr rfl rfl rfl
  have hback : t.backRead b = s.backRead b := State.backRead_congr hcfg (by rw [ht]) b
  by_cases hinEntry : s.hitLine b = none ∧ s.cfg.blockBase b = s.cfg.blockBase a
  · obtain ⟨hmissb, hblock⟩ := hinEntry
    have hlen : s.cfg.offset a < e.data.length :=
      ((h.cache hon).entries e (newestEntry_mem he).1).data ▸ hg.offset_lt a
    have hafter := newestEntry_setNewestEntry_same he (s.cfg.offset a) v
    rw [← hwbuf, ← hblock] at hafter
    rw [State.archRead_of_entry (hcfg ▸ hon) (hhit.trans hmissb) (hcfg ▸ hafter), hcfg, wordAt_set hlen,
      State.archRead_of_entry hon hmissb (hblock ▸ he)]
    simp only [wordIndex_eq_iff_block hg, hblock, true_and]
  · have hne : wordIndex b ≠ wordIndex a := fun hw =>
      hinEntry ⟨(State.hitLine_congr_word hg hw).trans hmiss, blockBase_congr_word hg hw⟩
    rw [if_neg hne]
    refine State.archRead_congr hon hcfg hhit (fun hmissb => ?_) fun _ => hback
    rw [hwbuf, newestEntry_setNewestEntry_other _ fun hblock => hinEntry ⟨hmissb, hblock⟩]

/-- Log entry 7: a store to the backing store sets its word, which no line and no entry holds. -/
theorem State.archRead_backWrite_of_no_entry (hwf : s.back.Wf) (hmiss : s.hitLine a = none)
    (hentry : newestEntry s.wbuf (s.cfg.blockBase a) = none) (v b : Word) :
    (s.backWrite a v).archRead b = if wordIndex b = wordIndex a then v else s.archRead b := by
  have hg := Config.cacheShape_of_check hc hon
  have hback := s.backRead_backWrite a b v hwf
  have hhit : (s.backWrite a v).hitLine b = s.hitLine b := State.hitLine_congr rfl rfl rfl
  by_cases hw : wordIndex b = wordIndex a
  · have hmissb : s.hitLine b = none := (State.hitLine_congr_word hg hw).trans hmiss
    rw [← blockBase_congr_word hg hw] at hentry
    rw [State.archRead_of_no_entry (by exact hon) (hhit.trans hmissb) (newestEntry_eq_none.mp hentry), hback]
    rw [if_pos hw, if_pos hw]
  · rw [if_neg hw] at hback ⊢
    exact State.archRead_congr hon rfl hhit (fun _ => rfl) fun _ => hback

end Store

/-- R75, R76: after a store `ArchMem` has the value at its word and is what it was at every other. -/
theorem MemorySideOk.archWrite_archRead {s : State} (hc : s.cfg.check = none) (h : MemorySideOk s) (a v b : Word) :
    (s.archWrite a v).archRead b = if wordIndex b = wordIndex a then v else s.archRead b := by
  have hwf := h.memory.wf
  rcases s.archWrite_cases a v with
    ⟨hoff, he⟩ | ⟨hon, l, hhit, he⟩ | ⟨hon, hmiss, ⟨e, hentry⟩, he⟩ | ⟨hon, hmiss, hentry, he⟩ <;> rw [he]
  · rw [State.archRead_of_uncached (by exact hoff), State.archRead_of_uncached hoff, s.backRead_backWrite a b v hwf]
  · exact h.storeHit_archRead hc hon hhit v b
  · exact h.setNewestEntry_archRead hc hon hmiss hentry rfl b
  · exact State.archRead_backWrite_of_no_entry hc hon hwf hmiss hentry v b

/-- Log entry 7: a store writes its word to the backing store or leaves the backing store alone. -/
theorem State.archWrite_back (s : State) (a v : Word) :
    (s.archWrite a v).back = s.back ∨ (s.archWrite a v).back = (s.backWrite a v).back := by
  rcases s.archWrite_cases a v with ⟨-, he⟩ | ⟨-, l, -, he⟩ | ⟨-, -, -, he⟩ | ⟨-, -, -, he⟩ <;> rw [he]
  · exact .inr rfl
  · cases hp : s.cfg.writePolicy with
    | writeBack => exact .inl (by rw [State.storeHit_writeBack hp])
    | writeThrough => exact .inr (by rw [State.storeHit_writeThrough hp])
  · exact .inl rfl
  · exact .inr rfl

theorem State.readByte_archWrite_other (s : State) (a v : Word) {n : Nat} (hn : n / 4 ≠ wordIndex a) :
    (s.archWrite a v).back.readByte n = s.back.readByte n := by
  rcases s.archWrite_back a v with he | he <;> rw [he]
  exact Memory.readByte_writeWord_other _ _ _ _ _ hn

end Sys2Proof.Machine
end

section
/-! O16 to O18: loads and stores (spec/43_load_store.md R180 to R183; spec/20_memory.md R74, R75). -/

namespace Sys2Proof.Machine

open Sys2Proof

/-! ### Words and addresses (R102, R111, R180) -/

/-- An opcode with a row in the I-format decodes the words that have it above the mask. -/
theorem and_opcodeMask_eq_iff_decode {mk : RegIdx → RegIdx → Imm16 → Instr} {opcode : BitVec 6}
    (hrow : ∀ rs rt imm jaddr, decodeOpcode opcode rs rt imm jaddr = some (mk rs rt imm)) (w : Word) :
    w &&& 0xFC000000#32 = (opcode ++ 0#26 : BitVec (6 + 26)) ↔ decode w = .ok (mk (rsOf w) (rtOf w) (imm16Of w)) := by
  rw [and_opcodeMask_eq_iff, decode_eq_ok_iff_opcode hrow]

/-- R180: the effective address is the only word with that number. -/
theorem effectiveAddress_eq {base ea : Word} {imm : Imm16}
    (h : (ea.toNat : Int) = ((base.toNat : Int) + immSigned imm) % 2 ^ 32) : effectiveAddress base imm = ea := by
  rw [← toNat_add_sext, Nat.cast_inj] at h
  exact (BitVec.eq_of_toNat_eq h).symm

/-! ### What the two instructions do on either side of the window (R181, R182) -/

section Window

variable {s : State} {rs : RegIdx} {imm : Imm16} (rt : RegIdx)

theorem exec_lw_of_inWindow (hw : s.inWindow (effectiveAddress (s.readReg rs) imm) = true) :
    exec (.lw rs rt imm) s = .next (s.writeResult rt (s.archRead (effectiveAddress (s.readReg rs) imm))) :=
  if_pos hw

theorem exec_lw_of_outside (hw : ¬ s.inWindow (effectiveAddress (s.readReg rs) imm) = true) :
    exec (.lw rs rt imm) s = .next (s.raise
      (dataFault (effectiveAddress (s.readReg rs) imm) (encode s.cfg.haltWord (.lw rs rt imm)))) :=
  if_neg hw

theorem exec_sw_of_inWindow (hw : s.inWindow (effectiveAddress (s.readReg rs) imm) = true) :
    exec (.sw rs rt imm) s =
      .next ((s.archWrite (effectiveAddress (s.readReg rs) imm) (s.readReg rt)).setPc s.pc4) :=
  if_pos hw

theorem exec_sw_of_outside (hw : ¬ s.inWindow (effectiveAddress (s.readReg rs) imm) = true) :
    exec (.sw rs rt imm) s = .next (s.raise
      (dataFault (effectiveAddress (s.readReg rs) imm) (encode s.cfg.haltWord (.sw rs rt imm)))) :=
  if_neg hw

end Window

/-! ### Load -/

/-- Settles O16: inside the window a load ends as every instruction that writes one register. -/
theorem loadWord : Obligations.LoadWord := by
  refine ⟨and_opcodeMask_eq_iff_decode (opcode := 0x23#6) fun _ _ _ _ => rfl, fun _ _ _ => ⟨rfl, rfl⟩, ?_⟩
  intro rs rt imm s ea hea hin
  obtain rfl := effectiveAddress_eq hea
  exact ⟨_, exec_lw_of_inWindow rt ((s.inWindow_eq_true_iff _).mpr hin), writesRegister_writeResult ..⟩

/-! ### Store -/

/-- `ArchMem` does not depend on the pc (R76). -/
@[simp] theorem State.archRead_setPc (s : State) (t a : Word) : (s.setPc t).archRead a = s.archRead a := rfl

/-- R75, R182: a store and the move to the next address have the frame of a store. -/
theorem storesWord_archWrite {s : State} (hc : s.cfg.check = none) (hs : MachineOk s) (ea v : Word) :
    StoresWord s ((s.archWrite ea v).setPc s.pc4) ea v where
  stored a ha := by rw [State.archRead_setPc, hs.memorySide.archWrite_archRead hc, if_pos ha]
  others a ha := by rw [State.archRead_setPc, hs.memorySide.archWrite_archRead hc, if_neg ha]
  bytes _ hn := s.readByte_archWrite_other ea v hn
  registers r := State.readReg_congr (s.archWrite_x ea v) r
  pc := rfl
  rest := by
    rw [State.archWrite_frame]
    rfl

/-- Settles O17: a store inside the window has the frame of a store, and a load from the same registers and immediate then
has the same effective address. -/
theorem storeWord : Obligations.StoreWord := by
  refine ⟨and_opcodeMask_eq_iff_decode (opcode := 0x2B#6) fun _ _ _ _ => rfl, fun _ _ _ => ⟨rfl, rfl⟩, ?_⟩
  intro rs rt imm s ea hc hs hea hin
  have hstores := storesWord_archWrite hc hs ea (s.readReg rt)
  have hexec := exec_sw_of_inWindow (s := s) (rs := rs) (imm := imm) rt
  rw [effectiveAddress_eq hea, s.inWindow_eq_true_iff] at hexec
  refine ⟨_, hexec hin, hstores, fun rd hrd => ?_⟩
  obtain ⟨-, -, hload⟩ := loadWord
  obtain ⟨u, hu, hwrites⟩ := hload rs rd imm ((s.archWrite ea (s.readReg rt)).setPc s.pc4) ea
    (by rw [hstores.registers, hea]) (by simpa using hin)
  exact ⟨u, hu, (hwrites.dest hrd).trans (hstores.stored ea rfl)⟩

/-! ### Outside the window -/

/-- R40, R383: the first fault is recorded. -/
theorem State.raise_of_no_fault {s : State} (h : s.fault = .none) (f : FaultInfo) :
    s.raise f = { s with fault := f.code, faultAddr := f.addr, faultWord := f.word } :=
  if_pos h

/-- Settles O18: outside the window both raise the fault of a data access. -/
theorem dataAccessOutsideWindowFaults : Obligations.DataAccessOutsideWindowFaults := by
  intro rs rt imm s ea hfault hea hout
  obtain rfl := effectiveAddress_eq hea
  have hw : ¬ s.inWindow (effectiveAddress (s.readReg rs) imm) = true :=
    mt (s.inWindow_eq_true_iff _).mp hout.not_gt
  rw [exec_lw_of_outside rt hw, exec_sw_of_outside rt hw, State.raise_of_no_fault hfault, State.raise_of_no_fault hfault]
  exact ⟨rfl, rfl⟩

end Sys2Proof.Machine
end

section
/-! O19, O20: the control transfers (spec/44_control_transfer.md R191 to R194, R197; spec/30_encoding.md R106, R107). -/

namespace Sys2Proof

/-- R103, R111: the words of `J` are those with opcode 2. -/
theorem decode_eq_ok_j_iff (w : Word) : decode w = .ok (.j (jaddrOf w)) ↔ opcodeOf w = 2#6 := by
  constructor
  · intro h
    rw [← encode_of_decode 0 h]
    exact opcodeOf_encodeJ _
  · intro hop
    have hdecode := decode_encodeJ (jaddrOf w)
    rwa [encodeJ_fields hop] at hdecode

namespace Machine

/-! ### The frame of a transfer -/

theorem changesPcOnly_setPc (s : State) (a : Word) : ChangesPcOnly s (s.setPc a) where
  registers := s.readReg_setPc a
  bytes _ := rfl
  archMem := s.archRead_setPc a
  rest := rfl

/-! ### Targets as numbers -/

theorem State.toNat_pc4 (s : State) : s.pc4.toNat = (s.pc.toNat + 4) % 2 ^ 32 := BitVec.toNat_add ..

/-- R107: the immediate counts words from the instruction after the branch. -/
theorem toNat_branchTarget (pc4 : Word) (imm : Imm16) :
    ((branchTarget pc4 imm).toNat : Int) = ((pc4.toNat : Int) + 4 * immSigned imm) % 2 ^ 32 := by
  have hsext := sext_toNat_eq_immSigned_emod imm
  rw [branchTarget, BitVec.toNat_add, BitVec.toNat_shiftLeft, Nat.shiftLeft_eq]
  omega

theorem State.toNat_branchTarget_pc4 (s : State) (imm : Imm16) :
    ((branchTarget s.pc4 imm).toNat : Int) = ((s.pc.toNat : Int) + 4 + 4 * immSigned imm) % 2 ^ 32 := by
  rw [toNat_branchTarget, s.toNat_pc4]
  omega

/-! ### Branches (R191, R192) -/

section Branch

variable {s : State} {imm : Imm16} {taken : Prop} [Decidable taken]

/-- The shape `BEQ` and `BNE` share, over the condition on which each is taken. -/
theorem branch_outcome {r : Result} (h : r = .next (s.setPc (if taken then branchTarget s.pc4 imm else s.pc4))) :
    ∃ t, r = .next t ∧ ChangesPcOnly s t ∧
      (taken → (t.pc.toNat : Int) = ((s.pc.toNat : Int) + 4 + 4 * immSigned imm) % 2 ^ 32) ∧
      (¬ taken → t.pc.toNat = (s.pc.toNat + 4) % 2 ^ 32) := by
  refine ⟨_, h, changesPcOnly_setPc .., fun htaken => ?_, fun hnot => ?_⟩
  · rw [State.setPc_pc, if_pos htaken, s.toNat_branchTarget_pc4]
  · rw [State.setPc_pc, if_neg hnot, s.toNat_pc4]

/-- R197: both successors of an aligned branch are aligned. -/
theorem branch_aligned (hpc : s.pc.toNat % 4 = 0) :
    (if taken then branchTarget s.pc4 imm else s.pc4).toNat % 4 = 0 := by
  split
  · have htarget := s.toNat_branchTarget_pc4 imm
    omega
  · rw [s.toNat_pc4]
    omega

end Branch

/-- Settles O19: `BEQ` and `BNE` have one shape, and the condition of each is the other's negation. -/
theorem branchesChoosePc : Obligations.BranchesChoosePc := by
  refine ⟨fun w => ⟨?beqWords, ?bneWords⟩, fun rs rt imm s => ⟨branch_outcome rfl, ?bne⟩⟩
  case beqWords => exact and_opcodeMask_eq_iff_decode (opcode := 0x04#6) (fun _ _ _ _ => rfl) w
  case bneWords => exact and_opcodeMask_eq_iff_decode (opcode := 0x05#6) (fun _ _ _ _ => rfl) w
  case bne =>
    obtain ⟨t, hexec, hframe, htaken, hnot⟩ :=
      branch_outcome (r := exec (.bne rs rt imm) s) (taken := s.readReg rs ≠ s.readReg rt) rfl
    exact ⟨t, hexec, hframe, htaken, fun heq => hnot (not_not_intro heq)⟩

/-! ### Jumps (R193, R194) -/

/-- R106, R197: the target of `J` is aligned, wherever the jump stands. -/
theorem jumpTarget_aligned (pc4 : Word) (jaddr : JAddr) : (jumpTarget pc4 jaddr).toNat % 4 = 0 := by
  rw [jumpTarget_toNat]
  omega

/-- Settles O20: each transfer sets the pc alone, to a target known as a number. -/
theorem jumpsSetPc : Obligations.JumpsSetPc := by
  refine ⟨fun w => ⟨?jWords, ?jrWords⟩, fun jaddr s => ?j, fun rs rt rd shamt s => ?jr,
    fun rs rt imm jaddr s t hpc h => ?aligned⟩
  case jWords =>
    exact (and_opcodeMask_eq_iff w 0x02#6).trans (decode_eq_ok_j_iff w).symm
  case jrWords =>
    exact (and_opcodeFunctMask_eq_iff w 0x08#6).trans (decode_eq_ok_iff_funct (fun _ _ _ _ => rfl) w).symm
  case j =>
    refine ⟨_, rfl, changesPcOnly_setPc .., ?_⟩
    rw [State.setPc_pc, jumpTarget_toNat, s.toNat_pc4]
  case jr => exact ⟨_, rfl, changesPcOnly_setPc .., rfl⟩
  case aligned =>
    rcases h with hbeq | hbne | hj
    · obtain rfl := Host.Outcome.next.inj hbeq
      exact branch_aligned hpc
    · obtain rfl := Host.Outcome.next.inj hbne
      exact branch_aligned hpc
    · obtain rfl := Host.Outcome.next.inj hj
      exact jumpTarget_aligned ..

end Machine

end Sys2Proof
end

section
/-! O21, O23: where the sequential reading stops or faults (spec/44_control_transfer.md R198; spec/60_exceptions.md R383, R384,
R386). -/

namespace Sys2Proof.Machine

open Sys2Proof

/-! ### Staying -/

/-- R40, R198: after a fault or the sentinel the sequential reading stays. -/
theorem sequentialStep_of_ended {s : State} (h : s.fault ≠ .none ∨ s.fetchStopped = true) : sequentialStep s = .next s := by
  rcases sequentialStep_cases s with ⟨-, hstep⟩ | ⟨hf, hs, -⟩ | ⟨hf, hs, -⟩
  · exact hstep
  · simp [s.faulted_eq_false_iff.mp hf, hs] at h
  · simp [s.faulted_eq_false_iff.mp hf, hs] at h

/-- Settles O21: the sentinel sets one flag, on which no register, word or byte depends, and the flag ends the sequential run. -/
theorem haltStopsFetch : Obligations.HaltStopsFetch := fun s =>
  ⟨{ s with fetchStopped := true }, rfl, rfl, rfl, fun _ => rfl, fun _ => rfl, fun _ => rfl,
    sequentialStep_of_ended (.inr rfl)⟩

/-! ### What the sequential fetch finds where it decodes nothing -/

theorem fetchInstr_of_outside {s : State} (hw : s.cfg.memSize ≤ s.pc.toNat) :
    fetchInstr s = .fault { code := .busErrorFetch, addr := s.pc, word := 0 } :=
  if_neg (mt (s.inWindow_eq_true_iff s.pc).mp hw.not_gt)

theorem haltCondition_of_pcZero {s : State} (hon : s.cfg.haltOnPcZero = true) (hz : s.pc = 0) (w : Word) :
    haltCondition s w = true := by
  simp [haltCondition, hon, hz]

theorem fetchInstr_of_haltCondition {s : State} (hw : s.inWindow s.pc = true)
    (hhalt : haltCondition s (s.ifetchRead s.pc) = true) : fetchInstr s = .instr .halt := by
  simp [fetchInstr, hw, hhalt]

/-- R108, R117: a word that stands for nothing is not the sentinel, and the decoder refuses it. -/
theorem decodeFetched_illegal_iff {haltWord w : Word} :
    (∀ i, decodeFetched haltWord w ≠ .ok i) ↔ w ≠ haltWord ∧ ∃ e, decode w = .error e := by
  by_cases hw : w = haltWord
  · simp [hw]
  · rw [decodeFetched_of_ne hw]
    cases decode w <;> simp [hw]

theorem fetchInstr_of_illegal {s : State} (hw : s.inWindow s.pc = true) (hz : ¬ (s.cfg.haltOnPcZero = true ∧ s.pc = 0))
    (hillegal : ∀ i, decodeFetched s.cfg.haltWord (s.ifetchRead s.pc) ≠ .ok i) :
    fetchInstr s = .fault { code := .illegalInstruction, addr := s.pc, word := s.ifetchRead s.pc } := by
  obtain ⟨hne, e, he⟩ := decodeFetched_illegal_iff.mp hillegal
  simp [fetchInstr, hw, mt (haltCondition_iff_of_not_pcZero hz _).mp hne, he]

/-- R383: a running sequential reading records the fault its fetch meets. -/
theorem sequentialStep_of_fault {s : State} {f : FaultInfo} (hf : s.fault = .none) (hs : s.fetchStopped = false)
    (hfetch : fetchInstr s = .fault f) :
    sequentialStep s = .next { s with fault := f.code, faultAddr := f.addr, faultWord := f.word } := by
  rw [← State.raise_of_no_fault hf]
  simp [sequentialStep, s.faulted_eq_false_iff.mpr hf, hs, hfetch]

/-- Settles O23: each clause is what the fetch finds there, and what the step does with it. -/
theorem sequentialFetchOutcomes : Obligations.SequentialFetchOutcomes := by
  intro s hcheck hdriver
  rw [step_of_sequential hcheck hdriver]
  refine ⟨sequentialStep_of_ended, fun hf hs hout => ?outside, fun hf hs hin hon hz => ?pcZero,
    fun hf hs hin hz hillegal => ?illegal⟩
  case outside => exact sequentialStep_of_fault hf hs (fetchInstr_of_outside hout)
  case pcZero =>
    exact sequentialStep_of_instr (s.faulted_eq_false_iff.mpr hf) hs
      (fetchInstr_of_haltCondition ((s.inWindow_eq_true_iff s.pc).mpr hin) (haltCondition_of_pcZero hon hz _))
  case illegal =>
    exact sequentialStep_of_fault hf hs (fetchInstr_of_illegal ((s.inWindow_eq_true_iff s.pc).mpr hin) hz hillegal)

end Sys2Proof.Machine
end

section
/-! O59: a clock edge that fetches the sentinel with nothing in flight (spec/44_control_transfer.md R198;
spec/45_pipeline_stages.md R214). -/

namespace Sys2Proof

/-- R390: a valid parameter set resets the pc inside the window. -/
theorem Config.resetPc_lt_of_check {c : Config} (h : c.check = none) : c.resetPc.toNat < c.memSize := by
  simp only [Config.check, ite_some_eq_none_iff, not_le] at h
  obtain ⟨-, -, -, -, -, -, -, -, -, -, -, -, hpc, -⟩ := h
  exact hpc

namespace Machine

/-! ### Stages with nothing to do -/

/-- R299: with no fill, no buffered line and no request the memory side does nothing. -/
theorem memorySide_none_of_idle {s : State} (hidle : s.fill.active = false) (hempty : s.wbuf = []) :
    memorySide s .none = .ok (s, .noAnswer) := by
  by_cases hon : s.cfg.cached = true
  · have hdrain : drainOne s = s := by simp [drainOne, hempty]
    simp [memorySide, hon, cacheCycle, hdrain, fillTick, hidle, lookup]
  · exact memorySide_of_uncached (by simpa using hon) .none

theorem memRequest_of_bubble {s : State} (h : s.exmem = Latch.bubble) : memRequest s = .ok .none := by
  simp [memRequest, h, Latch.bubble]

theorem decodeStage_of_bubble {s : State} (h : s.ifid = Latch.bubble) (memStall : Bool) :
    decodeStage s memStall = .ok { prop := Latch.bubble, idStall := false, taken := false, target := 0 } := by
  simp [decodeStage, h, Latch.bubble]

theorem writeback_of_bubble {s : State} (h : s.memwb = Latch.bubble) : writeback s = s := by
  simp [writeback, wbEn, h, Latch.bubble]

theorem exProposal_of_bubble {s : State} (h : s.idex = Latch.bubble) : exProposal s = Latch.bubble := by
  simp [exProposal, h, Latch.bubble]

theorem haltCondition_of_haltWord {s : State} {w : Word} (h : w = s.cfg.haltWord) : haltCondition s w = true := by
  simp [haltCondition, h]

/-! ### The whole edge -/

/-- No instruction, fill or write-back is in flight (R55, but for the fetch that goes on). -/
structure State.NothingInFlight (s : State) : Prop where
  ifid : s.ifid = Latch.bubble
  idex : s.idex = Latch.bubble
  exmem : s.exmem = Latch.bubble
  memwb : s.memwb = Latch.bubble
  fill : s.fill.active = false
  wbuf : s.wbuf = []

theorem State.ofConfig_nothingInFlight (c : Config) (mem : Memory) : (State.ofConfig c mem).NothingInFlight := by
  constructor <;> rfl

namespace State.NothingInFlight

variable {s : State}

/-- R55: with nothing in flight, halted is fetch stopped without a fault. -/
theorem halted_eq (h : s.NothingInFlight) : s.halted = (s.fetchStopped && s.fault = .none) := by
  simp [State.halted, h.ifid, h.idex, h.exmem, h.memwb, h.fill, h.wbuf, Latch.bubble]

theorem stopped (h : s.NothingInFlight) : State.NothingInFlight { s with fetchStopped := true } :=
  ⟨h.ifid, h.idex, h.exmem, h.memwb, h.fill, h.wbuf⟩

/-- R214, R271: the commit of an accepted fetch of the sentinel: bubbles move down, the pc holds, fetch stops. -/
theorem commit_of_isHalt (h : s.NothingInFlight) {fetch : FetchOut} (hhalt : fetch.isHalt = true) :
    commit s s .noAnswer { prop := Latch.bubble, idStall := false, taken := false, target := 0 } fetch =
      { s with fetchStopped := true } := by
  simp [commit, hhalt, nextPc, nextIfid, nextIdex, nextExmem, nextMemwb, memProposal, writeback_of_bubble h.memwb,
    exProposal_of_bubble h.idex, h.ifid, h.idex, h.exmem, h.memwb]

/-- R350: no stage but Fetch has anything to do, and Fetch finds the sentinel. -/
theorem cycle_of_haltCondition (h : s.NothingInFlight) (hs : s.fetchStopped = false) (hw : s.inWindow s.pc = true)
    (hhalt : haltCondition s (s.ifetchRead s.pc) = true) : cycle s = .ok { s with fetchStopped := true } := by
  have hfetch : fetchStage s s true = .ok { isHalt := true, prop := ifProposal s (s.ifetchRead s.pc) } := by
    simp [fetchStage, hw, hhalt]
  have haccept : acceptFetch s false false false = true := by simp [acceptFetch, hs]
  simp only [cycle, memRequest_of_bubble h.exmem, memorySide_none_of_idle h.fill h.wbuf, decodeStage_of_bubble h.ifid,
    reduceCtorEq, decide_false, haccept, hfetch]
  exact congrArg Except.ok (h.commit_of_isHalt rfl)

theorem clockEdge_of_haltCondition (h : s.NothingInFlight) (hf : s.fault = .none) (hs : s.fetchStopped = false)
    (hw : s.inWindow s.pc = true) (hhalt : haltCondition s (s.ifetchRead s.pc) = true) :
    clockEdge s = { s with fetchStopped := true } := by
  simp [clockEdge, s.faulted_eq_false_iff.mpr hf, h.halted_eq, hs, h.cycle_of_haltCondition hs hw hhalt]

end State.NothingInFlight

/-- Settles O59: at reset nothing is in flight, and the fetch at the reset pc finds the sentinel. -/
theorem sentinelAloneHaltsInOneCycle : Obligations.SentinelAloneHaltsInOneCycle := by
  intro c mem hcheck hsentinel
  have hempty := State.ofConfig_nothingInFlight c mem
  have hin : (State.ofConfig c mem).inWindow c.resetPc = true :=
    ((State.ofConfig c mem).inWindow_eq_true_iff c.resetPc).mpr (Config.resetPc_lt_of_check hcheck)
  have hhalt : haltCondition (State.ofConfig c mem) ((State.ofConfig c mem).ifetchRead c.resetPc) = true :=
    haltCondition_of_haltWord hsentinel
  have hedge := hempty.clockEdge_of_haltCondition rfl rfl hin hhalt
  refine ⟨?_, hedge⟩
  rw [hedge, hempty.stopped.halted_eq]
  rfl

end Machine

end Sys2Proof
end

section
/-! O31: the register file at a clock edge (spec/45_pipeline_stages.md R250). -/

namespace Sys2Proof.Machine

open Sys2Proof

/-- R250: all that Writeback does to the register file. -/
theorem readReg_writeback (s : State) (r : RegIdx) :
    (writeback s).readReg r =
      if s.memwb.valid = true ∧ s.memwb.ctrl.regWrite = true ∧ r ≠ 0 ∧ r = s.memwb.dest then s.memwb.wbval
      else s.readReg r := by
  by_cases hen : wbEn s = true
  · obtain ⟨hv, hw⟩ := Bool.and_eq_true_iff.mp hen
    simp [writeback, hen, hv, hw, State.readReg_writeReg, and_comm]
  · have hnot : ¬ (s.memwb.valid = true ∧ s.memwb.ctrl.regWrite = true) := mt Bool.and_eq_true_iff.mpr hen
    rw [writeback, if_neg hen, if_neg fun ⟨hv, hw, _⟩ => hnot ⟨hv, hw⟩]

/-- R350: a cycle that raises no fault is the whole edge of a running machine. -/
theorem clockEdge_of_cycle_ok {s t : State} (hfault : s.fault = .none) (hhalted : s.halted = false)
    (hcycle : cycle s = .ok t) : clockEdge s = t := by
  simp [clockEdge, s.faulted_eq_false_iff.mpr hfault, hhalted, hcycle]

theorem cycle_x {s t : State} (h : cycle s = .ok t) : t.x = (writeback s).x := by
  obtain ⟨req, after, answer, id, fetch, -, -, -, -, rfl⟩ := cycle_ok h
  exact commit_x ..

/-- R383, R350 step 0: without a commit the register file stays. -/
theorem clockEdge_x_of_no_commit {s : State} (h : s.fault ≠ .none ∨ s.halted = true ∨ ∃ f, cycle s = .error f) :
    (clockEdge s).x = s.x := by
  rcases clockEdge_cases s with ⟨-, hedge⟩ | ⟨hf, hh, t, hcycle, -⟩ | ⟨-, -, f, -, hedge⟩
  · rw [hedge]
  · rcases h with hfault | hhalted | ⟨f, herror⟩
    · exact absurd (s.faulted_eq_false_iff.mp hf) hfault
    · cases hh.symm.trans hhalted
    · cases hcycle.symm.trans herror
  · rw [hedge, State.raise_x]

/-- Settles O31: the commit takes the register file that Writeback leaves, and nothing else changes it. -/
theorem writebackIsTheOnlyRegisterWriter : Obligations.WritebackIsTheOnlyRegisterWriter := fun s =>
  ⟨fun _ hfault hhalted hcycle => ⟨clockEdge_of_cycle_ok hfault hhalted hcycle,
      fun r => (State.readReg_congr (cycle_x hcycle) r).trans (readReg_writeback s r)⟩,
    clockEdge_x_of_no_commit⟩

end Sys2Proof.Machine
end

section
/-! O32: the transfers that Decode resolves (spec/45_pipeline_stages.md R224 to R226). -/

namespace Sys2Proof.Machine

open Sys2Proof

/-! ### Operands (R224) -/

/-- R224: once its operands are ready, what Decode latches for a source of a transfer is the operand itself. -/
theorem transferOperand_of_opsReady {s : State} {i : Instr} {r : RegIdx} (hready : opsReady s i = true)
    (hr : r ∈ transferSources i) : transferOperand s r = some (decodeOperand s i r) := by
  obtain ⟨v, hv⟩ := Option.isSome_iff_exists.mp (List.all_eq_true.mp hready r hr)
  simp [decodeOperand, needsOperand, hr, hv]

/-! ### The fields of a decoded word (R101, R102) -/

theorem rsOf_of_decode_jr {w : Word} {rs rt rd : RegIdx} {shamt : Shamt} (h : decode w = .ok (.jr rs rt rd shamt)) :
    rsOf w = rs := by
  rw [← encode_of_decode 0 h]
  exact rsOf_encodeR ..

/-- The register fields of the words that decode to an I-format instruction. -/
theorem registers_of_decode_of_encodeI {w : Word} {i : Instr} {opcode : BitVec 6} {rs rt : RegIdx} {imm : Imm16}
    (h : decode w = .ok i) (hi : encode 0 i = encodeI opcode rs rt imm) : rsOf w = rs ∧ rtOf w = rt := by
  rw [← encode_of_decode 0 h, hi]
  exact ⟨rsOf_encodeI .., rtOf_encodeI ..⟩

/-! ### Resolution (R225, R226) -/

section Resolve

variable {s : State} {memStall : Bool} {o : DecodeOut} {i : Instr}

/-- R220 to R228: what Decode hands on for an instruction, as `decodeStage_cases`. -/
theorem decodeStage_of_decode (hv : s.ifid.valid = true) (hi : decode s.ifid.instr = .ok i)
    (h : decodeStage s memStall = .ok o) :
    o.idStall = (loadUse s i || brWait s i) ∧
    o.taken = (!memStall && !o.idStall &&
      transferCond i (decodeOperand s i (rsOf s.ifid.instr)) (decodeOperand s i (rtOf s.ifid.instr))) ∧
    o.target = transferTarget i s.ifid.pc4 (decodeOperand s i (rsOf s.ifid.instr)) ∧
    o.prop = idProposal s i o.taken := by
  rcases decodeStage_cases h with ⟨hbubble, -⟩ | ⟨-, j, hj, hstall, htaken, htarget, hprop⟩
  · cases hbubble.symm.trans hv
  · obtain rfl := Except.ok.inj (hj.symm.trans hi)
    exact ⟨hstall, hstall ▸ htaken, htarget, hprop⟩

theorem opsReady_of_no_stall (hstall : o.idStall = (loadUse s i || brWait s i)) (hno : o.idStall = false) :
    opsReady s i = true := by
  rw [hstall, Bool.or_eq_false_iff] at hno
  simpa [brWait] using hno.2

end Resolve

/-- The operands of a branch are equal exactly if the words Decode latches for them are. -/
theorem transferOperand_eq_iff {s : State} {i : Instr} {rs rt : RegIdx} (hready : opsReady s i = true)
    (hi : transferSources i = [rs, rt]) :
    transferOperand s rs = transferOperand s rt ↔ decodeOperand s i rs = decodeOperand s i rt := by
  rw [transferOperand_of_opsReady hready (r := rs) (by simp [hi]),
    transferOperand_of_opsReady hready (r := rt) (by simp [hi]), Option.some.injEq]

/-- Settles O32: a bubble and a stall resolve nothing; without a stall the operands are ready, and each transfer's condition
and target are read off its row. -/
theorem transfersResolveInDecode : Obligations.TransfersResolveInDecode := by
  refine ⟨fun s memStall o hbubble h => ?bubble, fun s memStall o i hv hi h => ?instruction⟩
  case bubble =>
    rcases decodeStage_cases h with ⟨-, rfl⟩ | ⟨hv, -⟩
    · rfl
    · cases hbubble.symm.trans hv
  case instruction =>
    obtain ⟨hstall, htaken, htarget, hprop⟩ := decodeStage_of_decode hv hi h
    refine ⟨fun ht => ?stalled, fun hmem hid => ?resolved, by simp [hprop, idProposal]⟩
    case stalled =>
      have hall := htaken.symm.trans ht
      simp only [Bool.and_eq_true, Bool.not_eq_true'] at hall
      exact hall.1
    case resolved =>
      have hready := opsReady_of_no_stall hstall hid
      rw [hmem, hid, Bool.not_false, Bool.true_and, Bool.true_and] at htaken
      cases i with
      | j jaddr => exact ⟨htaken, htarget ▸ jumpTarget_toNat ..⟩
      | jr rs rt rd shamt =>
        rw [rsOf_of_decode_jr hi] at htarget
        exact ⟨htaken, htarget ▸ (transferOperand_of_opsReady hready List.mem_cons_self).symm⟩
      | beq rs rt imm =>
        obtain ⟨hrs, hrt⟩ := registers_of_decode_of_encodeI hi rfl
        rw [hrs, hrt] at htaken
        exact ⟨by rw [htaken, transferOperand_eq_iff hready rfl, transferCond, beq_iff_eq],
          fun _ => htarget ▸ toNat_branchTarget ..⟩
      | bne rs rt imm =>
        obtain ⟨hrs, hrt⟩ := registers_of_decode_of_encodeI hi rfl
        rw [hrs, hrt] at htaken
        exact ⟨by rw [htaken, ne_eq, transferOperand_eq_iff hready rfl, transferCond, bne_iff_ne],
          fun _ => htarget ▸ toNat_branchTarget ..⟩
      | _ => exact htaken

end Sys2Proof.Machine
end

section
/-! O35: an accepted fetch inside the window (spec/45_pipeline_stages.md R212 to R214). -/

namespace Sys2Proof.Machine

open Sys2Proof

/-- R350 steps 1 to 7, from the stages to the cycle; `cycle_ok` is the converse. -/
theorem cycle_of_stages {s after : State} {req : Request} {ans : Answer} {o : DecodeOut} {fetch : FetchOut}
    (hreq : memRequest s = .ok req) (hside : memorySide s req = .ok (after, ans))
    (hdecode : decodeStage s (decide (ans = .miss)) = .ok o)
    (hfetch : fetchStage s after (acceptFetch s (decide (ans = .miss)) o.idStall o.taken) = .ok fetch) :
    cycle s = .ok (commit s after ans o fetch) := by
  simp [cycle, hreq, hside, hdecode, hfetch]

theorem State.halted_eq_false_of_running {s : State} (h : s.fetchStopped = false) : s.halted = false := by
  simp [State.halted, h]

/-- R211, R212, R214: an accepted fetch inside the window finds the word at `pc` as the memory side left it. -/
theorem fetchStage_accepted {s : State} (after : State) (hw : s.pc.toNat < s.cfg.memSize) :
    fetchStage s after true =
      .ok { isHalt := haltCondition s (after.backRead s.pc), prop := ifProposal s (after.backRead s.pc) } := by
  simp [fetchStage, (s.inWindow_eq_true_iff s.pc).mpr hw, State.ifetchRead]

/-- R214. -/
theorem haltCondition_iff (s : State) (w : Word) :
    haltCondition s w = true ↔ w = s.cfg.haltWord ∨ (s.cfg.haltOnPcZero = true ∧ s.pc = 0) := by
  simp [haltCondition]

/-- R272, R273: what a commit with no stall and no taken transfer leaves at the front of a running pipeline. -/
theorem commit_front {s after : State} {ans : Answer} {o : DecodeOut} {fetch : FetchOut} (hans : ans ≠ .miss)
    (hstall : o.idStall = false) (htaken : o.taken = false) (hrun : s.fetchStopped = false) :
    (commit s after ans o fetch).fetchStopped = fetch.isHalt ∧
    (commit s after ans o fetch).pc = (if fetch.isHalt then s.pc else s.pc + 4) ∧
    (commit s after ans o fetch).ifid = if fetch.isHalt then Latch.bubble else fetch.prop := by
  simp [commit, nextPc, nextIfid, hans, hstall, htaken, hrun]

/-- Settles O35: the edge is the commit of the accepted fetch, whose word is the sentinel or not. -/
theorem acceptedFetch : Obligations.AcceptedFetch := by
  intro s after req ans o hfault hreq hside hans hdecode hstall htaken hrun hin
  have haccept : acceptFetch s (decide (ans = .miss)) o.idStall o.taken = true := by
    simp [acceptFetch, hrun, hans, hstall, htaken]
  have hcycle := cycle_of_stages hreq hside (by rwa [decide_eq_false hans])
    (haccept ▸ fetchStage_accepted after hin)
  have hedge := clockEdge_of_cycle_ok hfault (State.halted_eq_false_of_running hrun) hcycle
  obtain ⟨hstopped, hpc, hifid⟩ := commit_front (after := after) (fetch := ⟨_, _⟩) hans hstall htaken hrun
  rw [hedge, hstopped, hpc, hifid, ← haltCondition_iff]
  exact ⟨fun hhalt => by simp [hhalt], fun hword => by simp [hword, ifProposal, State.pc4]⟩

end Sys2Proof.Machine
end

section
/-! O37: Execute and the sequential meaning compute the same value (spec/45_pipeline_stages.md R230 to R233). -/

namespace Sys2Proof.Machine

open Sys2Proof

/-- At `s` Execute holds `i`, which writes register `d` and not 0, and at `u` the registers that `i` reads hold the operands
forwarded at `s` (R230). -/
structure ExecutesFrom (s u : State) (i : Instr) (d : RegIdx) : Prop where
  valid : s.idex.valid = true
  decoded : s.idex.Decoded
  decode : decode s.idex.instr = .ok i
  writes : destOf i = some d
  nonzero : d ≠ 0
  operands : ∀ r ∈ readSet i,
    (r = rsOf s.idex.instr → u.readReg r = operandA s) ∧ (r = rtOf s.idex.instr → u.readReg r = operandB s)

/-- What `i` writes to `d` at `u` is what Execute proposes for `d` at `s`. -/
def MeaningIsExecuted (s u : State) (i : Instr) (d : RegIdx) : Prop :=
  ∃ t, exec i u = .next t ∧ t.readReg d = (exProposal s).aluResult ∧ (exProposal s).dest = d

namespace ExecutesFrom

variable {s u : State} {i : Instr} {d : RegIdx}

/-- R231 to R233: what Execute proposes, from the instruction instead of from the fields of the latch. -/
theorem proposal (h : ExecutesFrom s u i d) :
    (exProposal s).aluResult = alu (controlOf i).aluOp (operandA s)
      (if (controlOf i).aluSrc then immextOf i else operandB s) (shamtOf s.idex.instr) ∧
    (exProposal s).dest = if (controlOf i).regDst then rdOf s.idex.instr else rtOf s.idex.instr := by
  obtain ⟨j, hj, -, -, hrt, hrd, hshamt, -, -, -, himm, hctrl, -⟩ := h.decoded h.valid
  obtain rfl := Except.ok.inj (hj.symm.trans h.decode)
  have hop : s.idex.ctrl.aluOp = (controlOf j).aluOp := by rw [hctrl]
  have hsrc : s.idex.ctrl.aluSrc = (controlOf j).aluSrc := by rw [hctrl]
  have hdst : s.idex.ctrl.regDst = (controlOf j).regDst := by rw [hctrl]
  simp [exProposal, h.valid, captured, operand2, Latch.dest, hop, hsrc, hdst, himm, hshamt, hrt, hrd]

theorem meaningIsExecuted (h : ExecutesFrom s u i d) {v : Word} (hexec : exec i u = .next (u.writeResult d v))
    (hv : v = (exProposal s).aluResult) (hdest : (exProposal s).dest = d) : MeaningIsExecuted s u i d :=
  ⟨_, hexec, by rw [State.readReg_writeResult, State.readReg_writeReg_same _ _ _ h.nonzero, hv], hdest⟩

end ExecutesFrom

/-! ### R-format (R131 to R140, R151 to R153) -/

section Register

variable {mk : RegIdx → RegIdx → RegIdx → Shamt → Instr} {funct : BitVec 6} {op : AluOp} {s u : State}
  {rs rt rd d : RegIdx} {shamt : Shamt}

/-- Execute computes an R-format result, if the ALU computes it from the operands that the instruction reads. -/
theorem RegisterRow.meaningIsExecuted {reads : RegIdx → RegIdx → List RegIdx} {result : Word → Word → Shamt → Word}
    (hrow : RegisterRow mk funct op reads result) (h : ExecutesFrom s u (mk rs rt rd shamt) d)
    (hdest : destOf (mk rs rt rd shamt) = some rd)
    (halu : (rs ∈ reads rs rt → u.readReg rs = operandA s) → (rt ∈ reads rs rt → u.readReg rt = operandB s) →
      result (u.readReg rs) (u.readReg rt) shamt = alu op (operandA s) (operandB s) shamt) :
    MeaningIsExecuted s u (mk rs rt rd shamt) d := by
  obtain rfl := Option.some.inj (hdest.symm.trans h.writes)
  obtain ⟨hdecode, hctrl, hreads, hexec⟩ := hrow rs rt rd shamt
  have hword : s.idex.instr = encodeR rs rt rd shamt funct :=
    (encode_of_decode 0 h.decode).symm.trans (encode_of_decodeFunct 0 hdecode)
  obtain ⟨hresult, hfield⟩ := h.proposal
  have hoperands := h.operands
  rw [hword, hctrl] at hresult hfield
  rw [hword, hreads, rsOf_encodeR, rtOf_encodeR] at hoperands
  refine h.meaningIsExecuted (hexec u) ?_ (hfield.trans (rdOf_encodeR ..))
  rw [hresult, shamtOf_encodeR]
  exact halu (fun hr => (hoperands rs hr).1 rfl) fun hr => (hoperands rt hr).2 rfl

theorem RegisterRow.meaningIsExecuted_of_both {result : Word → Word → Shamt → Word}
    (hrow : RegisterRow mk funct op (fun rs rt => [rs, rt]) result) (h : ExecutesFrom s u (mk rs rt rd shamt) d)
    (hdest : destOf (mk rs rt rd shamt) = some rd) (halu : ∀ a b, result a b shamt = alu op a b shamt) :
    MeaningIsExecuted s u (mk rs rt rd shamt) d :=
  hrow.meaningIsExecuted h hdest fun ha hb => by rw [ha (by simp), hb (by simp), halu]

/-- A shift reads `rt` alone (R150). -/
theorem RegisterRow.meaningIsExecuted_of_rt {result : Word → Shamt → Word}
    (hrow : RegisterRow mk funct op (fun _ rt => [rt]) (fun _ b shamt => result b shamt))
    (h : ExecutesFrom s u (mk rs rt rd shamt) d) (hdest : destOf (mk rs rt rd shamt) = some rd)
    (halu : ∀ a b, result b shamt = alu op a b shamt) : MeaningIsExecuted s u (mk rs rt rd shamt) d :=
  hrow.meaningIsExecuted h hdest fun _ hb => by rw [hb (by simp), halu]

end Register

/-! ### I-format (R161 to R168) -/

section Immediate

variable {mk : RegIdx → RegIdx → Imm16 → Instr} {opcode : BitVec 6} {op : AluOp} {s u : State} {rs rt d : RegIdx}
  {imm : Imm16}

/-- A row of the opcode map (R111) that does not read the jump address field has I-format words. -/
theorem encode_of_decodeOpcode_row {i : Instr} (h : ∀ jaddr, decodeOpcode opcode rs rt imm jaddr = some i) :
    encode 0 i = encodeI opcode rs rt imm := by
  rcases encode_of_decodeOpcode 0 (h 0) with hI | ⟨rfl, -⟩
  · exact hI
  · have hj : some (Instr.j 0) = some (Instr.j 1) := (h 0).trans (h 1).symm
    exact absurd hj (by decide)

/-- Execute computes an I-format result, if the ALU computes it from the extended immediate and the operand that the
instruction reads. -/
theorem ImmediateRow.meaningIsExecuted {reads : RegIdx → List RegIdx} {result : Word → Imm16 → Word}
    (hrow : ImmediateRow mk opcode op reads result) (h : ExecutesFrom s u (mk rs rt imm) d)
    (hdest : destOf (mk rs rt imm) = some rt)
    (halu : (rs ∈ reads rs → u.readReg rs = operandA s) →
      ∀ shamt, result (u.readReg rs) imm = alu op (operandA s) (immextOf (mk rs rt imm)) shamt) :
    MeaningIsExecuted s u (mk rs rt imm) d := by
  obtain rfl := Option.some.inj (hdest.symm.trans h.writes)
  obtain ⟨hdecode, hctrl, hreads, hexec⟩ := hrow rs rt imm
  have hword : s.idex.instr = encodeI opcode rs rt imm :=
    (encode_of_decode 0 h.decode).symm.trans (encode_of_decodeOpcode_row hdecode)
  obtain ⟨hresult, hfield⟩ := h.proposal
  have hoperands := h.operands
  rw [hctrl] at hresult hfield
  rw [hword] at hfield
  rw [hword, hreads, rsOf_encodeI] at hoperands
  refine h.meaningIsExecuted (hexec u) ?_ (hfield.trans (rtOf_encodeI ..))
  rw [hresult]
  exact halu (fun hr => (hoperands rs hr).1 rfl) _

theorem ImmediateRow.meaningIsExecuted_of_rs {result : Word → Imm16 → Word}
    (hrow : ImmediateRow mk opcode op (fun rs => [rs]) result) (h : ExecutesFrom s u (mk rs rt imm) d)
    (hdest : destOf (mk rs rt imm) = some rt)
    (halu : ∀ a shamt, result a imm = alu op a (immextOf (mk rs rt imm)) shamt) :
    MeaningIsExecuted s u (mk rs rt imm) d :=
  hrow.meaningIsExecuted h hdest fun ha shamt => by rw [ha (by simp), halu]

end Immediate

/-- Each instruction that writes a register without loading, by its row and the ALU's operation in that row. -/
theorem ExecutesFrom.meaningIsExecuted_of_not_load {s u : State} {i : Instr} {d : RegIdx} (h : ExecutesFrom s u i d)
    (hload : ∀ rs rt imm, i ≠ .lw rs rt imm) : MeaningIsExecuted s u i d := by
  cases i with
  | add => exact add_row.meaningIsExecuted_of_both h rfl fun _ _ => rfl
  | addu => exact addu_row.meaningIsExecuted_of_both h rfl fun _ _ => rfl
  | sub => exact sub_row.meaningIsExecuted_of_both h rfl fun _ _ => rfl
  | subu => exact subu_row.meaningIsExecuted_of_both h rfl fun _ _ => rfl
  | and => exact and_row.meaningIsExecuted_of_both h rfl fun _ _ => rfl
  | or => exact or_row.meaningIsExecuted_of_both h rfl fun _ _ => rfl
  | xor => exact xor_row.meaningIsExecuted_of_both h rfl fun _ _ => rfl
  | nor => exact nor_row.meaningIsExecuted_of_both h rfl fun _ _ => rfl
  | slt => exact slt_row.meaningIsExecuted_of_both h rfl fun _ _ => rfl
  | sltu => exact sltu_row.meaningIsExecuted_of_both h rfl fun _ _ => rfl
  | sll => exact sll_row.meaningIsExecuted_of_rt h rfl fun _ _ => rfl
  | srl => exact srl_row.meaningIsExecuted_of_rt h rfl fun _ _ => rfl
  | sra => exact sra_row.meaningIsExecuted_of_rt h rfl fun _ _ => rfl
  | addi => exact addi_row.meaningIsExecuted_of_rs h rfl fun _ _ => rfl
  | addiu => exact addiu_row.meaningIsExecuted_of_rs h rfl fun _ _ => rfl
  | slti => exact slti_row.meaningIsExecuted_of_rs h rfl fun _ _ => rfl
  | sltiu => exact sltiu_row.meaningIsExecuted_of_rs h rfl fun _ _ => rfl
  | andi => exact andi_row.meaningIsExecuted_of_rs h rfl fun _ _ => rfl
  | ori => exact ori_row.meaningIsExecuted_of_rs h rfl fun _ _ => rfl
  | xori => exact xori_row.meaningIsExecuted_of_rs h rfl fun _ _ => rfl
  | lui => exact lui_row.meaningIsExecuted h rfl fun _ _ => rfl
  | lw => exact (hload _ _ _ rfl).elim
  | sw | beq | bne | j | jr | halt => cases h.writes

/-- Settles O37, by the rows of the instructions. -/
theorem executeAgreesWithMeaning : Obligations.ExecuteAgreesWithMeaning :=
  fun _ _ _ _ hvalid hdecoded hdecode hwrites hnonzero hload hoperands =>
    ExecutesFrom.meaningIsExecuted_of_not_load ⟨hvalid, hdecoded, hdecode, hwrites, hnonzero, hoperands⟩ hload

end Sys2Proof.Machine
end

section
/-! O33, O34: the stall and the taken transfer of Decode, at a clock edge without a memory stall (spec/46_hazard_unit.md R262 to
R265). -/

namespace Sys2Proof.Machine

open Sys2Proof

/-! ### When Decode stalls -/

theorem Latch.writes_iff (l : Latch) (r : RegIdx) :
    l.writes r = true ↔ l.valid = true ∧ l.ctrl.regWrite = true ∧ l.dest = r := by
  simp [Latch.writes, and_assoc]

theorem readsReg_iff (i : Instr) (r : RegIdx) : readsReg i r = true ↔ r ≠ 0 ∧ r ∈ readSet i := by simp [readsReg]

/-- R262. -/
theorem loadUse_iff (s : State) (i : Instr) : loadUse s i = true ↔
    s.idex.valid = true ∧ s.idex.ctrl.memRead = true ∧ s.idex.dest ≠ 0 ∧ s.idex.dest ∈ readSet i := by
  simp [loadUse, readsReg_iff, and_assoc]

/-- R224: a source of a transfer is not ready while Execute produces it or Memory loads it. -/
theorem transferOperand_eq_none_iff (s : State) (r : RegIdx) : transferOperand s r = none ↔
    r ≠ 0 ∧ (s.idex.writes r = true ∨ (s.exmem.writes r = true ∧ s.exmem.ctrl.memRead = true)) := by
  by_cases hr : r = 0#5
  · simp [transferOperand, hr]
  · cases hidex : s.idex.writes r <;> cases hexmem : s.exmem.writes r <;> simp [transferOperand, hr, hidex, hexmem]

/-- R263. -/
theorem brWait_iff (s : State) (i : Instr) : brWait s i = true ↔ ∃ r ∈ transferSources i, transferOperand s r = none := by
  simp [brWait, opsReady]

/-! ### What the edge commits -/

/-- R213, R350: a stall or a taken transfer keeps Fetch out, so that the edge is a commit whatever stands at `pc`. -/
theorem clockEdge_of_fetch_refused {s after : State} {req : Request} {ans : Answer} {o : DecodeOut}
    (hfault : s.fault = .none) (hhalted : s.halted = false) (hreq : memRequest s = .ok req)
    (hside : memorySide s req = .ok (after, ans)) (hdecode : decodeStage s (decide (ans = .miss)) = .ok o)
    (hrefused : ans = .miss ∨ o.idStall = true ∨ o.taken = true) :
    clockEdge s = commit s after ans o { isHalt := false, prop := Latch.bubble } := by
  have haccept : acceptFetch s (decide (ans = .miss)) o.idStall o.taken = false := by
    rcases hrefused with hmiss | hstall | htaken
    · simp [acceptFetch, hmiss]
    · simp [acceptFetch, hstall]
    · simp [acceptFetch, htaken]
  have hfetch : fetchStage s after false = .ok { isHalt := false, prop := Latch.bubble } := rfl
  exact clockEdge_of_cycle_ok hfault hhalted (cycle_of_stages hreq hside hdecode (haccept ▸ hfetch))

/-- R225: only an instruction is taken, and only in a cycle without a stall. -/
theorem decodeStage_taken {s : State} {memStall : Bool} {o : DecodeOut} (h : decodeStage s memStall = .ok o)
    (htaken : o.taken = true) :
    s.ifid.valid = true ∧ memStall = false ∧ o.idStall = false ∧ ∃ i, o.prop = idProposal s i true := by
  rcases decodeStage_cases h with ⟨-, rfl⟩ | ⟨hv, i, hi, -, -, -, hprop⟩
  · cases htaken
  · obtain ⟨-, hresolves⟩ := transfersResolveInDecode
    obtain ⟨hstalls, -, -⟩ := hresolves s memStall o i hv hi h
    obtain ⟨hmem, hid⟩ := hstalls htaken
    exact ⟨hv, hmem, hid, i, htaken ▸ hprop⟩

/-- Settles O33: the stall is `loaduse` or `br_wait`, each by its registers, and the edge is the commit of a refused fetch. -/
theorem decodeStalls : Obligations.DecodeStalls := by
  refine fun s i hv hi => ⟨fun memStall o h => ?stalls, fun req after ans o hfault hreq hside hans h hstall => ?holds⟩
  case stalls =>
    obtain ⟨hstall, -⟩ := decodeStage_of_decode hv hi h
    simp only [hstall, Bool.or_eq_true, loadUse_iff, brWait_iff, transferOperand_eq_none_iff, Latch.writes_iff, and_assoc]
  case holds =>
    rw [← decide_eq_false hans] at h
    rw [clockEdge_of_fetch_refused hfault (State.halted_eq_false_of_ifid hv) hreq hside h (.inr (.inl hstall))]
    simp [commit, nextPc, nextIfid, nextIdex, nextExmem, nextMemwb, hans, hstall]

/-- Settles O34: the edge is the commit of a refused fetch, so that the word at `pc` leaves no trace in it. -/
theorem takenTransferSquashes : Obligations.TakenTransferSquashes := by
  intro s after req ans o hfault hreq hside h htaken
  obtain ⟨hv, hmem, hstall, i, hprop⟩ := decodeStage_taken h htaken
  have hans : ans ≠ .miss := of_decide_eq_false hmem
  have hkept : after.fault = s.fault := by rw [memorySide_frame hside]
  rw [clockEdge_of_fetch_refused hfault (State.halted_eq_false_of_ifid hv) hreq hside h (.inr (.inr htaken))]
  simp [commit, nextPc, nextIfid, nextIdex, nextExmem, nextMemwb, hans, hstall, htaken, hkept, hfault, hprop,
    idProposal]

end Sys2Proof.Machine
end

section
/-! O36: the memory stall (spec/46_hazard_unit.md R266, R270). -/

namespace Sys2Proof.Machine

open Sys2Proof

/-- R240: no request is made but for a load or a store in Memory. -/
theorem memRequest_ne_none {s : State} {req : Request} (h : memRequest s = .ok req) (hne : req ≠ .none) :
    s.exmem.valid = true ∧ (s.exmem.ctrl.memRead = true ∨ s.exmem.ctrl.memWrite = true) := by
  rcases memRequest_cases s with ⟨he, -⟩ | ⟨he, -⟩ | ⟨-, hv, hr, -⟩ | ⟨-, hv, -, hw, -⟩
  · exact absurd (Except.ok.inj (h.symm.trans he)) hne
  · cases h.symm.trans he
  · exact ⟨hv, .inl hr⟩
  · exact ⟨hv, .inr hw⟩

/-- R240: the request is a function of the latch and the window. -/
theorem memRequest_congr {s t : State} (hcfg : t.cfg = s.cfg) (hexmem : t.exmem = s.exmem) :
    memRequest t = memRequest s := by
  simp [memRequest, State.inWindow, hcfg, hexmem]

/-- R113: no store writes a register. -/
theorem Latch.Decoded.regWrite_of_memWrite {l : Latch} (h : l.Decoded) (hv : l.valid = true)
    (hw : l.ctrl.memWrite = true) : l.ctrl.regWrite = false := by
  obtain ⟨i, -, -, -, -, -, -, -, -, -, -, hctrl, -⟩ := h hv
  rw [hctrl] at hw ⊢
  cases i with
  | sw => rfl
  | _ => cases hw

/-- R230, R270: while Memory holds a load or a store, nothing is forwarded from it. -/
theorem forward_of_access {s : State} (hl : s.exmem.Decoded) (hv : s.exmem.valid = true)
    (haccess : s.exmem.ctrl.memRead = true ∨ s.exmem.ctrl.memWrite = true) (r : RegIdx) (old : Word) :
    forward s r old = if r ≠ 0 ∧ s.memwb.writes r = true then s.memwb.wbval else old := by
  have hno : (s.exmem.writes r && !s.exmem.ctrl.memRead) = false := by
    rcases haccess with hr | hw
    · simp [hr]
    · simp [Latch.writes, hl.regWrite_of_memWrite hv hw]
  by_cases hr : r = 0#5
  · simp [forward, hr]
  · simp [forward, hr, hno]

/-- Settles O36: the edge is the commit of a refused fetch with the stall's row of the policy (R271). -/
theorem memoryStallHolds : Obligations.MemoryStallHolds := by
  intro s after req o hok hfault hreq hside hdecode
  have hne : req ≠ .none := fun hnone => by cases (memorySide_answer hside).mpr hnone
  obtain ⟨hv, haccess⟩ := memRequest_ne_none hreq hne
  have hhalted : s.halted = false := by simp [State.halted, hv]
  have hcfg : after.cfg = s.cfg := by rw [memorySide_frame hside]
  have hforward := forward_of_access hok.latches.exmem hv haccess
  simp only [Latch.writes_iff] at hforward
  rw [clockEdge_of_fetch_refused hfault hhalted hreq hside hdecode (.inl rfl)]
  refine ⟨rfl, rfl, rfl, rfl, rfl, hforward, ?_, rfl, rfl, rfl, rfl, rfl⟩
  exact (memRequest_congr (by rw [commit_cfg, hcfg]) (by simp)).trans hreq

end Sys2Proof.Machine
end

section
/-! O60, the memory side: what a cycle of it does to the backing store, which Fetch reads (spec/20_memory.md R79, R81), and
what a read hit answers (spec/48_write_buffer.md R345). -/

namespace Sys2Proof.Machine

open Sys2Proof

section Cached

variable {s : State} (hc : s.cfg.check = none) (hon : s.cfg.cached = true) (h : MemorySideOk s)

include hc hon h

/-- R317 f: no line of the cache holds a block that is buffered. -/
theorem MemorySideOk.hitLine_of_entry {e : WbEntry} {a : Word} (he : e ∈ s.wbuf) (ha : e.addr = s.cfg.blockBase a) :
    s.hitLine a = none := by
  have hg := Config.cacheShape_of_check hc hon
  obtain ⟨htag, hidx⟩ := (((h.cache hon).entries e he).addr_eq_blockBase_iff hg).mp ha
  by_contra hhit
  obtain ⟨l, hl⟩ := Option.ne_none_iff_exists'.mp hhit
  obtain ⟨-, -, hvalid, hltag, -, hline⟩ := (h.cache hon).of_hitLine hg hl
  exact hline.noEntry e he hidx ⟨hvalid, hltag.trans htag.symm⟩

/-- R343: a drain puts into the backing store what `ArchMem` reads already. -/
theorem MemorySideOk.drainOne_backRead (a : Word) :
    (Machine.drainOne s).backRead a = s.backRead a ∨ (Machine.drainOne s).backRead a = s.archRead a := by
  have hg := Config.cacheShape_of_check hc hon
  rcases drainOne_cases s with ⟨-, he⟩ | ⟨e, rest, hbuf, he⟩
  · exact .inl (by rw [he])
  have hmem : e ∈ s.wbuf := hbuf ▸ List.mem_cons_self
  have hentry := (h.cache hon).entries e hmem
  have hback : (Machine.drainOne s).backRead a = (s.writeBlock e.addr e.data).backRead a := by
    rw [he]
    exact State.backRead_congr rfl rfl a
  by_cases hblock : e.addr = s.cfg.blockBase a
  · have hmiss := h.hitLine_of_entry hc hon hmem hblock
    have hrest : rest = [] := by
      have hocc := (h.cache hon).occupancy
      exact List.length_eq_zero_iff.mp (by simpa [hbuf] using hocc)
    have hnewest : newestEntry s.wbuf (s.cfg.blockBase a) = some e := by simp [hbuf, hrest, newestEntry, hblock]
    right
    rw [hback, hentry.backRead_writeBlock_of_block hg h.memory.wf hblock, State.archRead_of_entry hon hmiss hnewest]
  · exact .inl (hback.trans (hentry.backRead_writeBlock_of_other_block hg h.memory.wf hblock))

/-- R298 steps 1 and 2. -/
theorem MemorySideOk.ticked_backRead {m : State} (hm : Machine.fillTick (Machine.drainOne s) = .ok m) (a : Word) :
    m.backRead a = s.backRead a ∨ m.backRead a = s.archRead a := by
  have hsame : m.backRead a = (Machine.drainOne s).backRead a := by
    rw [fillTick_frame hm]
    exact State.backRead_congr rfl rfl a
  rw [hsame]
  exact h.drainOne_backRead hc hon a

end Cached

/-- R298 steps 3 and 4: a lookup changes no word of the backing store but the one that a write names. -/
theorem access_backRead {s t : State} {a : Word} {store : Option Word} {ans : Answer} (hwf : s.back.Wf)
    (h : access s a store = .ok (t, ans)) (b : Word) :
    t.backRead b = s.backRead b ∨ (store ≠ none ∧ ans ≠ .miss ∧ wordIndex b = wordIndex a) := by
  obtain ⟨victim, -, ⟨l, -, -, rfl, -⟩ | ⟨l, v, -, rfl, rfl, rfl⟩ | ⟨-, -, rfl, -⟩ | ⟨-, -, rfl, -⟩⟩ := access_cases h
  · exact .inl rfl
  · by_cases hb : wordIndex b = wordIndex a
    · exact .inr ⟨by simp, by simp, hb⟩
    · exact .inl (s.backRead_storeHit_other l v hwf hb)
  · exact .inl rfl
  · rw [startFill_frame]
    exact .inl (State.backRead_congr rfl rfl b)

/-- R81, R350 step 3: after the memory side a word of the backing store is what it was, or what `ArchMem` had, unless a write
to that word hit. -/
theorem MemorySideOk.memorySide_backRead {s t : State} {req : Request} {ans : Answer} (hc : s.cfg.check = none)
    (h : MemorySideOk s) (ht : Machine.memorySide s req = .ok (t, ans)) (b : Word) :
    (t.backRead b = s.backRead b ∨ t.backRead b = s.archRead b) ∨
      ∃ a v, req = .write a v ∧ ans ≠ .miss ∧ wordIndex b = wordIndex a := by
  rcases memorySide_cases ht with ⟨hon, hcycle⟩ | ⟨-, ⟨-, rfl, -⟩ | ⟨a, -, rfl, -⟩ | ⟨a, v, rfl, rfl, rfl⟩⟩
  · obtain ⟨m, hm, hcases⟩ := cacheCycle_cases hcycle
    obtain ⟨-, hmOk, -⟩ := h.ticked hc hon hm
    have hticked := h.ticked_backRead hc hon hm b
    rcases hcases with ⟨-, rfl, -⟩ | ⟨a, -, hacc⟩ | ⟨a, v, rfl, hacc⟩
    · exact .inl hticked
    · rcases access_backRead hmOk.memory.wf hacc b with hsame | ⟨hno, -⟩
      · exact .inl (hsame ▸ hticked)
      · exact absurd rfl hno
    · rcases access_backRead hmOk.memory.wf hacc b with hsame | ⟨-, hans, hb⟩
      · exact .inl (hsame ▸ hticked)
      · exact .inr ⟨a, v, rfl, hans, hb⟩
  · exact .inl (.inl rfl)
  · exact .inl (.inl rfl)
  · by_cases hb : wordIndex b = wordIndex a
    · exact .inr ⟨a, v, rfl, by simp, hb⟩
    · exact .inl (.inl (by rw [s.backRead_backWrite a b v h.memory.wf, if_neg hb]))

/-- R345: a read that hits answers the word of `ArchMem` before the cycle. -/
theorem MemorySideOk.memorySide_read_hit {s t : State} {a d : Word} (hc : s.cfg.check = none) (h : MemorySideOk s)
    (ht : Machine.memorySide s (.read a) = .ok (t, .hit d)) : d = s.archRead a := by
  rcases memorySide_cases ht with ⟨hon, hcycle⟩ | ⟨hoff, ⟨hno, -⟩ | ⟨b, hb, -, hd⟩ | ⟨b, v, hno, -⟩⟩
  · obtain ⟨m, hm, ⟨hno, -⟩ | ⟨b, hb, hacc⟩ | ⟨b, v, hno, -⟩⟩ := cacheCycle_cases hcycle
    · cases hno
    · cases hb
      obtain ⟨hcfg, -, -⟩ := h.ticked hc hon hm
      obtain ⟨-, -, ⟨l, hhit, -, -, hd⟩ | ⟨l, v, -, hno, -⟩ | ⟨-, -, -, hno⟩ | ⟨-, -, -, hno⟩⟩ := access_cases hacc
      · rw [← h.ticked_archRead hc hon hm a, State.archRead_of_hit (hcfg ▸ hon) hhit]
        exact Answer.hit.inj hd
      · cases hno
      · cases hno
      · cases hno
    · cases hno
  · cases hno
  · cases hb
    rw [State.archRead_of_uncached hoff]
    exact Answer.hit.inj hd
  · cases hno

end Sys2Proof.Machine
end

section
/-! O60, the sequential side: what an instruction leaves behind when its data access is inside the window, and a run of the
sequential reading in which nothing is cached (spec/00_scope.md R27; spec/20_memory.md R74 to R76). -/

namespace Sys2Proof.Machine

open Sys2Proof

/-! ### The instruction completed -/

/-- The address of a data access. -/
def DataAccess.addr : DataAccess → Word
  | .load a _ => a
  | .store a _ => a

/-- The data access that an instruction makes at `u`, if its address is inside the window. -/
def accessesOf (i : Instr) (u : State) : List DataAccess :=
  match i with
  | .lw rs _ imm => [.load (effectiveAddress (u.readReg rs) imm) (u.archRead (effectiveAddress (u.readReg rs) imm))]
  | .sw rs rt imm => [.store (effectiveAddress (u.readReg rs) imm) (u.readReg rt)]
  | _ => []

/-- The state after `i` at `u`, with the check of the window left out: for an instruction in flight, which the pipeline checks
only in its Memory stage. `exec_eq_retire` ties it to `exec`. -/
def retire (i : Instr) (u : State) : State :=
  match i with
  | .lw rs rt imm => u.writeResult rt (u.archRead (effectiveAddress (u.readReg rs) imm))
  | .sw rs rt imm => (u.archWrite (effectiveAddress (u.readReg rs) imm) (u.readReg rt)).setPc u.pc4
  | i =>
    match exec i u with
    | .next t => t
    | _ => u

/-- R74, R75: inside the window the check makes no difference. -/
theorem exec_eq_retire {i : Instr} {u : State} (h : ∀ x ∈ accessesOf i u, u.inWindow x.addr = true) :
    exec i u = .next (retire i u) := by
  cases i with
  | lw rs rt imm => exact exec_lw_of_inWindow rt (h _ List.mem_cons_self)
  | sw rs rt imm => exact exec_sw_of_inWindow rt (h _ List.mem_cons_self)
  | _ => rfl

/-- R27: what an instruction that is not the sentinel does: it writes its destination and goes on, it sets the pc, or it
stores and goes on. -/
theorem retire_cases {i : Instr} (hi : i ≠ .halt) (u : State) :
    (∃ d v, destOf i = some d ∧ storedWords (accessesOf i u) = [] ∧ retire i u = u.writeResult d v) ∨
    (∃ t, destOf i = none ∧ storedWords (accessesOf i u) = [] ∧ retire i u = u.setPc t) ∨
    (∃ a v, destOf i = none ∧ storedWords (accessesOf i u) = [wordIndex a] ∧
      retire i u = (u.archWrite a v).setPc u.pc4) := by
  cases i with
  | sll | srl | sra | add | addu | sub | subu | and | or | xor | nor | slt | sltu => exact .inl ⟨_, _, rfl, rfl, rfl⟩
  | addi | addiu | slti | sltiu | andi | ori | xori | lui | lw => exact .inl ⟨_, _, rfl, rfl, rfl⟩
  | j | jr | beq | bne => exact .inr (.inl ⟨_, rfl, rfl, rfl⟩)
  | sw => exact .inr (.inr ⟨_, _, rfl, rfl, rfl⟩)
  | halt => exact absurd rfl hi

/-- R34: an instruction writes no register but its destination. -/
theorem retire_readReg_of_ne {i : Instr} (hi : i ≠ .halt) (u : State) {r : RegIdx} (hr : destOf i ≠ some r) :
    (retire i u).readReg r = u.readReg r := by
  rcases retire_cases hi u with ⟨d, v, hd, -, he⟩ | ⟨t, -, -, he⟩ | ⟨a, v, -, -, he⟩ <;> rw [he]
  · exact u.readReg_writeReg_other d r v fun h => hr (h ▸ hd)
  · rfl
  · exact State.readReg_congr (by simp) r

theorem retire_cfg {i : Instr} (hi : i ≠ .halt) (u : State) : (retire i u).cfg = u.cfg := by
  rcases retire_cases hi u with ⟨d, v, -, -, he⟩ | ⟨t, -, -, he⟩ | ⟨a, v, -, -, he⟩ <;> simp [he]

/-- R225, R226: where an instruction goes on, with the operands of a transfer found in the fields of its word. -/
theorem retire_pc {w : Word} {i : Instr} (hi : decode w = .ok i) (u : State) {a b : Word}
    (ha : rsOf w ∈ transferSources i → a = u.readReg (rsOf w))
    (hb : rtOf w ∈ transferSources i → b = u.readReg (rtOf w)) :
    (retire i u).pc = if transferCond i a b then transferTarget i u.pc4 a else u.pc4 := by
  cases i with
  | beq rs rt imm =>
    obtain ⟨hrs, hrt⟩ := registers_of_decode_of_encodeI hi rfl
    rw [hrs] at ha
    rw [hrt] at hb
    simp [retire, exec, execBeq, transferCond, transferTarget, ha (by simp [transferSources]),
      hb (by simp [transferSources])]
  | bne rs rt imm =>
    obtain ⟨hrs, hrt⟩ := registers_of_decode_of_encodeI hi rfl
    rw [hrs] at ha
    rw [hrt] at hb
    simp [retire, exec, execBne, transferCond, transferTarget, ha (by simp [transferSources]),
      hb (by simp [transferSources])]
  | jr rs rt rd shamt =>
    rw [rsOf_of_decode_jr hi] at ha
    exact (ha List.mem_cons_self).symm
  | halt => exact absurd hi (decode_ne_halt w)
  | j => rfl
  | sw => rfl
  | _ => exact u.writeResult_pc _ _

/-! ### A run with nothing cached -/

/-- The sequential reading at work: no fault, no sentinel yet, and `ArchMem` is the backing store, since no line is ever
filled (log entries 7 and 8). -/
structure SeqRunning (u : State) : Prop where
  check : u.cfg.check = none
  driver : u.driver = .sequential
  fault : u.fault = .none
  fetchStopped : u.fetchStopped = false
  noHit : ∀ a, u.hitLine a = none
  wbuf : u.wbuf = []
  wf : u.back.Wf

namespace SeqRunning

variable {u : State}

theorem archRead (h : SeqRunning u) (a : Word) : u.archRead a = u.backRead a := by
  simp [State.archRead, h.noHit a, h.wbuf, newestEntry]

theorem archWrite (h : SeqRunning u) (a v : Word) : u.archWrite a v = u.backWrite a v := by
  simp [State.archWrite, h.noHit a, h.wbuf, newestEntry]

theorem step_eq (h : SeqRunning u) {i : Instr} (hi : fetchInstr u = .instr i) : step u = exec i u := by
  rw [step_of_sequential h.check h.driver,
    sequentialStep_of_instr (u.faulted_eq_false_iff.mpr h.fault) h.fetchStopped hi]

theorem seqInstr_eq (h : SeqRunning u) {i : Instr} (hi : fetchInstr u = .instr i) : seqInstr u = some i := by
  simp [seqInstr, State.faulted, h.fault, h.fetchStopped, hi]

theorem seqAccesses_eq (h : SeqRunning u) {i : Instr} (hi : fetchInstr u = .instr i)
    (hin : ∀ x ∈ accessesOf i u, u.inWindow x.addr = true) : seqAccesses u = accessesOf i u := by
  rw [seqAccesses, h.seqInstr_eq hi]
  cases i with
  | lw rs rt imm => exact if_pos (hin _ List.mem_cons_self)
  | sw rs rt imm => exact if_pos (hin _ List.mem_cons_self)
  | _ => rfl

theorem congr (h : SeqRunning u) {v : State} (hcfg : v.cfg = u.cfg) (hdriver : v.driver = u.driver)
    (hfault : v.fault = u.fault) (hstopped : v.fetchStopped = u.fetchStopped) (hlines : v.lines = u.lines)
    (hfill : v.fill = u.fill) (hwbuf : v.wbuf = u.wbuf) (hwf : v.back.Wf) : SeqRunning v where
  check := hcfg ▸ h.check
  driver := hdriver ▸ h.driver
  fault := hfault ▸ h.fault
  fetchStopped := hstopped ▸ h.fetchStopped
  noHit a := (State.hitLine_congr hcfg (by rw [hlines]) (by rw [State.landed, hfill, State.landed])).trans (h.noHit a)
  wbuf := hwbuf ▸ h.wbuf
  wf := hwf

theorem retire (h : SeqRunning u) {i : Instr} (hi : i ≠ .halt) : SeqRunning (retire i u) := by
  rcases retire_cases hi u with ⟨d, v, -, -, he⟩ | ⟨t, -, -, he⟩ | ⟨a, v, -, -, he⟩ <;> rw [he]
  · exact h.congr (by simp) (by simp) (by simp) (by simp) (by simp) (by simp) (by simp) (by simpa using h.wf)
  · exact h.congr rfl rfl rfl rfl rfl rfl rfl h.wf
  · rw [h.archWrite]
    exact h.congr rfl rfl rfl rfl rfl rfl rfl (u.backWrite_wf a v h.wf)

/-- R75: an instruction changes no word of memory but the one it stores to. -/
theorem backRead_retire (h : SeqRunning u) {i : Instr} (hi : i ≠ .halt) {b : Word}
    (hb : wordIndex b ∉ storedWords (accessesOf i u)) : (Machine.retire i u).backRead b = u.backRead b := by
  rcases retire_cases hi u with ⟨d, v, -, -, he⟩ | ⟨t, -, -, he⟩ | ⟨a, v, -, hstored, he⟩ <;> rw [he]
  · exact State.backRead_congr (by simp) (by simp) b
  · rfl
  · rw [hstored, List.mem_singleton] at hb
    rw [h.archWrite]
    exact (u.backRead_backWrite a b v h.wf).trans (if_neg hb)

end SeqRunning

/-- The sequential run from reset starts at work (R54). -/
theorem seqStart_running {c : Config} {mem : Memory} (hc : c.check = none) (hwf : mem.Wf) : SeqRunning (seqStart c mem) where
  check := hc
  driver := rfl
  fault := rfl
  fetchStopped := rfl
  noHit a := by
    by_contra hhit
    obtain ⟨l, hl⟩ := Option.ne_none_iff_exists'.mp hhit
    obtain ⟨hget, hvalid, -⟩ := State.hitLine_eq_some.mp hl
    have hline : l = Line.reset c.blockWords :=
      (State.line_of_getElem? hget).symm.trans (State.line_ofConfig c mem _)
    cases hline ▸ hvalid
  wbuf := rfl
  wf := hwf

end Sys2Proof.Machine
end

section
/-! O60, the latches: what an instruction in flight holds, relative to the sequential states around it, and what forwarding
makes of it (spec/45_pipeline_stages.md R224, R230 to R233; spec/46_hazard_unit.md R268). -/

namespace Sys2Proof.Machine

open Sys2Proof

/-! ### The instruction in a latch -/

/-- The instruction in flight in a latch. -/
def Latch.held (l : Latch) : Option Instr := if l.valid then (decode l.instr).toOption else none

/-- The sequential state after the instruction in the latch, `u` for a bubble. -/
def advance (l : Latch) (u : State) : State :=
  match l.held with
  | some i => retire i u
  | none => u

theorem Latch.held_eq_some {l : Latch} {i : Instr} : l.held = some i ↔ l.valid = true ∧ decode l.instr = .ok i := by
  unfold Latch.held
  cases decode l.instr <;> simp [Except.toOption]

theorem Latch.held_of_invalid {l : Latch} (h : l.valid = false) : l.held = none := by simp [Latch.held, h]

theorem Latch.held_congr {l m : Latch} (hv : m.valid = l.valid) (hw : m.instr = l.instr) : m.held = l.held := by
  simp [Latch.held, hv, hw]

theorem Latch.Decoded.exists_held {l : Latch} (h : l.Decoded) (hv : l.valid = true) : ∃ i, l.held = some i := by
  obtain ⟨i, hi, -⟩ := h hv
  exact ⟨i, Latch.held_eq_some.mpr ⟨hv, hi⟩⟩

theorem Latch.ne_halt_of_held {l : Latch} {i : Instr} (h : l.held = some i) : i ≠ .halt := by
  rintro rfl
  exact decode_ne_halt _ (Latch.held_eq_some.mp h).2

theorem advance_of_held {l : Latch} {i : Instr} (h : l.held = some i) (u : State) : advance l u = retire i u := by
  simp [advance, h]

theorem advance_of_none {l : Latch} (h : l.held = none) (u : State) : advance l u = u := by simp [advance, h]

theorem advance_bubble (u : State) : advance Latch.bubble u = u := rfl

theorem advance_congr {l m : Latch} (h : m.held = l.held) (u : State) : advance m u = advance l u := by simp [advance, h]

theorem SeqRunning.advance {u : State} (h : SeqRunning u) (l : Latch) : SeqRunning (advance l u) := by
  cases hi : l.held with
  | none => rwa [advance_of_none hi]
  | some i =>
    rw [advance_of_held hi]
    exact h.retire (Latch.ne_halt_of_held hi)

theorem advance_cfg (l : Latch) (u : State) : (advance l u).cfg = u.cfg := by
  cases hi : l.held with
  | none => rw [advance_of_none hi]
  | some i => rw [advance_of_held hi, retire_cfg (Latch.ne_halt_of_held hi)]

/-! ### Its control bundle (R113) and its destination (R34) -/

theorem Latch.Decoded.ctrl_eq {l : Latch} (h : l.Decoded) {i : Instr} (hi : l.held = some i) :
    l.ctrl = { controlOf i with branch := l.ctrl.branch } := by
  obtain ⟨hv, hdecode⟩ := Latch.held_eq_some.mp hi
  obtain ⟨j, hj, -, -, -, -, -, -, -, -, -, hctrl, -⟩ := h hv
  obtain rfl := Except.ok.inj (hj.symm.trans hdecode)
  exact hctrl

/-- R34, R113: the destination by the fields of the word. -/
theorem destOf_of_decode {w : Word} {i : Instr} (h : decode w = .ok i) :
    destOf i = if (controlOf i).regWrite then some (if (controlOf i).regDst then rdOf w else rtOf w) else none := by
  rw [← encode_of_decode 0 h]
  cases i with
  | sll | srl | sra | add | addu | sub | subu | and | or | xor | nor | slt | sltu =>
    exact congrArg some (rdOf_encodeR ..).symm
  | addi | addiu | slti | sltiu | andi | ori | xori | lui | lw => exact congrArg some (rtOf_encodeI ..).symm
  | _ => rfl

theorem Latch.Decoded.writes_iff_destOf {l : Latch} (h : l.Decoded) {i : Instr} (hi : l.held = some i) (r : RegIdx) :
    l.writes r = true ↔ destOf i = some r := by
  obtain ⟨hv, hdecode⟩ := Latch.held_eq_some.mp hi
  obtain ⟨j, hj, -, -, hrt, hrd, -⟩ := h hv
  have hctrl := h.ctrl_eq hi
  have hwrite : l.ctrl.regWrite = (controlOf i).regWrite := by rw [hctrl]
  have hdst : l.ctrl.regDst = (controlOf i).regDst := by rw [hctrl]
  rw [Latch.writes_iff, destOf_of_decode hdecode, Latch.dest, hwrite, hdst, hrt, hrd]
  simp [hv]

/-- R113: only loads read memory, and only they write back what they read. -/
theorem memRead_iff (i : Instr) : (controlOf i).memRead = true ↔ ∃ rs rt imm, i = .lw rs rt imm := by
  cases i with
  | lw rs rt imm => exact ⟨fun _ => ⟨rs, rt, imm, rfl⟩, fun _ => rfl⟩
  | _ => exact ⟨fun h => (by cases h), fun ⟨_, _, _, h⟩ => (by cases h)⟩

theorem Latch.Decoded.memRead_iff {l : Latch} (h : l.Decoded) {i : Instr} (hi : l.held = some i) :
    l.ctrl.memRead = true ↔ ∃ rs rt imm, i = .lw rs rt imm := by
  rw [h.ctrl_eq hi, ← Machine.memRead_iff]

theorem Latch.Decoded.memToReg_eq {l : Latch} (h : l.Decoded) (hv : l.valid = true) :
    l.ctrl.memToReg = l.ctrl.memRead := by
  obtain ⟨i, hi⟩ := h.exists_held hv
  rw [h.ctrl_eq hi]
  cases i <;> rfl

/-! ### The values of an executed instruction -/

/-- What a latch after Execute holds for the instruction that it carries out at `u`: the effective address of a load or store
and the word to store, the value for the destination of any other. -/
def Executed (u : State) (l : Latch) : Prop :=
  ∀ i, l.held = some i →
    match i with
    | .lw rs _ imm => l.aluResult = effectiveAddress (u.readReg rs) imm
    | .sw rs rt imm => l.aluResult = effectiveAddress (u.readReg rs) imm ∧ l.rtVal = u.readReg rt
    | i => ∀ d, destOf i = some d → d ≠ 0 → l.aluResult = (retire i u).readReg d

theorem advance_readReg_of_not_writes {l : Latch} (h : l.Decoded) (u : State) {r : RegIdx} (hr : l.writes r = false) :
    (advance l u).readReg r = u.readReg r := by
  cases hi : l.held with
  | none => rw [advance_of_none hi]
  | some i =>
    rw [advance_of_held hi]
    refine retire_readReg_of_ne (Latch.ne_halt_of_held hi) u fun hdest => ?_
    cases hr.symm.trans ((h.writes_iff_destOf hi r).mpr hdest)

/-- R230: the result of an instruction that is no load is there before the instruction is completed. -/
theorem Executed.aluResult_eq {u : State} {l : Latch} (h : Executed u l) (hl : l.Decoded) {r : RegIdx}
    (hr : l.writes r = true) (hne : r ≠ 0) (hload : l.ctrl.memRead = false) :
    l.aluResult = (advance l u).readReg r := by
  obtain ⟨i, hi⟩ := hl.exists_held ((l.writes_iff r).mp hr).1
  have hdest := (hl.writes_iff_destOf hi r).mp hr
  have hvalue := h i hi
  rw [advance_of_held hi]
  cases i with
  | lw rs rt imm => cases hload.symm.trans ((hl.memRead_iff hi).mpr ⟨rs, rt, imm, rfl⟩)
  | sw => cases hdest
  | _ => exact hvalue r hdest hne

/-! ### Operands -/

/-- The operands that Execute reads at `s` for the instruction it holds are the registers at `v` (R230). A transfer has had
its operands in Decode. -/
def OperandsReady (s v : State) : Prop :=
  ∀ i, s.idex.held = some i → transferSources i = [] → ∀ r ∈ readSet i,
    (r = s.idex.rs → operandA s = v.readReg r) ∧ (r = s.idex.rt → operandB s = v.readReg r)

theorem transferSources_of_destOf {i : Instr} {d : RegIdx} (h : destOf i = some d) : transferSources i = [] := by
  cases i with
  | beq | bne | jr => cases h
  | _ => rfl

/-- R231 to R233 for a load or a store: the ALU adds the immediate to the base. -/
theorem exProposal_effectiveAddress {s : State} (h : s.idex.Decoded) {i : Instr} (hi : s.idex.held = some i)
    (hctrl : (controlOf i).aluSrc = true ∧ (controlOf i).aluOp = .add) :
    (exProposal s).aluResult = operandA s + immextOf i ∧ (exProposal s).rtVal = operandB s := by
  obtain ⟨hv, hdecode⟩ := Latch.held_eq_some.mp hi
  obtain ⟨j, hj, -, -, -, -, -, -, -, -, himm, -⟩ := h hv
  obtain rfl := Except.ok.inj (hj.symm.trans hdecode)
  have hop : s.idex.ctrl.aluOp = .add := by rw [h.ctrl_eq hi]; exact hctrl.2
  have hsrc : s.idex.ctrl.aluSrc = true := by rw [h.ctrl_eq hi]; exact hctrl.1
  simp [exProposal, hv, captured, operand2, hop, hsrc, himm, alu]

theorem exProposal_held (s : State) : (exProposal s).held = s.idex.held := by
  rcases exProposal_cases s with ⟨hv, he⟩ | ⟨-, he⟩ <;> rw [he]
  · exact (Latch.held_of_invalid hv).symm
  · rfl

/-- R230 to R233: with its operands ready, Execute carries the instruction out. -/
theorem OperandsReady.executed {s v : State} (h : OperandsReady s v) (hl : s.idex.Decoded) : Executed v (exProposal s) := by
  intro i hi
  rw [exProposal_held] at hi
  obtain ⟨hv, hdecode⟩ := Latch.held_eq_some.mp hi
  obtain ⟨-, -, -, hrs, hrt, -⟩ := hl hv
  have hoperands := h i hi
  rw [hrs, hrt] at hoperands
  cases i with
  | lw rs rt imm =>
    obtain ⟨hbase, -⟩ := registers_of_decode_of_encodeI hdecode rfl
    obtain ⟨haddr, -⟩ := exProposal_effectiveAddress hl hi ⟨rfl, rfl⟩
    exact haddr.trans (congrArg (· + _) ((hoperands rfl rs (by simp [readSet])).1 hbase.symm))
  | sw rs rt imm =>
    obtain ⟨hbase, hdata⟩ := registers_of_decode_of_encodeI hdecode rfl
    obtain ⟨haddr, hword⟩ := exProposal_effectiveAddress hl hi ⟨rfl, rfl⟩
    exact ⟨haddr.trans (congrArg (· + _) ((hoperands rfl rs (by simp [readSet])).1 hbase.symm)),
      hword.trans ((hoperands rfl rt (by simp [readSet])).2 hdata.symm)⟩
  | _ =>
    intro d hdest hne
    have hsources := transferSources_of_destOf hdest
    have hfrom : ExecutesFrom s v _ d := ⟨hv, hl, hdecode, hdest, hne, fun r hr =>
      ⟨fun ha => ((hoperands hsources r hr).1 ha).symm, fun hb => ((hoperands hsources r hr).2 hb).symm⟩⟩
    obtain ⟨t, ht, hvalue, -⟩ := hfrom.meaningIsExecuted_of_not_load fun _ _ _ hload => by cases hload
    obtain rfl := Host.Outcome.next.inj ((exec_eq_retire fun _ hx => by cases hx).symm.trans ht)
    exact hvalue.symm

/-! ### Forwarding -/

theorem rfw_eq (s : State) (r : RegIdx) :
    rfw s r = if s.memwb.writes r = true ∧ r ≠ 0 then s.memwb.wbval else s.readReg r := by
  simp [rfw, wbEn, Latch.writes]

theorem rfw_of_not_writes {s : State} {r : RegIdx} (h : s.memwb.writes r = false) : rfw s r = s.readReg r := by
  simp [rfw_eq, h]

section Forwarding

variable {s u : State} (hl : s.exmem.Decoded) (hexec : Executed u s.exmem) (hregs : ∀ r, rfw s r = u.readReg r)

include hl hexec hregs

/-- R230, R268: Execute reads the register as the instruction before it leaves it, if that is no load of the register. -/
theorem forward_eq {r : RegIdx} {old : Word}
    (hload : r ≠ 0 → s.exmem.writes r = true → s.exmem.ctrl.memRead = false)
    (hold : r = 0 ∨ s.memwb.writes r = false → old = u.readReg r) :
    forward s r old = (advance s.exmem u).readReg r := by
  by_cases hr : r = 0
  · rw [forward, if_pos hr, hold (.inl hr)]
    subst hr
    rfl
  rw [forward, if_neg hr]
  cases hw : s.exmem.writes r with
  | true =>
    have hread := hload hr hw
    rw [if_pos (by simp [hread])]
    exact hexec.aluResult_eq hl hw hr hread
  | false =>
    rw [if_neg (by simp), advance_readReg_of_not_writes hl u hw]
    cases hwb : s.memwb.writes r with
    | true =>
      rw [if_pos rfl, ← hregs r, rfw_eq, if_pos ⟨hwb, hr⟩]
    | false =>
      rw [if_neg (by simp)]
      exact hold (.inr hwb)

/-- R224: an operand that is ready in Decode is the register as the instruction in Execute leaves it. -/
theorem transferOperand_eq (hidex : s.idex.Decoded) {r : RegIdx} {x : Word} (hx : transferOperand s r = some x) :
    x = (advance s.idex (advance s.exmem u)).readReg r := by
  by_cases hr : r = 0
  · rw [transferOperand, if_pos hr] at hx
    subst hr
    exact (Option.some.inj hx).symm
  rw [transferOperand, if_neg hr] at hx
  cases hw : s.idex.writes r with
  | true => simp [hw] at hx
  | false =>
    rw [advance_readReg_of_not_writes hidex _ hw]
    cases hw' : s.exmem.writes r with
    | true =>
      cases hread : s.exmem.ctrl.memRead with
      | true => simp [hw, hw', hread] at hx
      | false =>
        simp only [hw, hw', hread, if_true, Bool.false_eq_true, if_false, Option.some.injEq] at hx
        exact hx ▸ hexec.aluResult_eq hl hw' hr hread
    | false =>
      simp only [hw, hw', Bool.false_eq_true, if_false, Option.some.injEq] at hx
      rw [← hx, advance_readReg_of_not_writes hl u hw', hregs]

end Forwarding

end Sys2Proof.Machine
end

section
/-! O60, the relation: how a state of the clock reading stands to the sequential state before the instruction in Memory, and
how the front of the pipeline keeps it (spec/46_hazard_unit.md R262 to R275, R285, R286; spec/70_reset_and_hazards.md R441). -/

namespace Sys2Proof.Machine

open Sys2Proof

/-! ### Fetched words -/

/-- `w` was fetched at the pc of `u`: from inside the window, as the word that the loader put there unless the program has
stored to it, with `halts` for R214. `code` is the loaded memory, `stored` the words that the program has stored to. -/
structure FetchFound (code : Word → Word) (stored : List Nat) (u : State) (w : Word) (halts : Bool) : Prop where
  inWindow : u.inWindow u.pc = true
  word : wordIndex u.pc ∉ stored → w = code u.pc
  halts : haltCondition u w = halts

/-- The latch is a bubble or holds the instruction at `u`. -/
def InFlight (code : Word → Word) (stored : List Nat) (u : State) (l : Latch) : Prop :=
  l.valid = true → FetchFound code stored u l.instr false

section Fetched

variable {code : Word → Word} {stored stored' : List Nat} {u : State}

theorem FetchFound.mono {w : Word} {halts : Bool} (h : FetchFound code stored u w halts) (hsub : stored ⊆ stored') :
    FetchFound code stored' u w halts :=
  ⟨h.inWindow, fun hpc => h.word fun hmem => hpc (hsub hmem), h.halts⟩

theorem InFlight.mono {l m : Latch} (h : InFlight code stored u l) (hsub : stored ⊆ stored')
    (hm : m.valid = true → l.valid = true ∧ m.instr = l.instr) : InFlight code stored' u m := by
  intro hv
  obtain ⟨hl, hinstr⟩ := hm hv
  exact hinstr ▸ (h hl).mono hsub

theorem inFlight_bubble : InFlight code stored u Latch.bubble := fun hv => by cases hv

/-- R441: from a word that the program has not stored to, the sequential reading fetches what the pipeline fetched. -/
theorem FetchFound.ifetchRead_eq {w : Word} {halts : Bool} (h : FetchFound code stored u w halts)
    (hpc : wordIndex u.pc ∉ stored) (hcode : u.backRead u.pc = code u.pc) : u.ifetchRead u.pc = w :=
  hcode.trans (h.word hpc).symm

theorem FetchFound.fetchInstr_halt {w : Word} (h : FetchFound code stored u w true) (hpc : wordIndex u.pc ∉ stored)
    (hcode : u.backRead u.pc = code u.pc) : fetchInstr u = .instr .halt :=
  fetchInstr_of_haltCondition h.inWindow (by rw [h.ifetchRead_eq hpc hcode, h.halts])

theorem FetchFound.fetchInstr_of_decode {w : Word} {i : Instr} (h : FetchFound code stored u w false)
    (hpc : wordIndex u.pc ∉ stored) (hcode : u.backRead u.pc = code u.pc) (hi : decode w = .ok i) :
    fetchInstr u = .instr i := by
  simp [fetchInstr, h.inWindow, h.ifetchRead_eq hpc hcode, h.halts, hi]

end Fetched

/-! ### Fetch and Decode -/

/-- What the front of the pipeline holds before the instruction at `u`: that instruction with the pc behind it, or nothing
with its pc; once fetch has stopped, nothing, the sentinel being at `u`. -/
structure FrontHolds (code : Word → Word) (stored : List Nat) (s u : State) : Prop where
  inFlight : InFlight code stored u s.ifid
  next : s.ifid.valid = true → s.ifid.pc4 = u.pc4
  pc : s.pc = if s.ifid.valid then u.pc4 else u.pc
  stopped : s.fetchStopped = true → s.ifid.valid = false ∧ ∃ w, FetchFound code stored u w true

section Front

variable {code : Word → Word} {stored stored' : List Nat} {s u : State}

theorem FrontHolds.congr (h : FrontHolds code stored s u) (hsub : stored ⊆ stored') {t : State} (hifid : t.ifid = s.ifid)
    (hpc : t.pc = s.pc) (hstopped : t.fetchStopped = s.fetchStopped) : FrontHolds code stored' t u where
  inFlight := h.inFlight.mono hsub fun hv => ⟨hifid ▸ hv, by rw [hifid]⟩
  next := hifid ▸ h.next
  pc := by rw [hpc, hifid, h.pc]
  stopped hs := by
    obtain ⟨hv, w, hw⟩ := h.stopped (hstopped ▸ hs)
    exact ⟨hifid ▸ hv, w, hw.mono hsub⟩

theorem frontHolds_of_bubble (hifid : s.ifid = Latch.bubble) (hpc : s.pc = u.pc)
    (hstopped : s.fetchStopped = true → ∃ w, FetchFound code stored u w true) : FrontHolds code stored s u where
  inFlight := hifid ▸ inFlight_bubble
  next hv := by cases hifid ▸ hv
  pc := by rw [hpc, hifid]; rfl
  stopped hs := ⟨by rw [hifid]; rfl, hstopped hs⟩

/-- R225, R226, R286: without a stall the pc that Decode leaves is the one after the instruction it holds; the sources of a
transfer are the registers before it. -/
theorem FrontHolds.resolved (h : FrontHolds code stored s u) {o : DecodeOut} (hdecode : decodeStage s false = .ok o)
    (hstall : o.idStall = false) (hsources : ∀ r x, transferOperand s r = some x → x = u.readReg r) :
    (advance s.ifid u).pc = if o.taken then o.target else s.pc := by
  rcases decodeStage_cases hdecode with ⟨hv, rfl⟩ | ⟨hv, i, hi, -⟩
  · rw [advance_of_none (Latch.held_of_invalid hv), h.pc, hv]
    rfl
  · obtain ⟨hid, htaken, htarget, -⟩ := decodeStage_of_decode hv hi hdecode
    have hoperand : ∀ r ∈ transferSources i, decodeOperand s i r = u.readReg r := fun r hr =>
      hsources r _ (transferOperand_of_opsReady (opsReady_of_no_stall hid hstall) hr)
    rw [hstall, Bool.not_false, Bool.true_and, Bool.true_and] at htaken
    rw [advance_of_held (Latch.held_eq_some.mpr ⟨hv, hi⟩), retire_pc hi u (hoperand _) (hoperand _), htaken, htarget,
      h.next hv, h.pc, if_pos hv]

section Moved

variable {after : State} {ans : Answer} {o : DecodeOut} {fetch : FetchOut} {z : State} (hans : ans ≠ .miss)
  (hstall : o.idStall = false) (hfetch : fetchStage s after (acceptFetch s false false o.taken) = .ok fetch)

include hans hstall hfetch

/-- R265, R286: behind a taken transfer Decode holds a bubble, and the pc is the target. -/
theorem FrontHolds.moved_of_taken (h : FrontHolds code stored s u) (hdecode : decodeStage s false = .ok o)
    (htaken : o.taken = true) (hpc : z.pc = o.target) : FrontHolds code stored' (commit s after ans o fetch) z := by
  obtain ⟨hv, -⟩ := decodeStage_taken hdecode htaken
  have hrun : s.fetchStopped = false := by
    by_contra hs
    obtain ⟨hno, -⟩ := h.stopped (by simpa using hs)
    cases hno.symm.trans hv
  have haccept : acceptFetch s false false o.taken = false := by simp [acceptFetch, htaken]
  obtain rfl := Except.ok.inj ((haccept ▸ hfetch : fetchStage s after false = .ok fetch))
  refine frontHolds_of_bubble ?_ ?_ fun hs => ?_
  · simp [commit, nextIfid, hans, hstall, htaken]
  · simp [commit, nextPc, hans, hstall, htaken, hpc]
  · simp [hrun] at hs

/-- R41, R272, R273: once fetch has stopped the pc holds and nothing enters Decode. -/
theorem FrontHolds.moved_of_stopped (h : FrontHolds code stored s u) (hsub : stored ⊆ stored') (htaken : o.taken = false)
    (hrun : s.fetchStopped = true) (hpc : (advance s.ifid u).pc = s.pc) :
    FrontHolds code stored' (commit s after ans o fetch) (advance s.ifid u) := by
  obtain ⟨hno, w, hw⟩ := h.stopped hrun
  have haccept : acceptFetch s false false o.taken = false := by simp [acceptFetch, hrun]
  obtain rfl := Except.ok.inj ((haccept ▸ hfetch : fetchStage s after false = .ok fetch))
  refine frontHolds_of_bubble ?_ ?_ fun _ => ⟨w, ?_⟩
  · simp [commit, nextIfid, hans, hstall, hrun]
  · simp [commit, nextPc, hans, hstall, htaken, hrun, hpc]
  · rw [advance_of_none (Latch.held_of_invalid hno)]
    exact hw.mono hsub

/-- R212 to R214: an accepted fetch finds the instruction at the pc, or the sentinel there. -/
theorem frontHolds_of_accepted (htaken : o.taken = false) (hrun : s.fetchStopped = false) (hpc : z.pc = s.pc)
    (hcfg : z.cfg = s.cfg) (hcode : wordIndex s.pc ∉ stored' → after.backRead s.pc = code s.pc) :
    FrontHolds code stored' (commit s after ans o fetch) z := by
  have haccept : acceptFetch s false false o.taken = true := by simp [acceptFetch, hrun, htaken]
  rw [haccept] at hfetch
  rcases fetchStage_cases hfetch with ⟨hno, -⟩ | ⟨-, hin, he⟩
  · cases hno
  have hfound : FetchFound code stored' z (after.ifetchRead s.pc) fetch.isHalt :=
    ⟨by rw [State.inWindow, hcfg, hpc]; exact hin, by rw [hpc]; exact hcode, by simp [he, haltCondition, hcfg, hpc]⟩
  obtain ⟨hstopped', hpc', hifid'⟩ := commit_front (after := after) (fetch := fetch) hans hstall htaken hrun
  have hpc4 : z.pc4 = s.pc4 := by simp [State.pc4, hpc]
  cases hhalt : fetch.isHalt with
  | true =>
    rw [hhalt] at hfound hpc' hifid'
    exact frontHolds_of_bubble hifid' (hpc'.trans hpc.symm) fun _ => ⟨_, hfound⟩
  | false =>
    rw [hhalt] at hfound hpc' hifid' hstopped'
    replace hifid' : (commit s after ans o fetch).ifid = ifProposal s (after.ifetchRead s.pc) := by
      simpa [he] using hifid'
    refine ⟨fun _ => ?_, fun _ => ?_, ?_, fun hs => ?_⟩
    · rw [hifid']
      exact hfound
    · rw [hifid', hpc4]
      rfl
    · rw [hifid', hpc', hpc4]
      rfl
    · cases hstopped'.symm.trans hs

/-- R271 to R273: without a stall the front of the pipeline moves on behind the instruction that leaves Decode. -/
theorem FrontHolds.moved (h : FrontHolds code stored s u) (hdecode : decodeStage s false = .ok o)
    (hsources : ∀ r x, transferOperand s r = some x → x = u.readReg r) (hcfg : u.cfg = s.cfg) (hsub : stored ⊆ stored')
    (hcode : ∀ a, wordIndex a ∉ stored' → after.backRead a = code a) :
    FrontHolds code stored' (commit s after ans o fetch) (advance s.ifid u) := by
  have hpc := h.resolved hdecode hstall hsources
  cases htaken : o.taken with
  | true => exact h.moved_of_taken hans hstall hfetch hdecode htaken (by simpa [htaken] using hpc)
  | false =>
    replace hpc : (advance s.ifid u).pc = s.pc := by simpa [htaken] using hpc
    cases hrun : s.fetchStopped with
    | true => exact h.moved_of_stopped hans hstall hfetch hsub htaken hrun hpc
    | false =>
      exact frontHolds_of_accepted hans hstall hfetch htaken hrun hpc ((advance_cfg _ _).trans hcfg) (hcode _)

end Moved

end Front

/-! ### Execute and Memory -/

/-- What Execute holds for the instruction at `v`. -/
structure ExecuteHolds (code : Word → Word) (stored : List Nat) (s v : State) : Prop where
  inFlight : InFlight code stored v s.idex
  operands : OperandsReady s v

/-- What Memory holds for the instruction at `u`. -/
structure MemoryHolds (code : Word → Word) (stored : List Nat) (s u : State) : Prop where
  inFlight : InFlight code stored u s.exmem
  executed : Executed u s.exmem

/-- R285: the state `s` of the clock reading stands where the sequential reading stands at `u`, before the instruction in
Memory: the registers once Writeback has written, `ArchMem`, and behind them the instructions in flight, in program order. -/
structure Simulates (code : Word → Word) (stored : List Nat) (s u : State) : Prop where
  check : s.cfg.check = none
  driver : s.driver = .clock
  fault : s.fault = .none
  machine : MachineOk s
  running : SeqRunning u
  cfg : u.cfg = s.cfg
  registers : ∀ r, rfw s r = u.readReg r
  archMem : ∀ a, s.archRead a = u.backRead a
  clockCode : ∀ a, wordIndex a ∉ stored → s.backRead a = code a
  seqCode : ∀ a, wordIndex a ∉ stored → u.backRead a = code a
  memory : MemoryHolds code stored s u
  execute : ExecuteHolds code stored s (advance s.exmem u)
  front : FrontHolds code stored s (advance s.idex (advance s.exmem u))

/-- R227, R228: Decode proposes the instruction it holds. -/
theorem decodeStage_prop_held {s : State} {b : Bool} {o : DecodeOut} (h : decodeStage s b = .ok o) :
    o.prop.held = s.ifid.held ∧ (o.prop.valid = true → s.ifid.valid = true ∧ o.prop.instr = s.ifid.instr) := by
  rcases decodeStage_cases h with ⟨hv, rfl⟩ | ⟨hv, i, -, -, -, -, hprop⟩
  · exact ⟨(Latch.held_of_invalid hv).symm, fun hno => by cases hno⟩
  · rw [hprop]
    exact ⟨Latch.held_congr hv.symm rfl, fun _ => ⟨hv, rfl⟩⟩

theorem exProposal_valid {s : State} (h : (exProposal s).valid = true) :
    s.idex.valid = true ∧ (exProposal s).instr = s.idex.instr ∧ (exProposal s).ctrl = s.idex.ctrl ∧
      (exProposal s).dest = s.idex.dest := by
  rcases exProposal_cases s with ⟨-, he⟩ | ⟨hv, he⟩
  · rw [he] at h
    cases h
  · rw [he]
    exact ⟨hv, rfl, rfl, rfl⟩

/-- R262: a load in Execute whose register Decode reads makes Decode stall. -/
theorem no_load_of_no_stall {s : State} {i : Instr} (hno : loadUse s i = false) {r : RegIdx} (hr : r ∈ readSet i)
    (hne : r ≠ 0) (hw : (exProposal s).writes r = true) : (exProposal s).ctrl.memRead = false := by
  obtain ⟨hv, -, hdest⟩ := (Latch.writes_iff _ r).mp hw
  obtain ⟨hv', -, hctrl, hdest'⟩ := exProposal_valid hv
  rw [hctrl]
  by_contra hread
  have hsame : s.idex.dest = r := hdest'.symm.trans hdest
  cases hno.symm.trans ((loadUse_iff s i).mpr ⟨hv', by simpa using hread, hsame ▸ hne, hsame ▸ hr⟩)

/-- R223, R262: the instruction that leaves Decode finds its operands in Execute. -/
theorem operandsReady_of_decode {s t u : State} {o : DecodeOut} (hdecode : decodeStage s false = .ok o)
    (hstall : o.idStall = false) (hidex : t.idex = o.prop) (hexmem : t.exmem = exProposal s)
    (hx : t.x = (writeback s).x) (hl : t.exmem.Decoded) (hexec : Executed u t.exmem) (hregs : ∀ r, rfw t r = u.readReg r) :
    OperandsReady t (advance t.exmem u) := by
  intro i hi hsources r hr
  rw [hidex, (decodeStage_prop_held hdecode).1] at hi
  obtain ⟨hv, hword⟩ := Latch.held_eq_some.mp hi
  obtain ⟨hid, -, -, hprop⟩ := decodeStage_of_decode hv hword hdecode
  obtain ⟨hload, -⟩ := Bool.or_eq_false_iff.mp (hid.symm.trans hstall)
  have hlatched : ∀ q, decodeOperand s i q = rfw s q := fun q => by simp [decodeOperand, needsOperand, hsources]
  have hforward : forward t r (rfw s r) = (advance t.exmem u).readReg r := by
    refine forward_eq hl hexec hregs (fun hne hw => ?_) fun hno => ?_
    · rw [hexmem] at hw ⊢
      exact no_load_of_no_stall hload hr hne hw
    · have hkept : rfw t r = t.readReg r := by
        rw [rfw_eq, if_neg]
        rintro ⟨hw, hne⟩
        rcases hno with hz | hno
        · exact hne hz
        · cases hno.symm.trans hw
      rw [← hregs r, hkept, rfw_eq_readReg_writeback, State.readReg_congr hx]
  constructor
  · intro hrs
    rw [operandA, ← hrs, hidex, hprop]
    rw [hidex, hprop] at hrs
    exact (congrArg (forward t r) ((hlatched _).trans (by rw [hrs]; rfl))).trans hforward
  · intro hrt
    rw [operandB, ← hrt, hidex, hprop]
    rw [hidex, hprop] at hrt
    exact (congrArg (forward t r) ((hlatched _).trans (by rw [hrt]; rfl))).trans hforward

end Sys2Proof.Machine
end

section
/-! O60, the Memory stage: a cycle without a miss carries out the instruction in Memory, in the memory, in the registers that
Writeback will write, and in the traces (spec/45_pipeline_stages.md R240 to R243, R250; spec/46_hazard_unit.md R285). -/

namespace Sys2Proof.Machine

open Sys2Proof

/-! ### The access -/

/-- The data access that a request with its answer performs (R241). -/
def performed (req : Request) (ans : Answer) : List DataAccess :=
  match ans, req with
  | .hit d, .read a => [.load a d]
  | .hit _, .write a v => [.store a v]
  | _, _ => []

theorem clockAccesses_of_cycle {s t after : State} {req : Request} {ans : Answer} (hfault : s.fault = .none)
    (hhalted : s.halted = false) (hcycle : cycle s = .ok t) (hreq : memRequest s = .ok req)
    (hside : memorySide s req = .ok (after, ans)) : clockAccesses s = performed req ans := by
  simp only [clockAccesses, s.faulted_eq_false_iff.mpr hfault, hhalted, Bool.or_false, Bool.false_eq_true, if_false,
    hcycle, hreq, hside]
  cases ans <;> cases req <;> rfl

theorem performed_miss (req : Request) : performed req .miss = [] := by cases req <;> rfl

theorem performed_none (ans : Answer) : performed .none ans = [] := by cases ans <;> rfl

theorem answer_of_performed_load {req : Request} {ans : Answer} {a d : Word} (h : performed req ans = [.load a d]) :
    ans = .hit d := by
  cases ans with
  | hit e =>
    cases req with
    | read b =>
      cases h
      rfl
    | _ => cases h
  | _ => cases req <;> cases h

section Request

variable {s u : State} (hl : s.exmem.Decoded) {i : Instr} (hi : s.exmem.held = some i) (hexec : Executed u s.exmem)
  {req : Request} (hreq : memRequest s = .ok req)

include hl hi hexec hreq

/-- R240: the request of an instruction carried out by Execute is the access of its meaning, inside the window. -/
theorem request_of_held :
    (req = .none ∧ accessesOf i u = []) ∨
    (∃ a, req = .read a ∧ accessesOf i u = [.load a (u.archRead a)] ∧ s.inWindow a = true) ∨
    (∃ a v, req = .write a v ∧ accessesOf i u = [.store a v] ∧ s.inWindow a = true ∧
      retire i u = (u.archWrite a v).setPc u.pc4) := by
  have hv := (Latch.held_eq_some.mp hi).1
  have hread : s.exmem.ctrl.memRead = (controlOf i).memRead := by rw [hl.ctrl_eq hi]
  have hwrite : s.exmem.ctrl.memWrite = (controlOf i).memWrite := by rw [hl.ctrl_eq hi]
  have hvalues := hexec i hi
  rcases memRequest_cases s with ⟨he, hno⟩ | ⟨he, -⟩ | ⟨he, -, hr, hin⟩ | ⟨he, -, hr, hw, hin⟩
  · refine .inl ⟨Except.ok.inj (hreq.symm.trans he), ?_⟩
    rw [hread, hwrite, hv] at hno
    cases i with
    | lw | sw => simp [controlOf, Control.immediate] at hno
    | _ => rfl
  · cases hreq.symm.trans he
  · obtain ⟨rs, rt, imm, rfl⟩ := (memRead_iff i).mp (hread.symm.trans hr)
    refine .inr (.inl ⟨_, Except.ok.inj (hreq.symm.trans he), ?_, hin⟩)
    rw [hvalues]
    rfl
  · cases i with
    | sw rs rt imm =>
      obtain ⟨haddr, hdata⟩ := hvalues
      refine .inr (.inr ⟨_, _, Except.ok.inj (hreq.symm.trans he), ?_, hin, ?_⟩) <;> rw [haddr, hdata] <;> rfl
    | _ => cases hwrite.symm.trans hw

end Request

/-! ### Writeback of what Memory hands on -/

/-- R241 to R243: a request without a miss hands on the instruction in Memory, a load with its word. -/
theorem memProposal_fields (l : Latch) {ans : Answer} (hans : ans ≠ .miss) :
    (memProposal l ans).valid = l.valid ∧ (memProposal l ans).ctrl = l.ctrl ∧ (memProposal l ans).dest = l.dest ∧
      (memProposal l ans).aluResult = l.aluResult ∧
      ∀ d, ans = .hit d → l.ctrl.memRead = true → (memProposal l ans).memData = d := by
  cases ans with
  | noAnswer => exact ⟨rfl, rfl, rfl, rfl, fun _ h => (by cases h)⟩
  | miss => exact absurd rfl hans
  | hit d =>
    rw [memProposal]
    split
    · exact ⟨rfl, rfl, rfl, rfl, fun _ he _ => Answer.hit.inj he⟩
    · next hr => exact ⟨rfl, rfl, rfl, rfl, fun _ _ h => absurd h hr⟩

/-! ### One cycle without a miss -/

/-- R241: a request that does not miss hits. -/
theorem exists_hit {s after : State} {req : Request} {ans : Answer} (hside : memorySide s req = .ok (after, ans))
    (hans : ans ≠ .miss) (hreq : req ≠ .none) : ∃ d, ans = .hit d := by
  cases ans with
  | noAnswer => exact absurd ((memorySide_answer hside).mp rfl) hreq
  | hit d => exact ⟨d, rfl⟩
  | miss => exact absurd rfl hans

/-- R240: nothing is asked for a bubble. -/
theorem request_of_bubble {s : State} (hl : s.exmem.Decoded) (hi : s.exmem.held = none) {req : Request}
    (hreq : memRequest s = .ok req) : req = .none := by
  have hv : s.exmem.valid = false := by
    by_contra hv
    obtain ⟨i, hi'⟩ := hl.exists_held (by simpa using hv)
    cases hi.symm.trans hi'
  exact Except.ok.inj (hreq.symm.trans (by simp [memRequest, hv]))

/-- R270: an operand captured in a stall is forwarded the same again, Memory holding its instruction. -/
theorem forward_captured {s t : State} (hexmem : t.exmem = s.exmem) (hmemwb : t.memwb = Latch.bubble) (r : RegIdx)
    (old : Word) : forward t r (forward s r old) = forward s r old := by
  have hbubble : Latch.bubble.writes r = false := rfl
  simp only [forward, hexmem, hmemwb, hbubble, Bool.false_eq_true, if_false]
  split_ifs <;> rfl

namespace Simulates

variable {code : Word → Word} {stored : List Nat} {s u after : State} {req : Request} {ans : Answer}

theorem fetchInstr_of_held (h : Simulates code stored s u) (hpc : wordIndex u.pc ∉ stored) {i : Instr}
    (hi : s.exmem.held = some i) : fetchInstr u = .instr i := by
  obtain ⟨hv, hdecode⟩ := Latch.held_eq_some.mp hi
  exact (h.memory.inFlight hv).fetchInstr_of_decode hpc (h.seqCode _ hpc) hdecode

section Access

variable (h : Simulates code stored s u) (hreq : memRequest s = .ok req)
  (hside : Machine.memorySide s req = .ok (after, ans)) (hans : ans ≠ .miss)

include h hreq hside hans

/-- R285: the access that hits is the access of the instruction, and lies inside the window. -/
theorem performed_eq {i : Instr} (hi : s.exmem.held = some i) :
    performed req ans = accessesOf i u ∧ ∀ x ∈ accessesOf i u, u.inWindow x.addr = true := by
  have hin : ∀ a, u.inWindow a = s.inWindow a := fun a => by rw [State.inWindow, h.cfg, State.inWindow]
  rcases request_of_held h.machine.latches.exmem hi h.memory.executed hreq with
    ⟨rfl, hacc⟩ | ⟨a, rfl, hacc, ha⟩ | ⟨a, v, rfl, hacc, ha, -⟩ <;> rw [hacc]
  · exact ⟨performed_none ans, fun _ hx => by cases hx⟩
  · obtain ⟨d, rfl⟩ := exists_hit hside hans (by simp)
    have hd : d = u.archRead a :=
      ((h.machine.memorySide.memorySide_read_hit h.check hside).trans (h.archMem a)).trans (h.running.archRead a).symm
    exact ⟨by rw [hd]; rfl, fun x hx => by rw [List.mem_singleton.mp hx, hin]; exact ha⟩
  · obtain ⟨d, rfl⟩ := exists_hit hside hans (by simp)
    exact ⟨rfl, fun x hx => by rw [List.mem_singleton.mp hx, hin]; exact ha⟩

/-- R181, R182: what the instruction in Memory does to the sequential memory, by the request made for it. -/
theorem backRead_advance :
    ((∀ a v, req ≠ .write a v) ∧ ∀ b, (advance s.exmem u).backRead b = u.backRead b) ∨
    ∃ a v, req = .write a v ∧ storedWords (performed req ans) = [wordIndex a] ∧
      ∀ b, (advance s.exmem u).backRead b = if wordIndex b = wordIndex a then v else u.backRead b := by
  cases hi : s.exmem.held with
  | none =>
    obtain rfl := request_of_bubble h.machine.latches.exmem hi hreq
    exact .inl ⟨by simp, fun b => by rw [advance_of_none hi]⟩
  | some i =>
    rw [advance_of_held hi]
    have hkept : storedWords (accessesOf i u) = [] → ∀ b, (retire i u).backRead b = u.backRead b := fun hno _ =>
      h.running.backRead_retire (Latch.ne_halt_of_held hi) (by simp [hno])
    rcases request_of_held h.machine.latches.exmem hi h.memory.executed hreq with
      ⟨rfl, hacc⟩ | ⟨a, rfl, hacc, -⟩ | ⟨a, v, rfl, -, -, he⟩
    · exact .inl ⟨by simp, hkept (by rw [hacc]; rfl)⟩
    · exact .inl ⟨by simp, hkept (by rw [hacc]; rfl)⟩
    · obtain ⟨d, rfl⟩ := exists_hit hside hans (by simp)
      refine .inr ⟨a, v, rfl, rfl, fun b => ?_⟩
      rw [he, h.running.archWrite]
      exact u.backRead_backWrite a b v h.running.wf

/-- R75, R86: after the cycle `ArchMem` is the memory after the instruction in Memory. -/
theorem archRead_after (b : Word) : after.archRead b = (advance s.exmem u).backRead b := by
  rcases h.backRead_advance hreq hside hans with ⟨hno, hkept⟩ | ⟨a, v, rfl, -, hset⟩ <;>
    rcases h.machine.memorySide.memorySide_archRead h.check hside with ⟨a', v', hw, -, hset'⟩ | ⟨hno', hkept'⟩
  · exact absurd hw (hno a' v')
  · rw [hkept', hkept, h.archMem]
  · cases hw
    rw [hset', hset, h.archMem]
  · exact absurd rfl ((hno'.resolve_left hans) a v)

/-- R79, R81: after the cycle both readings fetch the loaded word from where the program has not stored to. -/
theorem code_after {b : Word} (hb : wordIndex b ∉ stored ++ storedWords (performed req ans)) :
    after.backRead b = code b ∧ (advance s.exmem u).backRead b = code b := by
  rw [List.mem_append, not_or] at hb
  obtain ⟨hold, hnew⟩ := hb
  constructor
  · rcases h.machine.memorySide.memorySide_backRead h.check hside b with (he | he) | ⟨a, v, rfl, -, hab⟩
    · rw [he, h.clockCode b hold]
    · rw [he, h.archMem, h.seqCode b hold]
    · obtain ⟨d, rfl⟩ := exists_hit hside hans (by simp)
      exact absurd (List.mem_singleton.mpr hab) hnew
  · rcases h.backRead_advance hreq hside hans with ⟨-, hkept⟩ | ⟨a, v, -, hstored, hset⟩
    · rw [hkept, h.seqCode b hold]
    · rw [hstored, List.mem_singleton] at hnew
      rw [hset, if_neg hnew, h.seqCode b hold]

/-- R250: what Memory hands on for a register is what the instruction leaves in it. -/
theorem wbval_after {r : RegIdx} (hw : s.exmem.writes r = true) (hr : r ≠ 0) :
    (memProposal s.exmem ans).wbval = (advance s.exmem u).readReg r := by
  have hl := h.machine.latches.exmem
  obtain ⟨-, hctrl, -, halu, hdata⟩ := memProposal_fields s.exmem hans
  obtain ⟨hv, -, -⟩ := (Latch.writes_iff _ r).mp hw
  rw [Latch.wbval, hctrl, hl.memToReg_eq hv]
  cases hread : s.exmem.ctrl.memRead with
  | false => exact halu.trans (h.memory.executed.aluResult_eq hl hw hr hread)
  | true =>
    obtain ⟨i, hi⟩ := hl.exists_held hv
    obtain ⟨rs, rt, imm, rfl⟩ := (hl.memRead_iff hi).mp hread
    obtain rfl : rt = r := Option.some.inj ((hl.writes_iff_destOf hi r).mp hw)
    obtain ⟨hperformed, -⟩ := h.performed_eq hreq hside hans hi
    rw [if_pos rfl, hdata _ (answer_of_performed_load hperformed) hread, advance_of_held hi]
    exact (u.readReg_writeReg_same _ _ hr).symm

end Access

/-! ### The relation after a cycle -/

/-- R33, R250: the registers after the instruction in Memory, as Decode will see them. -/
theorem registers_after (h : Simulates code stored s u) (hreq : memRequest s = .ok req)
    (hside : Machine.memorySide s req = .ok (after, ans)) (hans : ans ≠ .miss) {t : State}
    (hmemwb : t.memwb = memProposal s.exmem ans) (hx : t.x = (writeback s).x) (r : RegIdx) :
    rfw t r = (advance s.exmem u).readReg r := by
  have hl := h.machine.latches.exmem
  obtain ⟨hv, hctrl, hdest, -⟩ := memProposal_fields s.exmem hans
  have hwrites : t.memwb.writes r = s.exmem.writes r := by rw [hmemwb, Latch.writes, hv, hctrl, hdest, Latch.writes]
  have hold : t.readReg r = u.readReg r := by
    rw [State.readReg_congr hx, ← rfw_eq_readReg_writeback, h.registers]
  rw [rfw_eq, hwrites]
  split
  · next hnew =>
    obtain ⟨hw, hr⟩ := hnew
    rw [hmemwb, h.wbval_after hreq hside hans hw hr]
  · next hno =>
    rw [hold]
    cases hw : s.exmem.writes r with
    | false => exact (advance_readReg_of_not_writes hl u hw).symm
    | true =>
      obtain rfl : r = 0 := by
        by_contra hr
        exact hno ⟨hw, hr⟩
      rfl

/-- R271, R285: a cycle without a miss carries out the instruction in Memory and moves the others on. -/
theorem commit_moved (h : Simulates code stored s u) (hreq : memRequest s = .ok req)
    (hside : Machine.memorySide s req = .ok (after, ans)) (hans : ans ≠ .miss) {o : DecodeOut} {fetch : FetchOut}
    (hdecode : decodeStage s false = .ok o)
    (hfetch : fetchStage s after (acceptFetch s false o.idStall o.taken) = .ok fetch)
    (hmachine : MachineOk (commit s after ans o fetch)) :
    Simulates code (stored ++ storedWords (performed req ans)) (commit s after ans o fetch) (advance s.exmem u) := by
  have hframe := memorySide_frame hside
  have hcfg : after.cfg = s.cfg := by rw [hframe]
  have hsub : stored ⊆ stored ++ storedWords (performed req ans) := List.subset_append_left ..
  have hcode := fun a (ha : wordIndex a ∉ stored ++ storedWords (performed req ans)) => h.code_after hreq hside hans ha
  have hexmem : (commit s after ans o fetch).exmem = exProposal s := by simp [hans]
  have hmemwb : (commit s after ans o fetch).memwb = memProposal s.exmem ans := by simp [hans]
  have hregs := h.registers_after hreq hside hans (t := commit s after ans o fetch) hmemwb rfl
  have hexec : Executed (advance s.exmem u) (commit s after ans o fetch).exmem :=
    hexmem ▸ h.execute.operands.executed h.machine.latches.idex
  have hnext : advance (commit s after ans o fetch).exmem (advance s.exmem u) = advance s.idex (advance s.exmem u) :=
    advance_congr (by rw [hexmem, exProposal_held]) _
  refine ⟨hcfg ▸ h.check, ?driver, ?fault, hmachine, h.running.advance _, ?cfg, hregs, ?archMem, ?clockCode,
    fun a ha => (hcode a ha).2, ⟨?inMemory, hexec⟩, ?execute, ?front⟩
  case driver => rw [commit_driver, hframe]; exact h.driver
  case fault => rw [commit_fault, hframe]; exact h.fault
  case cfg => rw [advance_cfg, h.cfg, commit_cfg, hcfg]
  case archMem => exact fun a => h.archRead_after hreq hside hans a
  case clockCode => exact fun a ha => (hcode a ha).1
  case inMemory =>
    refine h.execute.inFlight.mono hsub fun hv => ?_
    rw [hexmem] at hv ⊢
    obtain ⟨hv', hinstr, -⟩ := exProposal_valid hv
    exact ⟨hv', hinstr⟩
  case execute =>
    rw [hnext]
    cases hstall : o.idStall with
    | true =>
      have hidex : (commit s after ans o fetch).idex = Latch.bubble := by simp [commit, nextIdex, hans, hstall]
      exact ⟨hidex ▸ inFlight_bubble, fun i hi => by rw [hidex] at hi; cases hi⟩
    | false =>
      have hidex : (commit s after ans o fetch).idex = o.prop := by simp [commit, nextIdex, hans, hstall]
      refine ⟨h.front.inFlight.mono hsub fun hv => ?_, ?_⟩
      · rw [hidex] at hv ⊢
        exact (decodeStage_prop_held hdecode).2 hv
      · exact hnext ▸ operandsReady_of_decode hdecode hstall hidex hexmem rfl hmachine.latches.exmem hexec hregs
  case front =>
    rw [hnext]
    cases hstall : o.idStall with
    | true =>
      have hidex : (commit s after ans o fetch).idex = Latch.bubble := by simp [commit, nextIdex, hans, hstall]
      obtain rfl := Except.ok.inj (show fetchStage s after false = .ok fetch by simpa [acceptFetch, hstall] using hfetch)
      rw [hidex, advance_bubble]
      refine h.front.congr hsub ?_ ?_ ?_
      · simp [commit, nextIfid, hstall]
      · simp [commit, nextPc, hans, hstall]
      · simp
    | false =>
      have hidex : (commit s after ans o fetch).idex = o.prop := by simp [commit, nextIdex, hans, hstall]
      rw [hidex, advance_congr (decodeStage_prop_held hdecode).1]
      refine h.front.moved hans hstall (hstall ▸ hfetch) hdecode (fun r x hx => ?_) ?_ hsub fun a ha => (hcode a ha).1
      · exact transferOperand_eq h.machine.latches.exmem h.memory.executed h.registers h.machine.latches.idex hx
      · rw [advance_cfg, advance_cfg, h.cfg]

/-- R266, R270, R285: a cycle with a miss leaves every instruction where it is; Execute keeps what was forwarded to it. -/
theorem commit_stalled (h : Simulates code stored s u)
    (hside : Machine.memorySide s req = .ok (after, .miss)) {o : DecodeOut} {fetch : FetchOut}
    (hfetch : fetchStage s after (acceptFetch s true o.idStall o.taken) = .ok fetch)
    (hmachine : MachineOk (commit s after .miss o fetch)) : Simulates code stored (commit s after .miss o fetch) u := by
  have hframe := memorySide_frame hside
  have hcfg : after.cfg = s.cfg := by rw [hframe]
  have hexmem : (commit s after .miss o fetch).exmem = s.exmem := by simp
  have hmemwb : (commit s after .miss o fetch).memwb = Latch.bubble := by simp
  obtain rfl := Except.ok.inj (show fetchStage s after false = .ok fetch by simpa [acceptFetch] using hfetch)
  refine ⟨hcfg ▸ h.check, ?driver, ?fault, hmachine, h.running, ?cfg, ?registers, ?archMem, ?clockCode, h.seqCode,
    ⟨?inMemory, hexmem ▸ h.memory.executed⟩, ?execute, ?front⟩
  case driver => rw [commit_driver, hframe]; exact h.driver
  case fault => rw [commit_fault, hframe]; exact h.fault
  case cfg => rw [h.cfg, commit_cfg, hcfg]
  case registers =>
    intro r
    rw [rfw_of_not_writes (by rw [hmemwb]; rfl), State.readReg_congr (commit_x ..), ← rfw_eq_readReg_writeback, h.registers]
  case archMem =>
    intro a
    rcases h.machine.memorySide.memorySide_archRead h.check hside with ⟨b, v, -, hhit, -⟩ | ⟨-, hkept⟩
    · cases hhit
    · exact (hkept a).trans (h.archMem a)
  case clockCode =>
    intro a ha
    rcases h.machine.memorySide.memorySide_backRead h.check hside a with (he | he) | ⟨b, v, -, hhit, -⟩
    · exact he.trans (h.clockCode a ha)
    · exact he.trans ((h.archMem a).trans (h.seqCode a ha))
    · exact absurd rfl hhit
  case inMemory => exact hexmem ▸ h.memory.inFlight
  case execute =>
    rw [hexmem]
    refine ⟨h.execute.inFlight, fun i hi hsources r hr => ?_⟩
    obtain ⟨ha, hb⟩ := h.execute.operands i hi hsources r hr
    exact ⟨fun hrs => (forward_captured hexmem hmemwb ..).trans (ha hrs),
      fun hrt => (forward_captured hexmem hmemwb ..).trans (hb hrt)⟩
  case front =>
    rw [hexmem]
    exact h.front.congr (List.Subset.refl _) rfl rfl (by simp)

end Simulates

end Sys2Proof.Machine
end

section
/-! O60, the runs: the relation along the clock edges until `halted`, beside the steps of the sequential reading
(spec/46_hazard_unit.md R285; spec/70_reset_and_hazards.md R441). -/

namespace Sys2Proof.Machine

open Sys2Proof

/-! ### The traces of one edge -/

/-- The register write that Writeback holds (R250). -/
def pendingWrites (s : State) : List RegWrite :=
  if wbEn s && s.memwb.dest != 0 then [(s.memwb.dest, s.memwb.wbval)] else []

theorem clockRegWrites_of_cycle {s t : State} (hfault : s.fault = .none) (hhalted : s.halted = false)
    (hcycle : cycle s = .ok t) : clockRegWrites s = pendingWrites s := by
  simp [clockRegWrites, pendingWrites, s.faulted_eq_false_iff.mpr hfault, hhalted, hcycle]

theorem pendingWrites_of_bubble {s : State} (h : s.memwb.valid = false) : pendingWrites s = [] := by
  simp [pendingWrites, wbEn, h]

/-- The register write of an instruction that leaves the state `v` (log entry 17). -/
def writesOf (i : Instr) (v : State) : List RegWrite :=
  match destOf i with
  | some d => if d != 0 then [(d, v.readReg d)] else []
  | none => []

theorem SeqRunning.seqRegWrites_eq {u : State} (h : SeqRunning u) {i : Instr} (hi : fetchInstr u = .instr i)
    (hne : i ≠ .halt) (hexec : exec i u = .next (Machine.retire i u)) :
    seqRegWrites u = writesOf i (Machine.retire i u) := by
  have hfaulted : (Machine.retire i u).faulted = false := (State.faulted_eq_false_iff _).mpr (h.retire hne).fault
  rw [seqRegWrites, h.seqInstr_eq hi, writesOf]
  cases hdest : destOf i with
  | none => simp [hdest]
  | some d => simp [hdest, hexec, hfaulted]

/-- R250: the write that Memory hands on is the register write of the instruction, once the registers agree. -/
theorem pendingWrites_eq {t v : State} {l : Latch} {i : Instr} (hl : l.Decoded) (hi : l.held = some i) {ans : Answer}
    (hans : ans ≠ .miss) (hmemwb : t.memwb = memProposal l ans) (hregs : ∀ r, rfw t r = v.readReg r) :
    pendingWrites t = writesOf i v := by
  obtain ⟨hvalid, hctrl, hdest, -⟩ := memProposal_fields l hans
  have hwrites : ∀ r, t.memwb.writes r = true ↔ destOf i = some r := fun r => by
    rw [hmemwb, Latch.writes, hvalid, hctrl, hdest, ← Latch.writes]
    exact hl.writes_iff_destOf hi r
  have hself : wbEn t = t.memwb.writes t.memwb.dest := by simp [Latch.writes, wbEn]
  rw [pendingWrites, hself, writesOf]
  cases hd : destOf i with
  | none =>
    have hno : t.memwb.writes t.memwb.dest = false := by
      by_contra hw
      cases hd.symm.trans ((hwrites _).mp (by simpa using hw))
    simp [hno]
  | some d =>
    have hw := (hwrites d).mpr hd
    obtain ⟨-, -, rfl⟩ := (Latch.writes_iff _ d).mp hw
    by_cases hz : t.memwb.dest = 0
    · simp [hz]
    · have hvalue : t.memwb.wbval = v.readReg t.memwb.dest := by rw [← hregs, rfw_eq, if_pos ⟨hw, hz⟩]
      simp [hw, hvalue]

/-! ### One edge -/

/-- What an edge from `s` to `t` is to the sequential reading between `u` and `v`: nothing, or one step with the same register
write and the same data access. -/
def EdgeMatches (s t u v : State) : Prop :=
  (v = u ∧ pendingWrites t = [] ∧ clockAccesses s = []) ∨
  (step u = .next v ∧ pendingWrites t = seqRegWrites u ∧ clockAccesses s = seqAccesses u)

theorem step_of_clock {s : State} (hc : s.cfg.check = none) (hd : s.driver = .clock) : step s = .next (clockEdge s) := by
  simp [step, hc, hd]

/-- R285: a cycle that raises no fault keeps the relation. -/
theorem Simulates.edge {code : Word → Word} {stored : List Nat} {s t u : State} (h : Simulates code stored s u)
    (hpc : wordIndex u.pc ∉ stored) (hhalted : s.halted = false) (hcycle : cycle s = .ok t) :
    ∃ v, Simulates code (stored ++ storedWords (clockAccesses s)) t v ∧ EdgeMatches s t u v := by
  have hmachine : MachineOk t := by
    refine machineInvariantKept s t h.machine ?_
    rw [step_of_clock h.check h.driver, clockEdge_of_cycle_ok h.fault hhalted hcycle]
  obtain ⟨req, after, ans, o, fetch, hreq, hside, hdecode, hfetch, rfl⟩ := cycle_ok hcycle
  have haccess := clockAccesses_of_cycle h.fault hhalted hcycle hreq hside
  rw [haccess]
  by_cases hans : ans = .miss
  · subst hans
    rw [performed_miss] at haccess ⊢
    refine ⟨u, ?_, .inl ⟨rfl, pendingWrites_of_bubble (by simp [Latch.bubble]), haccess⟩⟩
    rw [show stored ++ storedWords [] = stored from List.append_nil _]
    exact h.commit_stalled hside hfetch hmachine
  · rw [decide_eq_false hans] at hdecode hfetch
    have hmoved := h.commit_moved hreq hside hans hdecode hfetch hmachine
    refine ⟨_, hmoved, ?_⟩
    have hmemwb : (commit s after ans o fetch).memwb = memProposal s.exmem ans := by simp [hans]
    have hl := h.machine.latches.exmem
    cases hi : s.exmem.held with
    | none =>
      obtain rfl := request_of_bubble hl hi hreq
      rw [performed_none] at haccess
      refine .inl ⟨advance_of_none hi u, pendingWrites_of_bubble ?_, haccess⟩
      rw [hmemwb, (memProposal_fields s.exmem hans).1]
      by_contra hv
      obtain ⟨i, hi'⟩ := hl.exists_held (by simpa using hv)
      cases hi.symm.trans hi'
    | some i =>
      have hfound := h.fetchInstr_of_held hpc hi
      have hne := Latch.ne_halt_of_held hi
      obtain ⟨hperformed, hin⟩ := h.performed_eq hreq hside hans hi
      have hexec := exec_eq_retire hin
      refine .inr ⟨?_, ?_, ?_⟩
      · rw [h.running.step_eq hfound, hexec, advance_of_held hi]
      · rw [pendingWrites_eq hl hi hans hmemwb hmoved.registers, h.running.seqRegWrites_eq hfound hne hexec,
          advance_of_held hi]
      · rw [haccess, hperformed, h.running.seqAccesses_eq hfound hin]

/-! ### Runs -/

section Runs

variable {α : Type} (f : State → List α) {s t : State} (n : Nat)

theorem runSteps_succ (h : step s = .next t) : runSteps (n + 1) s = runSteps n t := by simp [runSteps, h]

theorem traceOf_succ (h : step s = .next t) : traceOf f (n + 1) s = f s ++ traceOf f n t := by simp [traceOf, h]

/-- R350 step 0: nothing is listed in a state that every step keeps. -/
theorem traceOf_of_fixed (h : step s = .next s) (hf : f s = []) : traceOf f n s = [] := by
  induction n with
  | zero => rfl
  | succ n ih => rw [traceOf_succ f n h, hf, ih, List.nil_append]

theorem clockEdges_of_fixed (h : clockEdge s = s) : clockEdges n s = s := by
  induction n with
  | zero => rfl
  | succ n ih => rw [clockEdges, h, ih]

end Runs

theorem clockEdge_of_stopped {s : State} (h : s.faulted = true ∨ s.halted = true) : clockEdge s = s := by
  rcases h with h | h <;> simp [clockEdge, h]

/-- R383: a run in which a fault was raised never reaches `halted`. -/
theorem not_halted_of_faulted {s : State} (h : s.faulted = true) (n : Nat) : (clockEdges n s).halted = false := by
  rw [clockEdges_of_fixed n (clockEdge_of_stopped (.inl h))]
  have hfault : s.fault ≠ .none := of_decide_eq_true h
  simp [State.halted, hfault]

theorem storedWords_append (as bs : List DataAccess) : storedWords (as ++ bs) = storedWords as ++ storedWords bs :=
  List.filterMap_append

/-- R441 from `u` on, for a program that has stored to the words `stored` before. -/
def NeverFetchesStoredAfter (stored : List Nat) (u : State) : Prop :=
  ∀ n t, runSteps n u = .next t → t.fetchStopped = false →
    wordIndex t.pc ∉ stored ++ storedWords (traceOf seqAccesses n u)

theorem NeverFetchesStored.afterNothing {u : State} (h : NeverFetchesStored u) : NeverFetchesStoredAfter [] u := h

theorem NeverFetchesStoredAfter.pc {stored : List Nat} {u : State} (h : NeverFetchesStoredAfter stored u)
    (hrun : u.fetchStopped = false) : wordIndex u.pc ∉ stored :=
  fun hmem => h 0 u rfl hrun (List.mem_append_left _ hmem)

theorem NeverFetchesStoredAfter.step {stored : List Nat} {u v : State} (h : NeverFetchesStoredAfter stored u)
    (hstep : step u = .next v) : NeverFetchesStoredAfter (stored ++ storedWords (seqAccesses u)) v := by
  intro n t hn hrun
  have hnot := h (n + 1) t ((runSteps_succ n hstep).trans hn) hrun
  rwa [traceOf_succ seqAccesses n hstep, storedWords_append, ← List.append_assoc] at hnot

/-- R285, from states in the middle of their runs: the sequential run from `u` ends, and the clocked run of `n` edges from `s`
has its traces, after the write that Writeback holds, and its end state. -/
def RunsAgree (n : Nat) (s u : State) : Prop :=
  ∃ k t, runSteps k u = .next t ∧ t.ended = true ∧
    traceOf clockRegWrites n s = pendingWrites s ++ traceOf seqRegWrites k u ∧
    traceOf clockAccesses n s = traceOf seqAccesses k u ∧
    (∀ r, (clockEdges n s).readReg r = t.readReg r) ∧
    (∀ a, (clockEdges n s).archRead a = t.archRead a) ∧
    (clockEdges n s).pc = t.pc

namespace Simulates

variable {code : Word → Word} {stored : List Nat} {s u : State}

/-- R55, R198: at `halted` nothing is in flight and the sequential reading is at the sentinel. -/
theorem runsAgree_of_halted (h : Simulates code stored s u) (hpc : wordIndex u.pc ∉ stored) (hhalted : s.halted = true)
    (n : Nat) : RunsAgree n s u := by
  have hfixed := clockEdge_of_stopped (.inr hhalted)
  have hstep : step s = .next s := by rw [step_of_clock h.check h.driver, hfixed]
  have hparts := hhalted
  simp only [State.halted, Bool.and_eq_true, Bool.not_eq_true'] at hparts
  obtain ⟨⟨⟨⟨⟨⟨⟨hstopped, hifid⟩, hidex⟩, hexmem⟩, hmemwb⟩, -⟩, -⟩, -⟩ := hparts
  have hfront := h.front
  rw [advance_of_none (Latch.held_of_invalid hexmem), advance_of_none (Latch.held_of_invalid hidex)] at hfront
  obtain ⟨-, w, hw⟩ := hfront.stopped hstopped
  have hfound := hw.fetchInstr_halt hpc (h.seqCode _ hpc)
  have hseq : step u = .next { u with fetchStopped := true } := h.running.step_eq hfound
  refine ⟨1, { u with fetchStopped := true }, runSteps_succ 0 hseq, ?_, ?_, ?_, fun r => ?_, fun a => ?_, ?_⟩
  · simp [State.ended, h.running.fault]
  · rw [traceOf_of_fixed _ n hstep (by simp [clockRegWrites, hhalted]), pendingWrites_of_bubble hmemwb,
      traceOf_succ _ 0 hseq]
    simp [seqRegWrites, h.running.seqInstr_eq hfound, destOf, traceOf]
  · rw [traceOf_of_fixed _ n hstep (by simp [clockAccesses, hhalted]), traceOf_succ _ 0 hseq]
    simp [seqAccesses, h.running.seqInstr_eq hfound, traceOf]
  · rw [clockEdges_of_fixed n hfixed, ← rfw_of_not_writes (s := s) (by simp [Latch.writes, hmemwb]), h.registers]
    rfl
  · rw [clockEdges_of_fixed n hfixed, h.archMem, ← h.running.archRead]
    rfl
  · rw [clockEdges_of_fixed n hfixed, hfront.pc, hifid]
    rfl

/-- One edge before two runs that agree. -/
theorem runsAgree_succ {t v : State} (h : Simulates code stored s u) (hhalted : s.halted = false)
    (hcycle : cycle s = .ok t) (hmatches : EdgeMatches s t u v) {n : Nat} (hagree : RunsAgree n t v) :
    RunsAgree (n + 1) s u := by
  have hedge := clockEdge_of_cycle_ok h.fault hhalted hcycle
  have hstep : step s = .next t := by rw [step_of_clock h.check h.driver, hedge]
  obtain ⟨k, e, hrun, hended, hwrites, haccesses, hend⟩ := hagree
  have hclock : clockEdges (n + 1) s = clockEdges n t := by rw [clockEdges, hedge]
  rw [RunsAgree, hclock, traceOf_succ _ n hstep, traceOf_succ _ n hstep, clockRegWrites_of_cycle h.fault hhalted hcycle,
    hwrites, haccesses]
  rcases hmatches with ⟨rfl, hpending, hnone⟩ | ⟨hseq, hpending, hsame⟩
  · exact ⟨k, e, hrun, hended, by rw [hpending, List.nil_append], by rw [hnone, List.nil_append], hend⟩
  · exact ⟨k + 1, e, (runSteps_succ k hseq).trans hrun, hended, by rw [hpending, traceOf_succ _ k hseq],
      by rw [hsame, traceOf_succ _ k hseq], hend⟩

/-- R285: from related states, a clocked run that reaches `halted` agrees with the sequential run. -/
theorem runsAgree {n : Nat} (h : Simulates code stored s u) (hfetch : NeverFetchesStoredAfter stored u)
    (hend : (clockEdges n s).halted = true) : RunsAgree n s u := by
  have hpc := hfetch.pc h.running.fetchStopped
  induction n generalizing stored s u with
  | zero => exact h.runsAgree_of_halted hpc hend 0
  | succ n ih =>
    rcases clockEdge_cases s with ⟨hfaulted | hhalted, -⟩ | ⟨-, hhalted, t, hcycle, hedge⟩ | ⟨-, -, f, hcycle, hedge⟩
    · cases ((s.faulted_eq_false_iff).mpr h.fault).symm.trans hfaulted
    · exact h.runsAgree_of_halted hpc hhalted (n + 1)
    · obtain ⟨v, hv, hmatches⟩ := h.edge hpc hhalted hcycle
      rw [clockEdges, hedge] at hend
      have hfetch' : NeverFetchesStoredAfter (stored ++ storedWords (clockAccesses s)) v := by
        rcases hmatches with ⟨rfl, -, hnone⟩ | ⟨hseq, -, hsame⟩
        · rw [hnone, show stored ++ storedWords [] = stored from List.append_nil _]
          exact hfetch
        · exact hsame ▸ hfetch.step hseq
      exact h.runsAgree_succ hhalted hcycle hmatches (ih hv hfetch' hend (hfetch'.pc hv.running.fetchStopped))
    · have hfaulted : (s.raise f).faulted = true := by
        simp [State.faulted, h.fault, cycle_error_code_ne_none hcycle]
      rw [clockEdges, hedge, not_halted_of_faulted hfaulted] at hend
      cases hend

end Simulates

/-! ### From reset -/

/-- R54: at reset nothing is in flight and both readings hold the loaded memory and the same registers. -/
theorem simulates_reset {c : Config} {mem : Memory} (hc : c.check = none) (hwf : mem.Wf) (hwithin : mem.Within c.memSize) :
    Simulates (State.ofConfig c mem).backRead [] (State.ofConfig c mem) (seqStart c mem) where
  check := hc
  driver := rfl
  fault := rfl
  machine := ofConfig_machineOk hwf hwithin
  running := seqStart_running hc hwf
  cfg := rfl
  registers _ := rfw_of_not_writes rfl
  archMem a := (seqStart_running hc hwf).archRead a
  clockCode _ _ := rfl
  seqCode _ _ := rfl
  memory := ⟨inFlight_bubble, fun _ hi => by cases hi⟩
  execute := ⟨inFlight_bubble, fun _ hi => by cases hi⟩
  front := frontHolds_of_bubble rfl rfl fun hs => by cases hs

/-- Settles O60: the relation holds at reset, every edge keeps it, and at `halted` it is agreement with the end of the
sequential run. -/
theorem pipelineAgreesWithSequentialMeaning : Obligations.PipelineAgreesWithSequentialMeaning := by
  intro c mem n hc hwf hwithin hend hfetch
  exact (simulates_reset hc hwf hwithin).runsAgree hfetch.afterNothing hend

end Sys2Proof.Machine
end

section
/-! O43, O49, O50, O52, the controller: its checks never fail (spec/47_cache_controller.md R295, R313), and what it does with
a request that misses while no fill is active (R306 to R309; spec/48_write_buffer.md R342, R344). -/

namespace Sys2Proof.Machine

open Sys2Proof

/-! ### The checks of the controller -/

/-- R313, R317 d: the line of an active fill exists, and holds the block of the fill once a word of it has landed. -/
theorem CacheOk.exists_fillTick {s : State} (h : CacheOk s) : ∃ t, fillTick s = .ok t := by
  cases ht : fillTick s with
  | ok t => exact ⟨t, rfl⟩
  | error f =>
    obtain ⟨hact, -, herror⟩ := fillTick_error ht
    have hfill := h.fill hact
    have hget := State.lines_getElem?_of_lt (h.lineCount ▸ hfill.idx)
    have hland := (landWord_eq_ok (s := tickedFill s)).mpr ⟨_, hget, (Nat.eq_zero_or_pos _).imp_right hfill.landing, rfl⟩
    cases herror.symm.trans hland

/-- R295: the line of every address exists. -/
theorem CacheOk.exists_access {s : State} (h : CacheOk s) (hg : s.cfg.CacheShape) (a : Word) (store : Option Word) :
    ∃ t ans, access s a store = .ok (t, ans) := by
  cases ht : access s a store with
  | ok p => exact ⟨p.1, p.2, rfl⟩
  | error f =>
    obtain ⟨hnone, -⟩ := access_error ht
    cases (State.lines_getElem?_of_lt (h.index_lt hg a)).symm.trans hnone

/-- R298: with the cache on, the memory side is the lookup in the state after drain and fill tick. -/
theorem memorySide_of_ticked {s m : State} (hon : s.cfg.cached = true) (hm : fillTick (drainOne s) = .ok m)
    (req : Request) : memorySide s req = lookup m req := by
  simp [memorySide, hon, cacheCycle, hm]

/-- R298: a request is an access of its address. -/
theorem exists_lookup_eq_access {req : Request} {a : Word} (h : req.addr = some a) :
    ∃ store, ∀ m, lookup m req = access m a store := by
  cases req with
  | none => cases h
  | read b => exact ⟨none, fun m => by cases h; rfl⟩
  | write b v => exact ⟨some v, fun m => by cases h; rfl⟩

/-- R313: drain and fill tick raise nothing. -/
theorem MemorySideOk.exists_ticked {s : State} (hc : s.cfg.check = none) (hon : s.cfg.cached = true) (h : MemorySideOk s) :
    ∃ m, Machine.fillTick (Machine.drainOne s) = .ok m :=
  ((h.drainOne hc hon).cache (drainOne_cfg s ▸ hon)).exists_fillTick

/-- R387: the memory side answers every request. -/
theorem MemorySideOk.exists_memorySide {s : State} (hc : s.cfg.check = none) (h : MemorySideOk s) (req : Request) :
    ∃ t ans, Machine.memorySide s req = .ok (t, ans) := by
  cases hon : s.cfg.cached with
  | false => exact ⟨_, _, memorySide_of_uncached hon req⟩
  | true =>
    obtain ⟨m, hm⟩ := h.exists_ticked hc hon
    obtain ⟨hcfg, hmOk, -⟩ := h.ticked hc hon hm
    have hcache := hmOk.cache (hcfg ▸ hon)
    have hg : m.cfg.CacheShape := Config.cacheShape_of_check (hcfg ▸ hc) (hcfg ▸ hon)
    rw [memorySide_of_ticked hon hm]
    cases req with
    | none => exact ⟨m, .noAnswer, rfl⟩
    | read a => exact hcache.exists_access hg a none
    | write a v => exact hcache.exists_access hg a (some v)

/-! ### Hits and misses -/

theorem classify_eq_missIdle {s : State} {a : Word} :
    classify s a = .missIdle ↔ s.hitLine a = none ∧ s.fill.active = false := by
  unfold classify
  cases s.hitLine a <;> cases s.fill.active <;> simp

/-- R301: a read hit. -/
theorem access_read_of_hit {s : State} {a : Word} {l : Line} (h : s.hitLine a = some l) :
    access s a none = .ok (s, .hit (wordAt l.data (s.cfg.offset a))) := by
  obtain ⟨hget, -⟩ := State.hitLine_eq_some.mp h
  simp [access, classify, hget, h]

/-- R302, R303: a write hit. -/
theorem access_write_of_hit {s : State} {a : Word} {l : Line} (h : s.hitLine a = some l) (v : Word) :
    access s a (some v) = .ok (s.storeHit a l v, .hit v) := by
  obtain ⟨hget, -⟩ := State.hitLine_eq_some.mp h
  simp [access, classify, hget, h]

/-- R304: a miss while a fill is active changes nothing. -/
theorem access_of_missPending {s : State} {a : Word} (hline : s.cfg.index a < s.lines.length) (hmiss : s.hitLine a = none)
    (hact : s.fill.active = true) (store : Option Word) : access s a store = .ok (s, .miss) := by
  simp [access, classify, State.lines_getElem?_of_lt hline, hmiss, hact]

/-- R305, R306: a miss with no fill active starts one. -/
theorem access_of_missIdle {s : State} {a : Word} {victim : Line} (hget : s.lines[s.cfg.index a]? = some victim)
    (hmiss : s.hitLine a = none) (hidle : s.fill.active = false) (store : Option Word) :
    access s a store = .ok (startFill s a victim, .miss) := by
  simp [access, classify, hget, hmiss, hidle]

/-! ### The eviction into a drained buffer -/

theorem Config.wbCapacity_pos {c : Config} (h : c.check = none) (hon : c.cached = true) : 0 < c.wbCapacity := by
  simp only [Config.check, ite_some_eq_none_iff, c.cached_eq_true_iff.mp hon, true_and] at h
  obtain ⟨-, -, -, -, -, -, -, -, -, -, hcapacity, -⟩ := h
  exact Nat.pos_of_ne_zero hcapacity

/-- R307: what the eviction of `l` out of line `idx` leaves in a drained buffer. -/
def evicted (c : Config) (idx : Nat) (l : Line) : List WbEntry :=
  if l.valid = true ∧ l.dirty = true then [victimEntry c idx l] else []

/-- R307, R344: the eviction finds room in a drained buffer. -/
theorem evict_of_empty {s : State} (hempty : s.wbuf = []) (hroom : 0 < s.cfg.wbCapacity) (idx : Nat) (l : Line) :
    evict s idx l = some (evicted s.cfg idx l) := by
  rw [evict_eq_some, evicted]
  by_cases hdirty : l.valid = true ∧ l.dirty = true
  · simp [hdirty, hempty, hroom]
  · rw [if_neg hdirty, hempty]
    exact .inr ⟨(not_and_or.mp hdirty).imp Bool.eq_false_of_not_eq_true Bool.eq_false_of_not_eq_true, rfl⟩

/-- R306, R307: the start of a fill, the buffer being drained. -/
theorem startFill_of_empty {s : State} (hempty : s.wbuf = []) (hroom : 0 < s.cfg.wbCapacity) (a : Word) (victim : Line) :
    startFill s a victim = { s with
      wbuf := evicted s.cfg (s.cfg.index a) victim
      lines := s.lines.set (s.cfg.index a) { victim with valid := false, dirty := false }
      fill := Fill.start s.cfg a } := by
  rw [startFill, evict_of_empty hempty hroom]

end Sys2Proof.Machine
end

section
/-! O55, O56: a fill runs on the clock (spec/47_cache_controller.md R310 to R312, R318). The record of the fill says in which
cycle its next word lands; every cycle keeps that, whatever is requested. -/

namespace Sys2Proof

/-- R318 item 1: the cycle in which word `k` of a fill lands, the request that started it being presented in cycle 0. -/
def Config.landingCycle (c : Config) (k : Nat) : Nat := c.missPenalty + k * c.subseqPenalty

theorem Config.landingCycle_succ (c : Config) (k : Nat) : c.landingCycle (k + 1) = c.landingCycle k + c.subseqPenalty := by
  rw [landingCycle, landingCycle, Nat.succ_mul, Nat.add_assoc]

theorem Config.landingCycle_mono (c : Config) {j k : Nat} (h : j ≤ k) : c.landingCycle j ≤ c.landingCycle k :=
  Nat.add_le_add_left (Nat.mul_le_mul_right _ h) _

namespace Machine

/-! ### The record of a fill after `n` cycles -/

/-- `f` is the record, after cycle `n`, of the active fill of the block of `a` that a request started in cycle 0: its
counter is as far from its threshold as cycle `n` is from the cycle in which the next word lands. -/
structure FillOnTime (c : Config) (a : Word) (n : Nat) (f : Fill) : Prop where
  active : f.active = true
  base : f.base = c.blockBase a
  idx : f.idx = c.index a
  tag : f.tag = c.tag a
  word : f.word < c.blockWords
  running : f.cnt < f.thr
  threshold : f.thr = if f.word = 0 then c.missPenalty else c.subseqPenalty
  due : n + f.thr = c.landingCycle f.word + f.cnt

namespace FillOnTime

variable {c : Config} {a : Word} {n : Nat} {f : Fill}

/-- R306: the record with which a fill begins. -/
theorem start (hg : c.CacheShape) (a : Word) : FillOnTime c a 0 (Fill.start c a) :=
  ⟨rfl, rfl, rfl, rfl, hg.blockWords_pos, hg.missPenalty, rfl, by simp [Fill.start, Config.landingCycle]⟩

/-- R318 item 1: exactly the words due by cycle `n` have landed. -/
theorem word_lt_iff (h : FillOnTime c a n f) (k : Nat) : k < f.word ↔ c.landingCycle k ≤ n := by
  have hrunning := h.running
  have hdue := h.due
  constructor
  · intro hk
    have hthr : f.thr = c.subseqPenalty := h.threshold.trans (if_neg (by omega))
    have hmono := c.landingCycle_mono (Nat.succ_le_of_lt hk)
    rw [Nat.succ_eq_add_one, c.landingCycle_succ] at hmono
    omega
  · intro hk
    by_contra hword
    have hmono := c.landingCycle_mono (not_lt.mp hword)
    omega

/-- R312: an active fill has not reached the landing of its last word. -/
theorem lt_lastLanding (h : FillOnTime c a n f) : n < c.landingCycle (c.blockWords - 1) := by
  have hword := h.word
  exact not_le.mp (mt (h.word_lt_iff _).mpr (by omega))

/-- R318 item 1: how many words have landed after cycle `n`. -/
theorem word_eq (h : FillOnTime c a n f) :
    f.word = if n < c.missPenalty then 0 else (n - c.missPenalty) / c.subseqPenalty + 1 := by
  have hfirst := h.word_lt_iff 0
  simp only [Config.landingCycle, Nat.zero_mul, Nat.add_zero] at hfirst
  split
  · omega
  · obtain ⟨j, hj⟩ := Nat.exists_eq_succ_of_ne_zero (hfirst.mpr (by omega)).ne'
    have hlast := (h.word_lt_iff j).mp (by omega)
    have hnext := mt (h.word_lt_iff (j + 1)).mpr (by omega)
    simp only [Config.landingCycle] at hlast hnext
    rw [hj, Nat.div_eq_of_lt_le (k := j) (by omega) (by omega)]

end FillOnTime

/-! ### Drain and fill tick of one cycle -/

/-- R310 to R312: the fill tick of cycle `n + 1`. The record stays on time; or the last word lands, and the line then holds
the whole block. -/
theorem FillOnTime.fillTick {s t : State} {a : Word} {n : Nat} (h : FillOnTime s.cfg a n s.fill)
    (hindex : s.cfg.index a < s.lines.length) (hpenalty : 0 < s.cfg.subseqPenalty) (ht : fillTick s = .ok t) :
    FillOnTime s.cfg a (n + 1) t.fill ∨
    (n + 1 = s.cfg.landingCycle (s.cfg.blockWords - 1) ∧ t.fill.active = false ∧
      ∃ l, t.lines[s.cfg.index a]? = some l ∧ l.valid = true ∧ l.tag = s.cfg.tag a) := by
  obtain ⟨hact, hbase, hidx, htag, hword, hrunning, hthr, hdue⟩ := h
  rcases fillTick_cases ht with ⟨hidle, -⟩ | ⟨-, hcnt, rfl⟩ | ⟨-, hcnt, hland⟩
  · cases hidle.symm.trans hact
  · left
    exact ⟨hact, hbase, hidx, htag, hword, lt_of_le_of_ne hrunning hcnt, hthr, by simp only [tickedFill]; omega⟩
  · obtain ⟨l, -, hcheck, rfl⟩ := landWord_tickedFill hland
    by_cases hmore : s.fill.word + 1 < s.cfg.blockWords
    · have hafter : (tickedFill s).fill.afterLanding s.cfg =
          { s.fill with word := s.fill.word + 1, cnt := 0, thr := s.cfg.subseqPenalty } := by
        simp [tickedFill, Fill.afterLanding, hmore]
      have hdue' : n + 1 + s.cfg.subseqPenalty = s.cfg.landingCycle (s.fill.word + 1) + 0 := by
        rw [s.cfg.landingCycle_succ]
        omega
      left
      rw [hafter]
      exact ⟨hact, hbase, hidx, htag, hmore, hpenalty, rfl, hdue'⟩
    · have hafter : ((tickedFill s).fill.afterLanding s.cfg).active = false := by
        simp [tickedFill, Fill.afterLanding, hmore]
      obtain ⟨hvalid, htag', -⟩ := landedLine_spec hcheck (s.backRead s.fill.nextAddr)
      right
      refine ⟨?_, hafter, _, by rw [hidx]; exact List.getElem?_set_self hindex, hvalid, htag'.trans htag⟩
      rw [show s.cfg.blockWords - 1 = s.fill.word by omega]
      omega

/-- R300, R317 d: while a fill on time is active, a word of its block hits exactly when it has landed. -/
theorem FillOnTime.hitLine_isSome_iff {s : State} {a : Word} {n : Nat} (h : FillOnTime s.cfg a n s.fill) (hcache : CacheOk s)
    (hg : s.cfg.CacheShape) : (s.hitLine a).isSome = true ↔ s.cfg.landingCycle (s.cfg.offset a) ≤ n := by
  have hlanded := State.landed_fill_idx h.active (s.cfg.offset a)
  have hget := State.lines_getElem?_of_lt (hcache.index_lt hg a)
  rw [← h.word_lt_iff, ← hlanded, State.hitLine_of_getElem? hget, ← h.idx, ← h.tag]
  constructor
  · intro hhit
    by_contra hmasked
    simp [hmasked] at hhit
  · intro hreal
    obtain ⟨hvalid, htag⟩ := (hcache.fill h.active).landing (Nat.zero_lt_of_lt (hlanded.mp hreal))
    simp [hvalid, htag, hreal]

/-- R318: in cycle `n + 1`, after drain and fill tick, the fill is active or the last word has just landed; and the word at
`a` hits exactly when it is due. -/
theorem MemorySideOk.ticked_onTime {s m : State} {a : Word} {n : Nat} (hc : s.cfg.check = none)
    (hon : s.cfg.cached = true) (h : MemorySideOk s) (htime : FillOnTime s.cfg a n s.fill)
    (hm : Machine.fillTick (Machine.drainOne s) = .ok m) :
    (FillOnTime s.cfg a (n + 1) m.fill ∨
      (n + 1 = s.cfg.landingCycle (s.cfg.blockWords - 1) ∧ m.fill.active = false)) ∧
    ((m.hitLine a).isSome = true ↔ s.cfg.landingCycle (s.cfg.offset a) ≤ n + 1) := by
  have hg := Config.cacheShape_of_check hc hon
  obtain ⟨hcfg, hmOk, -⟩ := h.ticked hc hon hm
  have hindex : s.cfg.index a < (Machine.drainOne s).lines.length := by simpa using (h.cache hon).index_lt hg a
  have hcases := FillOnTime.fillTick (s := Machine.drainOne s) (by simpa using htime) (by simpa using hindex)
    (by simpa using hg.subseqPenalty) hm
  rw [drainOne_cfg] at hcases
  rcases hcases with hnext | ⟨hlast, hidle, l, hget, hvalid, htag⟩
  · refine ⟨.inl hnext, ?_⟩
    rw [← hcfg] at hnext hg hon ⊢
    exact hnext.hitLine_isSome_iff (hmOk.cache hon) hg
  · refine ⟨.inr ⟨hlast, hidle⟩, ?_⟩
    have hdue : s.cfg.landingCycle (s.cfg.offset a) ≤ n + 1 :=
      hlast ▸ s.cfg.landingCycle_mono (Nat.le_sub_one_of_lt (hg.offset_lt a))
    rw [← hcfg] at hget htag
    simp [State.hitLine_of_getElem? hget, hvalid, htag, State.landed_of_idle hidle, hdue]

/-! ### One cycle of the memory side -/

/-- R304, R302: no request touches the record of an active fill. -/
theorem lookup_fill_of_active {m t : State} {req : Request} {ans : Answer} (hact : m.fill.active = true)
    (h : lookup m req = .ok (t, ans)) : t.fill = m.fill := by
  have haccess (a : Word) (store : Option Word) (h : access m a store = .ok (t, ans)) : t.fill = m.fill := by
    obtain ⟨victim, -, ⟨l, -, -, rfl, -⟩ | ⟨l, v, -, -, rfl, -⟩ | ⟨-, -, rfl, -⟩ | ⟨-, hidle, -, -⟩⟩ := access_cases h
    · rfl
    · exact State.storeHit_fill ..
    · rfl
    · cases hidle.symm.trans hact
  cases req with
  | none => cases h; rfl
  | read a => exact haccess a none h
  | write a v => exact haccess a (some v) h

/-- R301 to R303: a request whose word is there is answered, and touches no fill. -/
theorem exists_lookup_of_hit {m : State} {req : Request} {a : Word} (hreq : req.addr = some a)
    (hhit : (m.hitLine a).isSome = true) : ∃ t d, lookup m req = .ok (t, .hit d) ∧ t.fill = m.fill := by
  obtain ⟨l, hl⟩ := Option.isSome_iff_exists.mp hhit
  cases req with
  | none => cases hreq
  | read b => cases hreq; exact ⟨_, _, access_read_of_hit hl, rfl⟩
  | write b v => cases hreq; exact ⟨_, _, access_write_of_hit hl v, State.storeHit_fill ..⟩

/-- R305, R306: the request classified `MISS-IDLE` in cycle 0 misses and starts the fill of its block. -/
theorem MissIdle.exists_memorySide {s : State} {a : Word} {req : Request} (hidle : MissIdle s a) (hc : s.cfg.check = none)
    (h : MemorySideOk s) (hreq : req.addr = some a) :
    ∃ t, memorySide s req = .ok (t, .miss) ∧ FillOnTime s.cfg a 0 t.fill := by
  obtain ⟨hon, m, hm, hclass⟩ := hidle
  obtain ⟨hcfg, hmOk, hempty⟩ := h.ticked hc hon hm
  obtain ⟨hmiss, hidle⟩ := classify_eq_missIdle.mp hclass
  obtain ⟨store, hlookup⟩ := exists_lookup_eq_access hreq
  have hg := Config.cacheShape_of_check hc hon
  have hindex : m.cfg.index a < m.lines.length := (hmOk.cache (hcfg ▸ hon)).index_lt (hcfg ▸ hg) a
  refine ⟨startFill m a (m.line (m.cfg.index a)), ?_, ?_⟩
  · rw [memorySide_of_ticked hon hm, hlookup]
    exact access_of_missIdle (State.lines_getElem?_of_lt hindex) hmiss hidle store
  · rw [startFill_of_empty hempty (hcfg ▸ Config.wbCapacity_pos hc hon), hcfg]
    exact FillOnTime.start hg a

/-- R290: a request is inside the window when its address is. -/
theorem Request.inWindow_of_addr {req : Request} {c : Config} {a : Word} (hreq : req.addr = some a)
    (ha : a.toNat < c.memSize) : req.inWindow c := by
  cases req with
  | none => cases hreq
  | read b => cases hreq; exact ha
  | write b v => cases hreq; exact ha

/-! ### Many cycles -/

theorem memoryAfter_succ_eq_some {reqs : Nat → Request} {n : Nat} {s u : State} :
    memoryAfter reqs (n + 1) s = some u ↔
      ∃ t ans, memoryAfter reqs n s = some t ∧ memorySide t (reqs n) = .ok (u, ans) := by
  rw [memoryAfter]
  cases memoryAfter reqs n s with
  | none => simp
  | some t =>
    rcases hside : memorySide t (reqs n) with f | ⟨v, ans⟩
    · simp [hside]
    · simp [hside]

theorem memoryAnswer_eq_some {reqs : Nat → Request} {n : Nat} {s : State} {ans : Answer} :
    memoryAnswer reqs n s = some ans ↔
      ∃ t u, memoryAfter reqs n s = some t ∧ memorySide t (reqs n) = .ok (u, ans) := by
  rw [memoryAnswer]
  cases memoryAfter reqs n s with
  | none => simp
  | some t =>
    rcases hside : memorySide t (reqs n) with f | ⟨v, ans'⟩
    · simp [hside]
    · simp [hside]

section Miss

variable {s : State} (hc : s.cfg.check = none) (h : MemorySideOk s)

include hc h

/-- R86: cycles of reads keep the parameters, the invariants and `ArchMem`. -/
theorem MemorySideOk.memoryAfter_read {a : Word} (ha : a.toNat < s.cfg.memSize) {n : Nat} {t : State}
    (ht : memoryAfter (fun _ => .read a) n s = some t) :
    t.cfg = s.cfg ∧ MemorySideOk t ∧ ∀ b, t.archRead b = s.archRead b := by
  induction n generalizing t with
  | zero => cases ht; exact ⟨rfl, h, fun _ => rfl⟩
  | succ n ih =>
    obtain ⟨r, ans, hr, hside⟩ := memoryAfter_succ_eq_some.mp ht
    obtain ⟨hcfg, hrOk, harch⟩ := ih hr
    have hcr : r.cfg.check = none := hcfg ▸ hc
    refine ⟨by rw [memorySide_frame hside]; exact hcfg, hrOk.memorySide hcr (by rw [hcfg]; exact ha) hside, fun b => ?_⟩
    obtain ⟨_, _, hwrite, -⟩ | ⟨-, hkept⟩ := hrOk.memorySide_archRead hcr hside
    · cases hwrite
    · exact (hkept b).trans (harch b)

variable {a : Word} {reqs : Nat → Request} (hreqs : ∀ n, (reqs n).inWindow s.cfg) (hfirst : (reqs 0).addr = some a)
  (hidle : MissIdle s a)

include hreqs hfirst hidle

/-- R318 item 1: before its last word lands, the fill that cycle 0 started is on time, whatever is requested. -/
theorem MemorySideOk.exists_memoryAfter_onTime {n : Nat} (hn : n < s.cfg.landingCycle (s.cfg.blockWords - 1)) :
    ∃ t, memoryAfter reqs (n + 1) s = some t ∧ t.cfg = s.cfg ∧ MemorySideOk t ∧ FillOnTime s.cfg a n t.fill := by
  induction n with
  | zero =>
    obtain ⟨t, ht, htime⟩ := hidle.exists_memorySide hc h hfirst
    exact ⟨t, memoryAfter_succ_eq_some.mpr ⟨s, .miss, rfl, ht⟩, by rw [memorySide_frame ht],
      h.memorySide hc (hreqs 0) ht, htime⟩
  | succ n ih =>
    obtain ⟨t, ht, hcfg, htOk, htime⟩ := ih (by omega)
    have hon := hidle.1
    rw [← hcfg] at hc hon htime hreqs hn
    obtain ⟨m, hm⟩ := htOk.exists_ticked hc hon
    obtain ⟨u, ans, hu⟩ := htOk.exists_memorySide hc (reqs (n + 1))
    refine ⟨u, memoryAfter_succ_eq_some.mpr ⟨t, ans, ht, hu⟩, by rw [memorySide_frame hu]; exact hcfg,
      htOk.memorySide hc (hreqs _) hu, ?_⟩
    obtain ⟨hnext | ⟨hlast, -⟩, -⟩ := htOk.ticked_onTime hc hon htime hm
    · rw [memorySide_of_ticked hon hm] at hu
      rw [lookup_fill_of_active hnext.active hu, ← hcfg]
      exact hnext
    · omega

omit hreqs hfirst in
/-- R318 items 2 and 3: the request of cycle 0 presented again in cycle `n + 1` is answered exactly when its word is due; in
the cycle in which the last word lands the fill ends. -/
theorem MemorySideOk.exists_repeated (ha : a.toNat < s.cfg.memSize) {req : Request} (hreq : req.addr = some a) {n : Nat}
    (hn : n < s.cfg.landingCycle (s.cfg.blockWords - 1)) :
    ∃ t u ans, memoryAfter (fun _ => req) (n + 1) s = some t ∧ Machine.memorySide t req = .ok (u, ans) ∧
      (n + 1 < s.cfg.landingCycle (s.cfg.offset a) → ans = .miss) ∧
      (s.cfg.landingCycle (s.cfg.offset a) ≤ n + 1 → ∃ d, ans = .hit d) ∧
      (n + 1 = s.cfg.landingCycle (s.cfg.blockWords - 1) → u.fill.active = false) := by
  obtain ⟨t, ht, hcfg, htOk, htime⟩ :=
    h.exists_memoryAfter_onTime hc (fun _ => Request.inWindow_of_addr hreq ha) hreq hidle hn
  have hon := hidle.1
  have hoffset := s.cfg.landingCycle_mono (Nat.le_sub_one_of_lt ((Config.cacheShape_of_check hc hon).offset_lt a))
  rw [← hcfg] at hc hon htime hoffset ⊢
  obtain ⟨m, hm⟩ := htOk.exists_ticked hc hon
  obtain ⟨hstate, hhit⟩ := htOk.ticked_onTime hc hon htime hm
  have hside := memorySide_of_ticked hon hm req
  by_cases hdue : t.cfg.landingCycle (t.cfg.offset a) ≤ n + 1
  · obtain ⟨u, d, hu, hfill⟩ := exists_lookup_of_hit hreq (hhit.mpr hdue)
    refine ⟨t, u, .hit d, ht, hside.trans hu, fun hlt => absurd hdue (by omega), fun _ => ⟨d, rfl⟩, fun hlast => ?_⟩
    rw [hfill]
    rcases hstate with hnext | ⟨-, hended⟩
    · exact absurd hnext.lt_lastLanding (by omega)
    · exact hended
  · have hactive : m.fill.active = true := by
      rcases hstate with hnext | ⟨hlast, -⟩
      · exact hnext.active
      · omega
    have hmiss : m.hitLine a = none := by simpa using mt hhit.mp hdue
    obtain ⟨store, hlookup⟩ := exists_lookup_eq_access hreq
    obtain ⟨hmcfg, hmOk, -⟩ := htOk.ticked hc hon hm
    have hindex := (hmOk.cache (hmcfg ▸ hon)).index_lt (Config.cacheShape_of_check (hmcfg ▸ hc) (hmcfg ▸ hon)) a
    refine ⟨t, m, .miss, ht, hside.trans ((hlookup m).trans (access_of_missPending hindex hmiss hactive store)),
      fun _ => rfl, fun hle => absurd hle hdue, fun hlast => ?_⟩
    omega

end Miss

/-- Settles O55: the record of the fill is on time after every cycle, so that it counts the words that are due. -/
theorem fillTimeline : Obligations.FillTimeline := by
  intro s a reqs hc hs hreqs hfirst hidle n hn
  obtain ⟨t, ht, -, -, htime⟩ := hs.memorySide.exists_memoryAfter_onTime hc hreqs hfirst hidle hn
  exact ⟨t, ht, htime.active, htime.base, htime.word_eq⟩

/-- Settles O56: presented again, the request misses until its word is due and is answered then; reads leave `ArchMem`, so
that a read hit answers the word of cycle 0. -/
theorem missTakesExactlyItsPenalty : Obligations.MissTakesExactlyItsPenalty := by
  intro s a req hc hs ha hkind hidle
  have hreq : req.addr = some a := by rcases hkind with rfl | ⟨v, rfl⟩ <;> rfl
  have hg := Config.cacheShape_of_check hc hidle.1
  have hoffset := s.cfg.landingCycle_mono (Nat.le_sub_one_of_lt (hg.offset_lt a))
  have hpenalty : ∀ k, 0 < s.cfg.landingCycle k := fun k => Nat.add_pos_left hg.missPenalty _
  refine ⟨fun n hn => memoryAnswer_eq_some.mpr ?misses, ?hits, ?ended⟩
  case misses =>
    cases n with
    | zero =>
      obtain ⟨u, hu, -⟩ := hidle.exists_memorySide hc hs.memorySide hreq
      exact ⟨s, u, rfl, hu⟩
    | succ n =>
      obtain ⟨t, u, ans, ht, hu, hmiss, -⟩ := hs.memorySide.exists_repeated hc hidle ha hreq
        (n := n) (lt_of_lt_of_le (Nat.lt_of_succ_lt hn) hoffset)
      exact ⟨t, u, ht, hmiss hn ▸ hu⟩
  case hits =>
    obtain ⟨n, hn⟩ := Nat.exists_eq_succ_of_ne_zero (hpenalty (s.cfg.offset a)).ne'
    obtain ⟨t, u, ans, ht, hu, -, hhit, -⟩ := hs.memorySide.exists_repeated hc hidle ha hreq (n := n) (by omega)
    obtain ⟨d, rfl⟩ := hhit hn.le
    change ∃ d, memoryAnswer _ (s.cfg.landingCycle (s.cfg.offset a)) s = _ ∧ _
    rw [hn]
    refine ⟨d, memoryAnswer_eq_some.mpr ⟨t, u, ht, hu⟩, fun hread => ?_⟩
    subst hread
    obtain ⟨hcfg, htOk, harch⟩ := hs.memorySide.memoryAfter_read hc ha ht
    rw [htOk.memorySide_read_hit (hcfg ▸ hc) hu, harch]
  case ended =>
    obtain ⟨n, hn⟩ := Nat.exists_eq_succ_of_ne_zero (hpenalty (s.cfg.blockWords - 1)).ne'
    obtain ⟨t, u, ans, ht, hu, -, -, hended⟩ := hs.memorySide.exists_repeated hc hidle ha hreq (n := n) (by omega)
    change ∃ v, memoryAfter _ (s.cfg.landingCycle (s.cfg.blockWords - 1) + 1) s = some v ∧ _
    rw [hn]
    exact ⟨u, memoryAfter_succ_eq_some.mpr ⟨t, ans, ht, hu⟩, hended hn.symm⟩

end Machine

end Sys2Proof
end

section
/-! O44, O45: the address as its fields, and the masks of the fields (spec/47_cache_controller.md R291 to R294). -/

namespace Sys2Proof

namespace Config.CacheShape

variable {c : Config} (h : c.CacheShape)

include h

/-- R292: offset and byte are the place of the address in its block. -/
theorem offset_add_byte (a : Word) : c.offset a * 4 + byteField a = a.toNat % (4 * c.blockWords) := by
  rw [h.offset_eq, Machine.wordIndex, byteField, field, Nat.shiftRight_zero, Nat.mod_mul]
  omega

/-- R292: the fields rebuild the address as a sum. -/
theorem sum_fields (a : Word) :
    c.tag a * 2 ^ (c.indexBits + c.offsetBits + 2) + c.index a * 2 ^ (c.offsetBits + 2) + c.offset a * 4 + byteField a =
      a.toNat := by
  have hbase := h.toNat_lineAddr (c.tag_lt a) (h.index_lt a)
  rw [← h.blockBase_eq_lineAddr, h.toNat_blockBase] at hbase
  calc _ = (c.tag a * c.numLines + c.index a) * (4 * c.blockWords) + (c.offset a * 4 + byteField a) := by
        rw [h.two_pow_line, h.two_pow_block]
        ring
    _ = a.toNat := by rw [← hbase, h.offset_add_byte, Nat.div_add_mod']

/-- R292, R294: the fields rebuild the address as shifts and ors. -/
theorem or_fields (a : Word) :
    BitVec.ofNat 32 (c.tag a) <<< (c.indexBits + c.offsetBits + 2) ||| BitVec.ofNat 32 (c.index a) <<< (c.offsetBits + 2) |||
      BitVec.ofNat 32 (c.offset a) <<< 2 ||| BitVec.ofNat 32 (byteField a) = a := by
  have hplace := h.offset_add_byte a
  have hbyte : byteField a < 2 ^ 2 := Nat.mod_lt _ (by decide)
  have hlt : a.toNat % (4 * c.blockWords) < 2 ^ (c.offsetBits + 2) := by
    rw [h.two_pow_block]
    exact Nat.mod_lt _ (by have := h.blockWords_pos; omega)
  have hword : c.offset a * 4 < 2 ^ 32 := by have := Nat.mod_le a.toNat (4 * c.blockWords); omega
  have hlow : (BitVec.ofNat 32 (c.offset a) <<< 2 ||| BitVec.ofNat 32 (byteField a)).toNat =
      a.toNat % (4 * c.blockWords) := by
    rw [BitVec.toNat_or, BitVec.toNat_shiftLeft, BitVec.toNat_ofNat, BitVec.toNat_ofNat, Nat.mod_eq_of_lt (by omega),
      Nat.mod_eq_of_lt (by omega), Nat.shiftLeft_eq, Nat.mod_eq_of_lt (by omega), ← Nat.shiftLeft_eq,
      ← Nat.shiftLeft_add_eq_or_of_lt hbyte, Nat.shiftLeft_eq]
    exact hplace
  change c.lineAddr (c.tag a) (c.index a) ||| _ ||| _ = a
  apply BitVec.eq_of_toNat_eq
  rw [BitVec.or_assoc, BitVec.toNat_or, hlow, ← h.blockBase_eq_lineAddr, h.toNat_blockBase]
  conv_lhs => rw [← h.two_pow_block, ← Nat.shiftLeft_eq]
  rw [← Nat.shiftLeft_add_eq_or_of_lt (h.two_pow_block ▸ hlt), Nat.shiftLeft_eq, h.two_pow_block, Nat.div_add_mod']

/-! ### Masks (R293) -/

theorem getLsbD_offsetMask {k : Nat} (hk : k < 32) : c.offsetMask.getLsbD k = decide (2 ≤ k ∧ k < c.offsetBits + 2) := by
  rw [offsetMask, h.blockWords]
  simp only [BitVec.getLsbD_shiftLeft, BitVec.getLsbD_ofNat, Nat.testBit_two_pow_sub_one]
  grind

theorem getLsbD_indexMask {k : Nat} (hk : k < 32) :
    c.indexMask.getLsbD k = decide (c.offsetBits + 2 ≤ k ∧ k < c.indexBits + c.offsetBits + 2) := by
  rw [indexMask, h.numLines]
  simp only [BitVec.getLsbD_shiftLeft, BitVec.getLsbD_ofNat, Nat.testBit_two_pow_sub_one]
  grind

omit h in
theorem getLsbD_tagMask {k : Nat} (hk : k < 32) :
    c.tagMask.getLsbD k = decide (c.indexBits + c.offsetBits + 2 ≤ k) := by
  rw [tagMask]
  simp only [BitVec.getLsbD_shiftLeft, BitVec.getLsbD_allOnes]
  grind

theorem toNat_offsetMask : c.offsetMask.toNat = (c.blockWords - 1) * 4 := by
  have hbits := h.bits
  have hle : 2 ^ (c.offsetBits + 2) ≤ 2 ^ 32 := Nat.pow_le_pow_right (by decide) (by omega)
  have hpos := h.blockWords_pos
  rw [h.two_pow_block] at hle
  rw [offsetMask, BitVec.toNat_shiftLeft, BitVec.toNat_ofNat, Nat.mod_eq_of_lt (by omega), Nat.shiftLeft_eq,
    Nat.mod_eq_of_lt (by omega)]

theorem toNat_indexMask : c.indexMask.toNat = (c.numLines - 1) * 2 ^ (c.offsetBits + 2) := by
  have hbits := h.bits
  have hle : 2 ^ (c.indexBits + c.offsetBits + 2) ≤ 2 ^ 32 := Nat.pow_le_pow_right (by decide) (by omega)
  rw [h.two_pow_line, ← h.two_pow_block] at hle
  have hpos := h.numLines_pos
  have hblock := Nat.two_pow_pos (c.offsetBits + 2)
  have hlt : (c.numLines - 1) * 2 ^ (c.offsetBits + 2) < c.numLines * 2 ^ (c.offsetBits + 2) :=
    Nat.mul_lt_mul_of_pos_right (by omega) hblock
  have hlines : c.numLines ≤ c.numLines * 2 ^ (c.offsetBits + 2) := Nat.le_mul_of_pos_right _ hblock
  have hsmall : c.numLines - 1 < 2 ^ 32 := by omega
  rw [indexMask, BitVec.toNat_shiftLeft, BitVec.toNat_ofNat, Nat.mod_eq_of_lt hsmall, Nat.shiftLeft_eq,
    Nat.mod_eq_of_lt (hlt.trans_le hle)]

/-- R293: every bit above the byte bits is in one of the masks. -/
theorem masks_cover : c.tagMask ||| c.indexMask ||| c.offsetMask ||| 0b11#32 = 0xFFFFFFFF#32 := by
  apply BitVec.eq_of_getLsbD_eq
  intro k hk
  have hbyte : (0b11#32).getLsbD k = decide (k < 2) := by decide +revert
  have hall : (0xFFFFFFFF#32).getLsbD k = true := by decide +revert
  rw [BitVec.getLsbD_or, BitVec.getLsbD_or, BitVec.getLsbD_or, getLsbD_tagMask hk, h.getLsbD_indexMask hk,
    h.getLsbD_offsetMask hk, hbyte, hall]
  simp only [← Bool.decide_or, decide_eq_true_iff]
  omega

end Config.CacheShape

/-- Two words without a common bit are disjoint. -/
theorem and_eq_zero_of_disjoint {v w : Word} (h : ∀ k < 32, v.getLsbD k = true → w.getLsbD k = false) : v &&& w = 0 := by
  apply BitVec.eq_of_getLsbD_eq
  intro k hk
  rw [BitVec.getLsbD_and]
  cases hv : v.getLsbD k with
  | false => simp
  | true => simp [h k hk hv]

/-- Settles O44, from what the fields are as digits of the address. -/
theorem addressDecomposition : Obligations.AddressDecomposition := by
  intro c a hc hmode
  have hg := Config.cacheShape_of_check hc (c.cached_eq_true_iff.mpr hmode)
  exact ⟨hg.sum_fields a, hg.index_lt a, hg.offset_lt a, c.tag_lt a, hg.or_fields a, hg.blockBase_eq_lineAddr a⟩

/-- Settles O45, from the ranges of bits that the masks are. -/
theorem geometryMasks : Obligations.GeometryMasks := by
  intro c hc hmode
  have hg := Config.cacheShape_of_check hc (c.cached_eq_true_iff.mpr hmode)
  refine ⟨hg.masks_cover, ?tagIndex, ?tagOffset, ?indexOffset, hg.toNat_offsetMask, hg.toNat_indexMask,
    fun k hk => Config.CacheShape.getLsbD_tagMask hk⟩
  case tagIndex =>
    refine and_eq_zero_of_disjoint fun k hk htag => ?_
    rw [Config.CacheShape.getLsbD_tagMask hk, decide_eq_true_iff] at htag
    rw [hg.getLsbD_indexMask hk, decide_eq_false_iff_not]
    omega
  case tagOffset =>
    refine and_eq_zero_of_disjoint fun k hk htag => ?_
    rw [Config.CacheShape.getLsbD_tagMask hk, decide_eq_true_iff] at htag
    rw [hg.getLsbD_offsetMask hk, decide_eq_false_iff_not]
    omega
  case indexOffset =>
    refine and_eq_zero_of_disjoint fun k hk hindex => ?_
    rw [hg.getLsbD_indexMask hk, decide_eq_true_iff] at hindex
    rw [hg.getLsbD_offsetMask hk, decide_eq_false_iff_not]
    omega

end Sys2Proof
end

section
/-! O47, O48, O49, O50, O53: what the controller does with one request (spec/47_cache_controller.md R301 to R308, R320;
spec/48_write_buffer.md R342, R345). -/

namespace Sys2Proof.Machine

open Sys2Proof

/-! ### Misses -/

/-- R320: after reset no line is valid, so that no lookup finds one. -/
theorem State.hitLine_ofConfig (c : Config) (mem : Memory) (a : Word) : (State.ofConfig c mem).hitLine a = none := by
  refine Option.eq_none_iff_forall_ne_some.mpr fun l hl => ?_
  obtain ⟨hget, hvalid, -⟩ := State.hitLine_eq_some.mp hl
  rw [← State.line_of_getElem? hget, State.line_ofConfig] at hvalid
  cases hvalid

/-- Settles O47: right after reset there is nothing to drain and no fill, and no line is valid. -/
theorem freshCacheMisses : Obligations.FreshCacheMisses := by
  intro c mem a v hc hmode _
  have hon : c.cached = true := c.cached_eq_true_iff.mpr hmode
  have hlines : (State.ofConfig c mem).lines = List.replicate c.numLines (Line.reset c.blockWords) := if_pos hmode
  have hindex : c.index a < (State.ofConfig c mem).lines.length := by
    rw [hlines, List.length_replicate]
    exact (Config.cacheShape_of_check hc hon).index_lt a
  have hmiss (req : Request) (hreq : req.addr = some a) :
      ∃ t, memorySide (State.ofConfig c mem) req = .ok (t, .miss) := by
    obtain ⟨store, hlookup⟩ := exists_lookup_eq_access hreq
    rw [memorySide_of_ticked (m := State.ofConfig c mem) hon rfl, hlookup]
    exact ⟨_, access_of_missIdle (State.lines_getElem?_of_lt hindex) (State.hitLine_ofConfig c mem a) rfl store⟩
  exact ⟨hmiss (.read a) rfl, hmiss (.write a v) rfl⟩

/-- Settles O49: the access starts the fill, and in a drained cycle its eviction finds room. -/
theorem missEvictsAndStartsFill : Obligations.MissEvictsAndStartsFill := by
  intro s m a store l hc hon hs hm hclass hget
  obtain ⟨hcfg, hmOk, hempty⟩ := hs.memorySide.ticked hc hon hm
  obtain ⟨hmiss, hidle⟩ := classify_eq_missIdle.mp hclass
  have hindex : s.cfg.index a < m.lines.length := by
    rw [← hcfg]
    exact (List.getElem?_eq_some_iff.mp hget).1
  refine ⟨startFill m a l, access_of_missIdle hget hmiss hidle store, ?_⟩
  rw [startFill_of_empty hempty (hcfg ▸ Config.wbCapacity_pos hc hon), hcfg]
  exact ⟨rfl, rfl, List.getElem?_set_self hindex, fun k hk => List.getElem?_set_ne hk.symm, rfl⟩

/-- Settles O50, from what `enqueue` does: into a full buffer nothing is evicted, and no fill starts. -/
theorem fullWriteBuffer : Obligations.FullWriteBuffer := by
  refine ⟨fun n buf e hroom => enqueue_eq_some.mpr ⟨hroom, rfl⟩, fun n buf e hfull => ?_,
    fun m a store l hget hvalid hdirty htag hidle hfull => ?_⟩
  · exact Option.eq_none_iff_forall_ne_some.mpr fun out h => by
      obtain ⟨hroom, -⟩ := enqueue_eq_some.mp h
      omega
  · have hmiss : m.hitLine a = none := by simp [State.hitLine_of_getElem? hget, htag]
    rw [access_of_missIdle hget hmiss hidle]
    rcases startFill_cases m a l with ⟨-, hsame⟩ | ⟨buf, hevict, -⟩
    · rw [hsame]
    · rcases evict_eq_some.mp hevict with ⟨-, -, hroom, -⟩ | ⟨hinvalid | hclean, -⟩
      · omega
      · cases hinvalid.symm.trans hvalid
      · cases hclean.symm.trans hdirty

/-! ### Hits -/

/-- Settles O48: a read hit leaves the state; a write hit is `storeHit`, under either policy. -/
theorem cacheHits : Obligations.CacheHits := by
  intro m a v l hget hvalid htag hready
  have hhit := State.hitLine_eq_some.mpr ⟨hget, hvalid, htag, hready⟩
  refine ⟨access_read_of_hit hhit, fun hp => ?writeBack, fun hp hwf => ?writeThrough⟩
  case writeBack => rw [access_write_of_hit hhit, State.storeHit_writeBack hp]
  case writeThrough =>
    have hread (b : Word) : (m.storeHit a l v).backRead b = if wordIndex b = wordIndex a then v else m.backRead b := by
      rw [← m.backRead_backWrite a b v hwf]
      exact State.backRead_congr (by simp) (by rw [State.storeHit_writeThrough hp]) b
    refine ⟨m.storeHit a l v, access_write_of_hit hhit v, by rw [State.storeHit_writeThrough hp], ?_, fun b hb => ?_,
      m.storeHit_frame a l v⟩
    · rw [hread, if_pos rfl]
    · rw [hread, if_neg hb]

/-- Settles O53: neither drain nor fill tick changes `ArchMem`, and a line that hits is where it reads. -/
theorem readHitReturnsArchMem : Obligations.ReadHitReturnsArchMem :=
  fun _ _ _ _ hc hs _ hread => hs.memorySide.memorySide_read_hit hc hread

end Sys2Proof.Machine
end

section
/-! O51, O52: the write buffer in a cycle of the controller (spec/48_write_buffer.md R343, R344). -/

namespace Sys2Proof.Machine

open Sys2Proof

/-! ### The drain -/

/-- A word of a block that ends inside the address space, at the address it is counted at. -/
theorem toNat_add_four_mul {a : Word} {k n : Nat} (hk : k < n) (hfits : a.toNat + 4 * n ≤ 2 ^ 32) :
    (a + BitVec.ofNat 32 (4 * k)).toNat = a.toNat + 4 * k := by
  rw [BitVec.toNat_add, BitVec.toNat_ofNat]
  omega

/-- R343: a block leaves every byte outside it. -/
theorem State.readByte_writeBlock_other (s : State) (a : Word) (vs : List Word) (haligned : a.toNat % 4 = 0)
    (hfits : a.toNat + 4 * vs.length ≤ 2 ^ 32) {n : Nat} (hn : n < a.toNat ∨ a.toNat + 4 * vs.length ≤ n) :
    (s.writeBlock a vs).back.readByte n = s.back.readByte n := by
  induction vs generalizing s a with
  | nil => rfl
  | cons v vs ih =>
    rw [List.length_cons] at hfits hn
    have hfirst : n / 4 ≠ wordIndex a := by unfold wordIndex; omega
    have hwrite : (s.backWrite a v).back.readByte n = s.back.readByte n :=
      Memory.readByte_writeWord_other _ _ _ _ _ hfirst
    cases vs with
    | nil => exact hwrite
    | cons w ws =>
      rw [List.length_cons] at hfits hn
      have hnext : (a + 4).toNat = a.toNat + 4 := toNat_add_four_mul (k := 1) (by omega) hfits
      rw [State.writeBlock, ih _ _ (by omega) (by rw [List.length_cons]; omega) (by rw [List.length_cons]; omega), hwrite]

/-- Settles O51: the drain is the writing of one block, whose words lie at different addresses. -/
theorem drainWritesOldestLine : Obligations.DrainWritesOldestLine := by
  refine fun s hwf => ⟨fun hempty => by simp [drainOne, hempty], fun e rest hbuf haligned hfits => ?_⟩
  have hdrain : drainOne s = { s.writeBlock e.addr e.data with wbuf := rest } := by rw [drainOne, hbuf]
  rw [hdrain]
  refine ⟨rfl, by rw [State.writeBlock_frame], fun k hk => ?read, fun n hn => ?other⟩
  case read =>
    have hword : ∀ j < e.data.length, wordIndex (e.addr + BitVec.ofNat 32 (4 * j)) = wordIndex e.addr + j := fun j hj => by
      rw [wordIndex, toNat_add_four_mul hj hfits, wordIndex]
      omega
    have hinj : ∀ i < e.data.length, ∀ j < e.data.length,
        wordIndex (e.addr + BitVec.ofNat 32 (4 * i)) = wordIndex (e.addr + BitVec.ofNat 32 (4 * j)) → i = j :=
      fun i hi j hj hij => by
        rw [hword i hi, hword j hj] at hij
        omega
    calc _ = (s.writeBlock e.addr e.data).backRead (e.addr + BitVec.ofNat 32 (4 * k)) := State.backRead_congr rfl rfl _
      _ = wordAt e.data k := s.backRead_writeBlock_word _ _ _ hwf hinj hk rfl
      _ = e.data[k] := List.getD_eq_getElem _ _ hk
  case other => exact s.readByte_writeBlock_other e.addr e.data haligned hfits hn

/-! ### How many entries are buffered -/

/-- R344: an access in a drained cycle leaves at most one buffered entry. -/
theorem access_wbuf_length {s t : State} {a : Word} {store : Option Word} {ans : Answer} (hempty : s.wbuf = [])
    (h : access s a store = .ok (t, ans)) : t.wbuf.length ≤ 1 := by
  have hnone : s.wbuf.length ≤ 1 := by simp [hempty]
  obtain ⟨victim, -, ⟨l, -, -, rfl, -⟩ | ⟨l, v, -, -, rfl, -⟩ | ⟨-, -, rfl, -⟩ | ⟨-, -, rfl, -⟩⟩ := access_cases h
  · exact hnone
  · rwa [State.storeHit_wbuf]
  · exact hnone
  · rcases startFill_cases s a victim with ⟨-, he⟩ | ⟨buf, hevict, he⟩ <;> rw [he]
    · exact hnone
    · obtain ⟨hocc, -⟩ := mem_of_evict hempty hevict
      exact hocc

/-- Settles O52: the drain at the start of the cycle empties the buffer, so that the one eviction of the cycle finds room. -/
theorem writeBufferOccupancy : Obligations.WriteBufferOccupancy := by
  intro s t req ans hon hroom hocc hside
  have hdrained : (drainOne s).wbuf = [] := by
    rw [drainOne_wbuf]
    exact List.length_eq_zero_iff.mp (by rw [List.length_tail]; omega)
  have hticked (m : State) (hm : fillTick (drainOne s) = .ok m) : m.cfg = s.cfg ∧ m.wbuf = [] := by
    rw [fillTick_frame hm]
    exact ⟨drainOne_cfg s, hdrained⟩
  refine ⟨?_, fun m a l hm => ?_⟩
  · rcases memorySide_cases hside with ⟨-, hcycle⟩ | ⟨hoff, -⟩
    · obtain ⟨m, hm, hcases⟩ := cacheCycle_cases hcycle
      obtain ⟨-, hempty⟩ := hticked m hm
      rcases hcases with ⟨-, rfl, -⟩ | ⟨a, -, hacc⟩ | ⟨a, v, -, hacc⟩
      · simp [hempty]
      · exact access_wbuf_length hempty hacc
      · exact access_wbuf_length hempty hacc
    · cases hoff.symm.trans hon
  · obtain ⟨hcfg, hempty⟩ := hticked m hm
    rw [evict_of_empty hempty (hcfg ▸ hroom)]
    exact Option.some_ne_none _

end Sys2Proof.Machine
end

section
/-! O39 to O43: which fault a clock edge raises, and what it does then (spec/60_exceptions.md R382 to R389). -/

namespace Sys2Proof.Machine

open Sys2Proof

/-! ### The faults of a cycle -/

/-- R385: the Memory stage holds a data access outside the window. -/
def AccessOutside (s : State) : Prop :=
  s.exmem.valid = true ∧ (s.exmem.ctrl.memRead = true ∨ s.exmem.ctrl.memWrite = true) ∧
    s.cfg.memSize ≤ s.exmem.aluResult.toNat

/-- R385: the fault of such an access. -/
def accessFault (s : State) : FaultInfo where
  code := .busErrorData
  addr := s.exmem.aluResult
  word := s.exmem.instr

theorem State.inWindow_eq_false_iff (s : State) (a : Word) : s.inWindow a = false ↔ s.cfg.memSize ≤ a.toNat := by
  rw [Bool.eq_false_iff, ne_eq, s.inWindow_eq_true_iff, not_lt]

/-- R385: the Memory stage fails exactly for an access outside the window. -/
theorem memRequest_eq_error_iff {s : State} {f : FaultInfo} :
    memRequest s = .error f ↔ AccessOutside s ∧ f = accessFault s := by
  rcases memRequest_cases s with ⟨he, hno⟩ | ⟨he, hv, haccess, hw⟩ | ⟨he, -, -, hw⟩ | ⟨he, -, -, -, hw⟩ <;> rw [he]
  · refine ⟨nofun, fun ⟨⟨hv, haccess, _⟩, _⟩ => ?_⟩
    rcases hno with hinvalid | ⟨hr, hm⟩
    · cases hinvalid.symm.trans hv
    · simp [hr, hm] at haccess
  · have hout : AccessOutside s := ⟨hv, haccess, (s.inWindow_eq_false_iff _).mp hw⟩
    rw [Except.error.injEq, and_iff_right hout]
    exact eq_comm
  · exact ⟨nofun, fun ⟨⟨_, _, hout⟩, _⟩ => absurd ((s.inWindow_eq_true_iff _).mp hw) (not_lt.mpr hout)⟩
  · exact ⟨nofun, fun ⟨⟨_, _, hout⟩, _⟩ => absurd ((s.inWindow_eq_true_iff _).mp hw) (not_lt.mpr hout)⟩

/-- R382: the faults a cycle can raise, each with what raises it. -/
theorem cycle_error_cases {s : State} {f : FaultInfo} (h : cycle s = .error f) :
    (f.code = .busErrorData ∧ AccessOutside s) ∨
    (f.code = .internalInvariant ∧ ∃ req, memorySide s req = .error f) ∨
    (f.code = .illegalInstruction ∧ s.ifid.valid = true ∧ ∀ i, decode s.ifid.instr ≠ .ok i) ∨
    (f.code = .busErrorFetch ∧ s.cfg.memSize ≤ s.pc.toNat) := by
  rcases cycle_error h with hmem | ⟨req, -, hside | ⟨after, answer, -, hdecode | ⟨id, -, hfetch⟩⟩⟩
  · obtain ⟨hout, rfl⟩ := memRequest_eq_error_iff.mp hmem
    exact .inl ⟨rfl, hout⟩
  · exact .inr (.inl ⟨(memorySide_error hside).2, req, hside⟩)
  · obtain ⟨hv, ⟨e, he⟩, rfl⟩ := decodeStage_error hdecode
    exact .inr (.inr (.inl ⟨rfl, hv, fun i hi => by cases he.symm.trans hi⟩))
  · obtain ⟨-, hout, rfl⟩ := fetchStage_error hfetch
    exact .inr (.inr (.inr ⟨rfl, (s.inWindow_eq_false_iff _).mp hout⟩))

/-! ### The faults of a clock edge -/

/-- R383: the cycle that raises a fault records it and changes nothing else. -/
theorem clockEdge_of_cycle_error {s : State} {f : FaultInfo} (hfault : s.fault = .none) (hhalted : s.halted = false)
    (hcycle : cycle s = .error f) :
    clockEdge s = { s with fault := f.code, faultAddr := f.addr, faultWord := f.word } := by
  rw [← State.raise_of_no_fault hfault]
  simp [clockEdge, s.faulted_eq_false_iff.mpr hfault, hhalted, hcycle]

theorem cycle_fault {s t : State} (h : cycle s = .ok t) : t.fault = s.fault := by
  obtain ⟨req, after, answer, id, fetch, -, hside, -, -, rfl⟩ := cycle_ok h
  rw [commit_fault, memorySide_frame hside]

/-- R382: a fault after an edge that had none before is the fault of the cycle. -/
theorem exists_cycle_error_of_clockEdge_fault {s : State} {code : FaultCode} (hfault : s.fault = .none)
    (h : (clockEdge s).fault = code) (hcode : code ≠ .none) : ∃ f, cycle s = .error f ∧ f.code = code := by
  rcases clockEdge_cases s with ⟨-, he⟩ | ⟨-, -, t, ht, he⟩ | ⟨-, -, f, hf, he⟩
  · exact absurd (by rw [← h, he, hfault]) hcode
  · exact absurd (by rw [← h, he, cycle_fault ht, hfault]) hcode
  · exact ⟨f, hf, by rw [← h, he, State.raise_fault, if_pos hfault]⟩

/-- Settles O39: the faulted state is a fixed point of the clock, and a fault keeps `halted` at 0. -/
theorem faultFreezesTheMachine : Obligations.FaultFreezesTheMachine := by
  intro s f hfault hhalted hcycle
  have hedge := clockEdge_of_cycle_error hfault hhalted hcycle
  have hcode := cycle_error_code_ne_none hcycle
  have hfaulted : (clockEdge s).faulted = true := by simp [hedge, State.faulted, hcode]
  exact ⟨hedge, hcode, fun n => clockEdges_of_fixed n (clockEdge_of_stopped (.inl hfaulted)),
    not_halted_of_faulted hfaulted 0⟩

/-- Settles O40: the Memory stage comes first in the cycle, and no other fault is `BusErrorData`. -/
theorem busErrorDataRaised : Obligations.BusErrorDataRaised := by
  intro s hfault
  have honly (h : (clockEdge s).fault = .busErrorData) : AccessOutside s := by
    obtain ⟨f, hcycle, hcode⟩ := exists_cycle_error_of_clockEdge_fault hfault h (by decide)
    rcases cycle_error_cases hcycle with ⟨-, hout⟩ | ⟨hf, -⟩ | ⟨hf, -⟩ | ⟨hf, -⟩
    · exact hout
    all_goals cases hf.symm.trans hcode
  refine ⟨fun hv haccess hout => ?raised, honly, fun hsize h => ?whole⟩
  case raised =>
    have hcycle : cycle s = .error (accessFault s) := by
      simp [cycle, memRequest_eq_error_iff.mpr ⟨⟨hv, haccess, hout⟩, rfl⟩]
    exact clockEdge_of_cycle_error hfault (by simp [State.halted, hv]) hcycle
  case whole =>
    obtain ⟨-, -, hout⟩ := honly h
    exact absurd (hsize ▸ s.exmem.aluResult.isLt) (not_lt.mpr hout)

/-- Settles O41: neither the Memory stage nor the memory side faults, so that the fault of Decode is met. -/
theorem illegalInstructionRaised : Obligations.IllegalInstructionRaised := by
  intro s hc hs hfault
  refine ⟨fun hv hillegal hinside => ?raised, fun h => ?only⟩
  case raised =>
    obtain ⟨req, hreq⟩ : ∃ req, memRequest s = .ok req := by
      cases hmem : memRequest s with
      | ok req => exact ⟨req, rfl⟩
      | error f => exact absurd (memRequest_eq_error_iff.mp hmem).1 hinside
    obtain ⟨after, ans, hside⟩ := hs.memorySide.exists_memorySide hc req
    have hdecode : decodeStage s (decide (ans = .miss)) =
        .error { code := .illegalInstruction, addr := s.ifid.pc4 - 4, word := s.ifid.instr } := by
      cases hd : decodeStage s (decide (ans = .miss)) with
      | error f =>
        obtain ⟨-, -, rfl⟩ := decodeStage_error hd
        rfl
      | ok o =>
        rcases decodeStage_cases hd with ⟨hbubble, -⟩ | ⟨-, i, hi, -⟩
        · cases hbubble.symm.trans hv
        · exact absurd hi (hillegal i)
    have hcycle : cycle s =
        .error { code := .illegalInstruction, addr := s.ifid.pc4 - 4, word := s.ifid.instr } := by
      simp [cycle, hreq, hside, hdecode]
    exact clockEdge_of_cycle_error hfault (State.halted_eq_false_of_ifid hv) hcycle
  case only =>
    obtain ⟨f, hcycle, hcode⟩ := exists_cycle_error_of_clockEdge_fault hfault h (by decide)
    rcases cycle_error_cases hcycle with ⟨hf, -⟩ | ⟨hf, -⟩ | ⟨-, hillegal⟩ | ⟨hf, -⟩
    · cases hf.symm.trans hcode
    · cases hf.symm.trans hcode
    · exact hillegal
    · cases hf.symm.trans hcode

/-- Settles O42: with no older fault the fault of Fetch is the cycle's, and Fetch fails only outside the window. -/
theorem busErrorFetchRaised : Obligations.BusErrorFetchRaised := by
  intro s after req ans o hfault hhalted hreq hside hdecode
  have haccept : acceptFetch s (decide (ans = .miss)) o.idStall o.taken = true ↔
      s.fetchStopped = false ∧ ans ≠ .miss ∧ o.idStall = false ∧ o.taken = false := by
    simp [acceptFetch, and_assoc]
  cases hfetch : fetchStage s after (acceptFetch s (decide (ans = .miss)) o.idStall o.taken) with
  | error f =>
    obtain ⟨htaken, hout, rfl⟩ := fetchStage_error hfetch
    obtain ⟨hrun, hmiss, hstall, htaken⟩ := haccept.mp htaken
    have hcycle : cycle s = .error { code := .busErrorFetch, addr := s.pc, word := 0 } := by
      simp [cycle, hreq, hside, hdecode, hfetch]
    exact ⟨fun _ => clockEdge_of_cycle_error hfault hhalted hcycle,
      fun hno => absurd ⟨hrun, hmiss, hstall, htaken, (s.inWindow_eq_false_iff _).mp hout⟩ hno⟩
  | ok fetch =>
    refine ⟨fun ⟨hrun, hmiss, hstall, htaken, hout⟩ => ?outside, fun _ => ?kept⟩
    case outside =>
      rcases fetchStage_cases hfetch with ⟨hrefused, -⟩ | ⟨-, hin, -⟩
      · cases hrefused.symm.trans (haccept.mpr ⟨hrun, hmiss, hstall, htaken⟩)
      · cases hin.symm.trans ((s.inWindow_eq_false_iff _).mpr hout)
    case kept =>
      have hcycle := cycle_of_stages hreq hside hdecode hfetch
      rw [clockEdge_of_cycle_ok hfault hhalted hcycle, cycle_fault hcycle, hfault]

/-- Settles O43: the memory side answers every request, and nothing else raises `InternalInvariant`. -/
theorem internalInvariantUnreachable : Obligations.InternalInvariantUnreachable := by
  refine fun s hc hs => ⟨fun req _ => hs.memorySide.exists_memorySide hc req, fun hfault h => ?_⟩
  obtain ⟨f, hcycle, hcode⟩ := exists_cycle_error_of_clockEdge_fault hfault h (by decide)
  rcases cycle_error_cases hcycle with ⟨hf, -⟩ | ⟨-, req, hside⟩ | ⟨hf, -⟩ | ⟨hf, -⟩
  · cases hf.symm.trans hcode
  · obtain ⟨t, ans, ht⟩ := hs.memorySide.exists_memorySide hc req
    cases hside.symm.trans ht
  · cases hf.symm.trans hcode
  · cases hf.symm.trans hcode

end Sys2Proof.Machine
end

section
/-! O25, O38: what no step changes (spec/49_cycle_driver.md R357, R359; spec/10_state.md R40, R41, R55). -/

namespace Sys2Proof.Machine

open Sys2Proof

/-! ### Sticky fields -/

/-- R383: a step of either reading keeps a faulted state. -/
theorem step_of_fault {s t : State} (hfault : s.fault ≠ .none) (h : step s = .next t) : t = s := by
  have hfaulted : s.faulted = true := by simp [State.faulted, hfault]
  rcases step_cases s with ⟨e, -, hs⟩ | ⟨-, -, hs⟩ | ⟨-, -, hs⟩ <;> rw [hs] at h
  · cases h
  · rw [clockEdge_of_stopped (.inl hfaulted)] at h
    exact (Host.Outcome.next.inj h).symm
  · rw [sequentialStep_of_ended (.inl hfault)] at h
    exact (Host.Outcome.next.inj h).symm

/-- R359, R41: a completed cycle keeps the parameters, and `fetch_stopped` once set. -/
theorem cycle_sticky {s t : State} (h : cycle s = .ok t) :
    t.cfg = s.cfg ∧ t.driver = s.driver ∧ (s.fetchStopped = true → t.fetchStopped = true) := by
  obtain ⟨req, after, answer, id, fetch, -, hside, -, -, rfl⟩ := cycle_ok h
  have hframe := memorySide_frame hside
  exact ⟨by rw [commit_cfg, hframe], by rw [commit_driver, hframe], fun hs => by simp [hs]⟩

/-- R359, R41: so does an instruction of the sequential reading. -/
theorem exec_sticky {i : Instr} {s t : State} (h : exec i s = .next t) :
    t.cfg = s.cfg ∧ t.driver = s.driver ∧ (s.fetchStopped = true → t.fetchStopped = true) := by
  rcases exec_next_cases h with ⟨d, v, rfl⟩ | ⟨a, rfl⟩ | ⟨f, rfl⟩ | ⟨a, v, -, rfl⟩ | rfl
  · simp
  · simp
  · simp
  · simp
  · exact ⟨rfl, rfl, fun _ => rfl⟩

/-- Settles O25, from what a step of each reading can be. -/
theorem stickyFields : Obligations.StickyFields := by
  intro s t h
  have hsticky : t.cfg = s.cfg ∧ t.driver = s.driver ∧ (s.fetchStopped = true → t.fetchStopped = true) := by
    obtain ⟨-, rfl | ⟨f, rfl⟩ | hcycle | ⟨i, hexec⟩⟩ := step_next_cases h
    · exact ⟨rfl, rfl, id⟩
    · simp
    · exact cycle_sticky hcycle
    · exact exec_sticky hexec
  obtain ⟨hcfg, hdriver, hstopped⟩ := hsticky
  exact ⟨hcfg, hdriver, fun hfault => step_of_fault hfault h, hstopped⟩

/-! ### The halted state -/

/-- R55: what `halted` says of the state. -/
theorem State.halted_iff (s : State) : s.halted = true ↔
    s.fetchStopped = true ∧ s.ifid.valid = false ∧ s.idex.valid = false ∧ s.exmem.valid = false ∧
      s.memwb.valid = false ∧ s.fill.active = false ∧ s.wbuf = [] ∧ s.fault = .none := by
  simp [State.halted, and_assoc]

/-- R45: the latches of a halted state are bubbles. -/
theorem MachineOk.nothingInFlight_of_halted {s : State} (h : MachineOk s) (hhalted : s.halted = true) :
    s.NothingInFlight := by
  obtain ⟨-, hifid, hidex, hexmem, hmemwb, hfill, hwbuf, -⟩ := s.halted_iff.mp hhalted
  exact ⟨h.bubbles.ifid hifid, h.bubbles.idex hidex, h.bubbles.exmem hexmem, h.bubbles.memwb hmemwb, hfill, hwbuf⟩

/-- R271: with fetch stopped and nothing in flight the commit moves bubbles into bubbles. -/
theorem State.NothingInFlight.commit_of_stopped {s : State} (h : s.NothingInFlight) (hs : s.fetchStopped = true) :
    commit s s .noAnswer { prop := Latch.bubble, idStall := false, taken := false, target := 0 }
      { isHalt := false, prop := Latch.bubble } = s := by
  calc _ = { s with fetchStopped := true } := by
        simp [commit, hs, nextPc, nextIfid, nextIdex, nextExmem, nextMemwb, memProposal, writeback_of_bubble h.memwb,
          exProposal_of_bubble h.idex, h.ifid, h.idex, h.exmem, h.memwb]
    _ = s := by rw [← hs]

/-- R357: with fetch stopped and nothing in flight no stage has anything to do. -/
theorem State.NothingInFlight.cycle_of_stopped {s : State} (h : s.NothingInFlight) (hs : s.fetchStopped = true) :
    cycle s = .ok s := by
  have haccept : acceptFetch s false false false = false := by simp [acceptFetch, hs]
  have hcommit := cycle_of_stages (fetch := { isHalt := false, prop := Latch.bubble }) (memRequest_of_bubble h.exmem)
    (memorySide_none_of_idle h.fill h.wbuf) (decodeStage_of_bubble h.ifid _) (by rw [decide_eq_false nofun, haccept]; rfl)
  rw [hcommit, h.commit_of_stopped hs]

/-- Settles O38: in a halted state nothing is in flight and fetch is stopped. -/
theorem haltedIsAFixedPoint : Obligations.HaltedIsAFixedPoint := by
  intro s hs hhalted
  obtain ⟨hstopped, -⟩ := s.halted_iff.mp hhalted
  exact ⟨(hs.nothingInFlight_of_halted hhalted).cycle_of_stopped hstopped,
    fun n => clockEdges_of_fixed n (clockEdge_of_stopped (.inr hhalted))⟩

end Sys2Proof.Machine
end

section
/-! O24, O26: the valid parameter sets (spec/60_exceptions.md R390), and reset (spec/70_reset_and_hazards.md R420). -/

namespace Sys2Proof

theorem isPowerOfTwo_iff_exists (n : Nat) : isPowerOfTwo n = true ↔ ∃ k, n = 2 ^ k := by
  rw [isPowerOfTwo_eq_true_iff]
  exact ⟨fun h => ⟨n.log2, h.symm⟩, fun ⟨k, hk⟩ => by rw [hk, Nat.log2_two_pow]⟩

/-- R12: the window sizes. -/
theorem isPowerOfTwo_between_iff (n : Nat) :
    isPowerOfTwo n = true ∧ 2 ^ 4 ≤ n ∧ n ≤ 2 ^ 32 ↔ ∃ k, 4 ≤ k ∧ k ≤ 32 ∧ n = 2 ^ k := by
  have hle (j k : Nat) : 2 ^ j ≤ 2 ^ k ↔ j ≤ k := Nat.pow_le_pow_iff_right (by decide)
  rw [isPowerOfTwo_iff_exists]
  constructor
  · rintro ⟨⟨k, rfl⟩, hmin, hmax⟩
    exact ⟨k, (hle 4 k).mp hmin, (hle k 32).mp hmax, rfl⟩
  · rintro ⟨k, hmin, hmax, rfl⟩
    exact ⟨⟨k, rfl⟩, (hle 4 k).mpr hmin, (hle k 32).mpr hmax⟩

/-- R15: the cache geometries. -/
theorem geometry_iff (lines words : Nat) :
    isPowerOfTwo lines = true ∧ isPowerOfTwo words = true ∧ lines.log2 + words.log2 ≤ 30 ↔
      ∃ n o, lines = 2 ^ n ∧ words = 2 ^ o ∧ n + o ≤ 30 := by
  rw [isPowerOfTwo_iff_exists, isPowerOfTwo_iff_exists]
  constructor
  · rintro ⟨⟨n, rfl⟩, ⟨o, rfl⟩, hbits⟩
    exact ⟨n, o, rfl, rfl, by simpa using hbits⟩
  · rintro ⟨n, o, rfl, rfl, hbits⟩
    exact ⟨⟨n, rfl⟩, ⟨o, rfl⟩, by simpa using hbits⟩

/-- R390: the constraints, one by one. -/
theorem Config.check_eq_none_iff (c : Config) : c.check = none ↔
    c.archMode = .pipelined ∧ (c.cacheMode = .disabled ∨ c.cacheMode = .data) ∧ c.assoc = .directMapped ∧
    (∃ k, 4 ≤ k ∧ k ≤ 32 ∧ c.memSize = 2 ^ k) ∧
    (c.cacheMode = .data →
      (∃ n o, c.numLines = 2 ^ n ∧ c.blockWords = 2 ^ o ∧ n + o ≤ 30) ∧ 4 * c.blockWords ≤ c.memSize ∧
      1 ≤ c.missPenalty ∧ 1 ≤ c.subseqPenalty ∧ 1 ≤ c.wbCapacity) ∧
    c.resetPc.toNat % 4 = 0 ∧ c.resetPc.toNat < c.memSize ∧ (c.haltOnPcZero = true → c.resetPc ≠ 0) := by
  rw [← isPowerOfTwo_between_iff, ← geometry_iff]
  simp only [Config.check, ite_some_eq_none_iff, not_and, Classical.not_imp, not_not, ne_eq, not_lt, not_le,
    or_iff_not_imp_left, imp_and, and_assoc, and_true, Nat.one_le_iff_ne_zero]

namespace Machine

/-- Settles O24: the constraints are those of the check, and construction and step ask the check first. -/
theorem invalidConfigurationRefused : Obligations.InvalidConfigurationRefused := by
  refine fun c mem => ⟨c.check_eq_none_iff, fun hc => by simp [State.construct, hc],
    fun e he => ⟨by simp [State.construct, he], fun s hs => ?_⟩⟩
  rcases step_cases s with ⟨e', he', hstep⟩ | ⟨hc, -⟩ | ⟨hc, -⟩
  · rw [hs, he, Option.some.injEq] at he'
    rw [hstep, he']
  · cases (hs ▸ hc).symm.trans he
  · cases (hs ▸ hc).symm.trans he

/-! ### Reset (R420) -/

/-- R54: `x[0]` is 0 after reset. -/
theorem resetRegisters_zero (c : Config) : (resetRegisters c)[0] = 0 :=
  Vector.getElem_append_left (by decide)

/-- R54: `x[i + 1]` is entry `i` of `RF_RESET` after reset. -/
theorem resetRegisters_succ (c : Config) {i : Nat} (hi : i < 31) : (resetRegisters c)[i + 1] = c.rfReset[i] := by
  unfold resetRegisters
  rw [Vector.getElem_append_right (by omega) (Nat.le_add_left 1 i)]
  rfl

/-- R22, R54: the registers as they are read after reset. -/
theorem State.readReg_applyReset (s : State) (i : Fin 31) :
    s.applyReset.readReg (BitVec.ofNat 5 (i.val + 1)) = s.cfg.rfReset[i] := by
  have hi : (BitVec.ofNat 5 (i.val + 1)).toNat = i.val + 1 := by
    rw [BitVec.toNat_ofNat]
    omega
  have hne : BitVec.ofNat 5 (i.val + 1) ≠ 0 := fun h => by
    have := congrArg BitVec.toNat h
    rw [hi] at this
    cases this
  rw [State.readReg, if_neg hne]
  simp only [hi]
  exact resetRegisters_succ s.cfg i.isLt

/-- R54: every line after reset is the reset line. -/
theorem State.eq_reset_of_mem_applyReset {s : State} {l : Line} (h : l ∈ s.applyReset.lines) :
    l = Line.reset s.cfg.blockWords := by
  change l ∈ (if s.cfg.cacheMode = .data then _ else _) at h
  split at h
  · exact List.eq_of_mem_replicate h
  · cases h

/-- Settles O26: reset builds the state of R54 from the parameters and the backing store alone. -/
theorem resetValues : Obligations.ResetValues := by
  refine ⟨fun s => ⟨rfl, resetRegisters_zero s.cfg, s.readReg_applyReset, rfl, rfl, rfl, rfl, rfl, fun hmode => ?count,
    fun l hl => ?line, rfl, rfl, rfl, rfl, rfl, rfl, rfl⟩, rfl⟩
  case count =>
    change (if s.cfg.cacheMode = .data then _ else _ : List Line).length = _
    rw [if_pos hmode, List.length_replicate]
  case line =>
    obtain rfl := State.eq_reset_of_mem_applyReset hl
    exact ⟨rfl, rfl, rfl, List.length_replicate, fun v hv => List.eq_of_mem_replicate hv⟩

end Machine

end Sys2Proof
end
